-- ==== Sys2Proof/Word.lean ====
section
/-! DEFINITION. The word types of the block: registers are 32 bits wide, SPI0 data bytes 8, Send16 words 16 (R18). -/

namespace Sys2Proof

/-- A register value, an address, or an operation's u32 argument (R18, R64). -/
abbrev Word := BitVec 32

/-- An SPI0 data byte (R18). -/
abbrev Byte := BitVec 8

/-- A 16-bit argument: a Send16 word or a clock divider (R18). -/
abbrev Half := BitVec 16

end Sys2Proof
end

