-- ==== Sys2Proof/Config.lean ====
section
/-! DEFINITION. What an implementation fixes (the parameters of R9 and the settled addresses) and the free values: opaque
constants, of which no proof can know the value. -/

namespace Sys2Proof

/-- `PERIPH_BASE` (R9). -/
def Config.periphBase : Word := 0x3F000000

/-- `GPIO_BASE` (R9). -/
def Config.gpioBase : Word := Config.periphBase + 0x200000

/-- `SPI0_BASE` (R9). -/
def Config.spi0Base : Word := Config.periphBase + 0x204000

/-- `RX_FULL_POLICY`: what the engine does while the RX FIFO is full (R9, R150, R151). -/
inductive RxFullPolicy
  | stall
  | drop
  deriving DecidableEq, Repr

/-- `EDS_CLEAR_STYLE`: how EventDetected clears the event (R9, R131). -/
inductive EdsClearStyle
  | orRmw
  | directWrite
  deriving DecidableEq, Repr

/-- `GPIO_OFFSETS`: the offset of every GPIO register from `GPIO_BASE` (R9, R88; D9). -/
structure GpioOffsets where
  gpfsel : Vector Word 6
  gpset : Vector Word 2
  gpclr : Vector Word 2
  gplev : Vector Word 2
  gpeds : Vector Word 2
  gpren : Vector Word 2
  gpfen : Vector Word 2
  deriving DecidableEq, Repr

/-- The positions of the fields of CS, part of `SPI0_LAYOUT` (R9, R90; D9): the bit of each one-bit field, and the lower
bit of the two of the chip-select field.  A position that no field has is reserved. -/
structure CsPositions where
  cs : Fin 31
  cpha : Fin 32
  cpol : Fin 32
  clearTx : Fin 32
  clearRx : Fin 32
  cspol : Fin 32
  ta : Fin 32
  dmaen : Fin 32
  intd : Fin 32
  intr : Fin 32
  adcs : Fin 32
  renb : Fin 32
  len : Fin 32
  lmono : Fin 32
  teEn : Fin 32
  done : Fin 32
  rxd : Fin 32
  txd : Fin 32
  rxr : Fin 32
  rxf : Fin 32
  cspol0 : Fin 32
  cspol1 : Fin 32
  cspol2 : Fin 32
  dmaLen : Fin 32
  lenLong : Fin 32
  deriving DecidableEq, Repr

/-- `SPI0_LAYOUT`: the offsets of the SPI0 registers from `SPI0_BASE` (R89), the positions of the fields of CS (R90), and
the lowest bit of the data byte in FIFO and of CDIV in CLK (R94) (R9; D9). -/
structure SpiLayout where
  csOffset : Word
  fifoOffset : Word
  clkOffset : Word
  csBits : CsPositions
  fifoData : Fin 25
  cdiv : Fin 17
  deriving DecidableEq, Repr

/-- The OPEN parameters of R9; the spec's defaults are `Params.defaults`.  They are fixed while the machine runs; claims
hold for every value of them, or name the value they need (log 5). -/
structure Params where
  /-- `GPIO_OFFSETS` (D9). -/
  gpioOffsets : GpioOffsets
  /-- `SPI0_LAYOUT` (D9). -/
  spi0Layout : SpiLayout
  /-- `FIFO_DEPTH`, bytes in each FIFO (D10). -/
  fifoDepth : Nat
  /-- `RX_FULL_POLICY` (D11). -/
  rxFullPolicy : RxFullPolicy
  /-- `RXR_THRESHOLD` (D37). -/
  rxrThreshold : Nat
  /-- `SPI0_PINS`, written in ascending order (D25, R162). -/
  spi0Pins : List Word
  /-- `SPI0_PIN_MODE`, a mode code (D25). -/
  spi0PinMode : Word
  /-- `EDS_CLEAR_STYLE` (D24). -/
  edsClearStyle : EdsClearStyle
  deriving DecidableEq, Repr

/-- The positions of the fields of CS (R90). -/
abbrev Params.csBits (p : Params) : CsPositions := p.spi0Layout.csBits

/-- Which agent takes the next step, with the values it brings (R16, R17): the environment's answer on MISO travels with
the engine's step (R152, log 4), its pad change names a pin and a level (R113). -/
inductive Move
  | host
  | engine (miso : Byte)
  | pad (p : Fin 54) (level : Bool)
  deriving DecidableEq, Repr, Inhabited

/-- FREE VALUE, one for each use: the `draw()` of R14 (reserved bits, an empty RX FIFO; log 3). -/
opaque Config.draw : Nat → Word

/-- FREE VALUE, one for each step: which agent moves next and what it brings (R17, R113, R152; log 2, log 4). -/
opaque Config.move : Nat → Move

/-- FREE VALUE: the output latch of each pin at reset, "unspecified; a model draws each bit at reset" (R23; log 6). -/
opaque Config.resetLatch : Nat → Bool

/-- FREE VALUE: the pad level of each pin at reset, "any (a draw)" (R24; log 6). -/
opaque Config.resetExt : Nat → Bool

end Sys2Proof
end

