-- ==== Sys2Proof/Syntax.lean ====
section
/-! DEFINITION. The instructions of the block: one constructor per row of spec/opcode_table.json, the 36 level-1
transactions (R85, R88, R89) and the 17 level-2 driver operations (R91). -/

namespace Sys2Proof

/-- The `edge` argument of EnableEdgeDetect, with the spec's numbers Rising = 0, Falling = 1, Changing = 2, NoEdge = 3 (R91). -/
inductive Edge
  | rising
  | falling
  | changing
  | noEdge
  deriving DecidableEq, Repr

/-- One item of a program (R21): a level-1 transaction, whose address is in its name, or a level-2 operation with its
typed arguments (R91).  An argument outside its type is refused where the item is decoded (log 10). -/
inductive Instr
  /-- `LD_GPFSEL0` (R114). -/
  | ldGpfsel0
  /-- `ST_GPFSEL0` (R115). -/
  | stGpfsel0 (data : Word)
  /-- `LD_GPFSEL1` (R114). -/
  | ldGpfsel1
  /-- `ST_GPFSEL1` (R115). -/
  | stGpfsel1 (data : Word)
  /-- `LD_GPFSEL2` (R114). -/
  | ldGpfsel2
  /-- `ST_GPFSEL2` (R115). -/
  | stGpfsel2 (data : Word)
  /-- `LD_GPFSEL3` (R114). -/
  | ldGpfsel3
  /-- `ST_GPFSEL3` (R115). -/
  | stGpfsel3 (data : Word)
  /-- `LD_GPFSEL4` (R114). -/
  | ldGpfsel4
  /-- `ST_GPFSEL4` (R115). -/
  | stGpfsel4 (data : Word)
  /-- `LD_GPFSEL5` (R114). -/
  | ldGpfsel5
  /-- `ST_GPFSEL5` (R115). -/
  | stGpfsel5 (data : Word)
  /-- `ST_GPSET0` (R116). -/
  | stGpset0 (data : Word)
  /-- `ST_GPSET1` (R116). -/
  | stGpset1 (data : Word)
  /-- `ST_GPCLR0` (R117). -/
  | stGpclr0 (data : Word)
  /-- `ST_GPCLR1` (R117). -/
  | stGpclr1 (data : Word)
  /-- `LD_GPLEV0` (R118). -/
  | ldGplev0
  /-- `LD_GPLEV1` (R118). -/
  | ldGplev1
  /-- `LD_GPEDS0` (R120). -/
  | ldGpeds0
  /-- `ST_GPEDS0` (R121). -/
  | stGpeds0 (data : Word)
  /-- `LD_GPEDS1` (R120). -/
  | ldGpeds1
  /-- `ST_GPEDS1` (R121). -/
  | stGpeds1 (data : Word)
  /-- `LD_GPREN0` (R122). -/
  | ldGpren0
  /-- `ST_GPREN0` (R123). -/
  | stGpren0 (data : Word)
  /-- `LD_GPREN1` (R122). -/
  | ldGpren1
  /-- `ST_GPREN1` (R123). -/
  | stGpren1 (data : Word)
  /-- `LD_GPFEN0` (R124). -/
  | ldGpfen0
  /-- `ST_GPFEN0` (R125). -/
  | stGpfen0 (data : Word)
  /-- `LD_GPFEN1` (R124). -/
  | ldGpfen1
  /-- `ST_GPFEN1` (R125). -/
  | stGpfen1 (data : Word)
  /-- `LD_SPI0_CS` (R141). -/
  | ldSpiCs
  /-- `ST_SPI0_CS` (R142). -/
  | stSpiCs (data : Word)
  /-- `LD_SPI0_FIFO` (R146). -/
  | ldSpiFifo
  /-- `ST_SPI0_FIFO` (R147). -/
  | stSpiFifo (data : Word)
  /-- `LD_SPI0_CLK` (R149). -/
  | ldSpiClk
  /-- `ST_SPI0_CLK` (R148). -/
  | stSpiClk (data : Word)
  /-- `SetPinMode` (R127). -/
  | setPinMode (pin mode : Word)
  /-- `WritePin` (R128). -/
  | writePin (pin value : Word)
  /-- `ReadPin` (R129). -/
  | readPin (pin : Word)
  /-- `EnableEdgeDetect` (R130). -/
  | enableEdgeDetect (pin : Word) (edge : Edge)
  /-- `EventDetected` (R131). -/
  | eventDetected (pin : Word)
  /-- `SPI0_Start` (R162). -/
  | spiStart
  /-- `SPI0_End` (R163). -/
  | spiEnd
  /-- `SetClockDivider` (R164). -/
  | setClockDivider (d : Half)
  /-- `SetChipSelect` (R165). -/
  | setChipSelect (cs : Word)
  /-- `BeginTransfer` (R166). -/
  | beginTransfer
  /-- `Send` (R167). -/
  | send (byte : Byte)
  /-- `Send16` (R168). -/
  | send16 (word : Half)
  /-- `EndTransfer` (R169). -/
  | endTransfer
  /-- `TransferByte` (R170). -/
  | transferByte (val : Byte)
  /-- `BufferTransfer` (R171). -/
  | bufferTransfer (txBuf : List Byte) (n : Word)
  /-- `QDEC_Initialize` (R194). -/
  | qdecInitialize (encoder pinA pinB : Word)
  /-- `QDEC_Poll` (R195). -/
  | qdecPoll (encoder : Word)
  deriving DecidableEq, Repr

end Sys2Proof
end

