-- ==== Sys2Proof/WellFormed.lean ====
section
/-! DEFINITION. Which instructions are well formed: the argument ranges of R91 that the types of `Instr` do not already say,
and which instructions the program image of R102 can hold. -/

namespace Sys2Proof

/-- The image of R102 can hold the instruction: a list argument's length is written in one 32-bit word. -/
def Instr.encodable : Instr → Bool
  | .bufferTransfer txBuf _ => decide (txBuf.length < 2 ^ 32)
  | _ => true

/-- The arguments are in the ranges the spec admits: SetChipSelect takes 0 or 1 (R165), BufferTransfer a list of
exactly `n` bytes (R91, R171).  Every other range is in the constructor's type. -/
def Instr.wellFormed : Instr → Bool
  | .setChipSelect cs => decide (cs ≤ 1)
  | .bufferTransfer txBuf n => decide (txBuf.length = n.toNat)
  | _ => true

end Sys2Proof
end

