-- ==== Sys2Proof/Decode.lean ====
section
/-! DEFINITION. The parameters at their defaults (R9, R88 to R90, R94) and when register tables are well formed.
Decoding: a bus transaction is selected by its direction, width and address (R85, R95, R97); a program image is a list of
32-bit words read one item at a time (R102).  The encoder of R102 stands at the end. -/

namespace Sys2Proof

/-- Why no instruction is read.  Each is a refusal of the step that meets it: safe, the machine stops. -/
inductive DecodeError
  /-- A transaction that no row of R88 or R89 admits (R95): `RF1 UNMAPPED_ACCESS`. -/
  | unmapped (write : Bool) (width : Nat) (addr : Word) (data : Option Word)
  /-- An argument outside its type (R91): `RF4 BAD_ARGUMENT`, with the operation id and the argument. -/
  | badArgument (op : Nat) (arg : Word)
  /-- A first word that is neither 0xB0, 0xB1 nor an operation id (R102). -/
  | unknownItem (word : Word)
  /-- The image ends inside an item that began with this word. -/
  | truncated (word : Word)
  deriving DecidableEq, Repr

/-- The default of `GPIO_OFFSETS`, the table of R88. -/
def gpioOffsetsDefault : GpioOffsets where
  gpfsel := #v[0x00, 0x04, 0x08, 0x0C, 0x10, 0x14]
  gpset := #v[0x1C, 0x20]
  gpclr := #v[0x28, 0x2C]
  gplev := #v[0x34, 0x38]
  gpeds := #v[0x40, 0x44]
  gpren := #v[0x4C, 0x50]
  gpfen := #v[0x58, 0x5C]

/-- The default positions of the fields of CS, the table of R90. -/
def csPositionsDefault : CsPositions where
  cs := 0
  cpha := 2
  cpol := 3
  clearTx := 4
  clearRx := 5
  cspol := 6
  ta := 7
  dmaen := 8
  intd := 9
  intr := 10
  adcs := 11
  renb := 12
  len := 13
  lmono := 14
  teEn := 15
  done := 16
  rxd := 17
  txd := 18
  rxr := 19
  rxf := 20
  cspol0 := 21
  cspol1 := 22
  cspol2 := 23
  dmaLen := 24
  lenLong := 25

/-- The default of `SPI0_LAYOUT`: R89, R90, and R94's data byte in bits 7:0 and CDIV in bits 15:0. -/
def spiLayoutDefault : SpiLayout where
  csOffset := 0x00
  fifoOffset := 0x04
  clkOffset := 0x08
  csBits := csPositionsDefault
  fifoData := 0
  cdiv := 0

/-- The parameters at the spec's defaults (R9). -/
def Params.defaults : Params where
  gpioOffsets := gpioOffsetsDefault
  spi0Layout := spiLayoutDefault
  fifoDepth := 16
  rxFullPolicy := .stall
  rxrThreshold := 12
  spi0Pins := [7, 8, 9, 10, 11]
  spi0PinMode := 4
  edsClearStyle := .orRmw

/-- The address of a GPIO register at this offset (R88). -/
def gpioAddr (offset : Word) : Word := Config.gpioBase + offset

/-- The address of an SPI0 register at this offset (R89). -/
def spiAddr (offset : Word) : Word := Config.spi0Base + offset

/-- A row of the register tables R88 and R89: a direction and an address (the selection key of R85) and the instruction
they select. -/
structure BusRow where
  write : Bool
  addr : Word
  make : Word → Instr

/-- The GPIO rows of R88, function select, set and clear. -/
def gpioRowsA (g : GpioOffsets) : List BusRow :=
  [⟨false, gpioAddr g.gpfsel[0], fun _ => .ldGpfsel0⟩,
   ⟨true, gpioAddr g.gpfsel[0], fun d => .stGpfsel0 d⟩,
   ⟨false, gpioAddr g.gpfsel[1], fun _ => .ldGpfsel1⟩,
   ⟨true, gpioAddr g.gpfsel[1], fun d => .stGpfsel1 d⟩,
   ⟨false, gpioAddr g.gpfsel[2], fun _ => .ldGpfsel2⟩,
   ⟨true, gpioAddr g.gpfsel[2], fun d => .stGpfsel2 d⟩,
   ⟨false, gpioAddr g.gpfsel[3], fun _ => .ldGpfsel3⟩,
   ⟨true, gpioAddr g.gpfsel[3], fun d => .stGpfsel3 d⟩,
   ⟨false, gpioAddr g.gpfsel[4], fun _ => .ldGpfsel4⟩,
   ⟨true, gpioAddr g.gpfsel[4], fun d => .stGpfsel4 d⟩,
   ⟨false, gpioAddr g.gpfsel[5], fun _ => .ldGpfsel5⟩,
   ⟨true, gpioAddr g.gpfsel[5], fun d => .stGpfsel5 d⟩,
   ⟨true, gpioAddr g.gpset[0], fun d => .stGpset0 d⟩,
   ⟨true, gpioAddr g.gpset[1], fun d => .stGpset1 d⟩,
   ⟨true, gpioAddr g.gpclr[0], fun d => .stGpclr0 d⟩,
   ⟨true, gpioAddr g.gpclr[1], fun d => .stGpclr1 d⟩]

/-- The GPIO rows of R88, level, edge status and edge enables. -/
def gpioRowsB (g : GpioOffsets) : List BusRow :=
  [⟨false, gpioAddr g.gplev[0], fun _ => .ldGplev0⟩,
   ⟨false, gpioAddr g.gplev[1], fun _ => .ldGplev1⟩,
   ⟨false, gpioAddr g.gpeds[0], fun _ => .ldGpeds0⟩,
   ⟨true, gpioAddr g.gpeds[0], fun d => .stGpeds0 d⟩,
   ⟨false, gpioAddr g.gpeds[1], fun _ => .ldGpeds1⟩,
   ⟨true, gpioAddr g.gpeds[1], fun d => .stGpeds1 d⟩,
   ⟨false, gpioAddr g.gpren[0], fun _ => .ldGpren0⟩,
   ⟨true, gpioAddr g.gpren[0], fun d => .stGpren0 d⟩,
   ⟨false, gpioAddr g.gpren[1], fun _ => .ldGpren1⟩,
   ⟨true, gpioAddr g.gpren[1], fun d => .stGpren1 d⟩,
   ⟨false, gpioAddr g.gpfen[0], fun _ => .ldGpfen0⟩,
   ⟨true, gpioAddr g.gpfen[0], fun d => .stGpfen0 d⟩,
   ⟨false, gpioAddr g.gpfen[1], fun _ => .ldGpfen1⟩,
   ⟨true, gpioAddr g.gpfen[1], fun d => .stGpfen1 d⟩]

/-- The SPI0 rows of R89. -/
def spiRows (l : SpiLayout) : List BusRow :=
  [⟨false, spiAddr l.csOffset, fun _ => .ldSpiCs⟩,
   ⟨true, spiAddr l.csOffset, fun d => .stSpiCs d⟩,
   ⟨false, spiAddr l.fifoOffset, fun _ => .ldSpiFifo⟩,
   ⟨true, spiAddr l.fifoOffset, fun d => .stSpiFifo d⟩,
   ⟨false, spiAddr l.clkOffset, fun _ => .ldSpiClk⟩,
   ⟨true, spiAddr l.clkOffset, fun d => .stSpiClk d⟩]

/-- Every admitted transaction (R61). -/
def busTable (p : Params) : List BusRow := gpioRowsA p.gpioOffsets ++ gpioRowsB p.gpioOffsets ++ spiRows p.spi0Layout

/-- The registers' addresses (R61). -/
def registerAddrs (p : Params) : List Word :=
  let g := p.gpioOffsets
  [gpioAddr g.gpfsel[0], gpioAddr g.gpfsel[1], gpioAddr g.gpfsel[2], gpioAddr g.gpfsel[3],
   gpioAddr g.gpfsel[4], gpioAddr g.gpfsel[5], gpioAddr g.gpset[0], gpioAddr g.gpset[1],
   gpioAddr g.gpclr[0], gpioAddr g.gpclr[1], gpioAddr g.gplev[0], gpioAddr g.gplev[1],
   gpioAddr g.gpeds[0], gpioAddr g.gpeds[1], gpioAddr g.gpren[0], gpioAddr g.gpren[1],
   gpioAddr g.gpfen[0], gpioAddr g.gpfen[1],
   spiAddr p.spi0Layout.csOffset, spiAddr p.spi0Layout.fifoOffset, spiAddr p.spi0Layout.clkOffset]

/-- The positions the fields of CS take up, the chip-select field two of them (R90). -/
def CsPositions.list (c : CsPositions) : List Nat :=
  [c.cs, c.cs + 1, c.cpha, c.cpol, c.clearTx, c.clearRx, c.cspol, c.ta, c.dmaen, c.intd, c.intr, c.adcs, c.renb, c.len,
   c.lmono, c.teEn, c.done, c.rxd, c.txd, c.rxr, c.rxf, c.cspol0, c.cspol1, c.cspol2, c.dmaLen, c.lenLong]

/-- The register tables are well formed: every register has an address of its own, a multiple of 4 (R66), and every field
of CS has bits of its own.  The spec's defaults are; rules that need it say so (log 19). -/
abbrev Params.wf (p : Params) : Prop :=
  (registerAddrs p).Nodup ∧ ((registerAddrs p).all fun a => a.toNat % 4 == 0) = true ∧ p.csBits.list.Nodup

/-- A transaction's direction, width and address select one row or are refused (R64, R66, R95, R97). -/
def decodeAccess (p : Params) (write : Bool) (width : Nat) (addr : Word) (data : Option Word) :
    Except DecodeError Instr :=
  if width = 32 ∧ addr.toNat % 4 = 0 then
    match (busTable p).find? (fun row => row.write == write && row.addr == addr) with
    | some row => .ok (row.make (data.getD 0))
    | none => .error (.unmapped write width addr data)
  else .error (.unmapped write width addr data)

/-- An argument word as a value of `w` bits, if it is in the type (R91). -/
def narrow (w : Nat) (arg : Word) : Option (BitVec w) := if arg.toNat < 2 ^ w then some (arg.setWidth w) else none

/-- The `Edge` with this number (R91). -/
def edgeOf (arg : Word) : Option Edge :=
  match arg.toNat with
  | 0 => some .rising
  | 1 => some .falling
  | 2 => some .changing
  | 3 => some .noEdge
  | _ => none

/-- A list argument's bytes, or the first word that is no byte (R91, R102). -/
def narrowAll : List Word → Except Word (List Byte)
  | [] => .ok []
  | w :: ws =>
    match narrow 8 w with
    | none => .error w
    | some b => (narrowAll ws).map (b :: ·)

/-- An operation whose arguments are the one word `a`. -/
def item1 (op : Word) (args : List Word) (k : Word → Except DecodeError Instr) : Except DecodeError (Instr × List Word) :=
  match args with
  | a :: rest => (k a).map (·, rest)
  | _ => .error (.truncated op)

/-- An operation whose arguments are two words. -/
def item2 (op : Word) (args : List Word) (k : Word → Word → Except DecodeError Instr) :
    Except DecodeError (Instr × List Word) :=
  match args with
  | a :: b :: rest => (k a b).map (·, rest)
  | _ => .error (.truncated op)

/-- An operation whose arguments are three words. -/
def item3 (op : Word) (args : List Word) (k : Word → Word → Word → Except DecodeError Instr) :
    Except DecodeError (Instr × List Word) :=
  match args with
  | a :: b :: c :: rest => (k a b c).map (·, rest)
  | _ => .error (.truncated op)

/-- One argument of `w` bits (R91): anything wider is `RF4 BAD_ARGUMENT`. -/
def typed (w : Nat) (op : Nat) (make : BitVec w → Instr) (arg : Word) : Except DecodeError Instr :=
  match narrow w arg with
  | some v => .ok (make v)
  | none => .error (.badArgument op arg)

/-- BufferTransfer's arguments: a list (its length, then one word a byte) and `n` (R102). -/
def bufferItem (op : Word) (args : List Word) : Except DecodeError (Instr × List Word) :=
  match args with
  | len :: ws =>
    if len.toNat < ws.length then
      match narrowAll (ws.take len.toNat), ws.drop len.toNat with
      | .ok txBuf, n :: rest => .ok (.bufferTransfer txBuf n, rest)
      | .error w, _ => .error (.badArgument 0x19 w)
      | _, [] => .error (.truncated op)
    else .error (.truncated op)
  | [] => .error (.truncated op)

/-- EnableEdgeDetect's arguments (R91, R130). -/
def edgeItem (pin arg : Word) : Except DecodeError Instr :=
  match edgeOf arg with
  | some e => .ok (.enableEdgeDetect pin e)
  | none => .error (.badArgument 0x04 arg)

/-- The item at the head of an image and the words after it (R102). -/
def decode (p : Params) : List Word → Except DecodeError (Instr × List Word)
  | [] => .error (.truncated 0)
  | op :: args =>
    match op.toNat with
    | 0xB0 => item1 op args fun addr => decodeAccess p false 32 addr none
    | 0xB1 => item2 op args fun addr data => decodeAccess p true 32 addr (some data)
    | 0x01 => item2 op args fun pin mode => .ok (.setPinMode pin mode)
    | 0x02 => item2 op args fun pin value => .ok (.writePin pin value)
    | 0x03 => item1 op args fun pin => .ok (.readPin pin)
    | 0x04 => item2 op args edgeItem
    | 0x05 => item1 op args fun pin => .ok (.eventDetected pin)
    | 0x10 => .ok (.spiStart, args)
    | 0x11 => .ok (.spiEnd, args)
    | 0x12 => item1 op args (typed 16 0x12 .setClockDivider)
    | 0x13 => item1 op args fun cs => .ok (.setChipSelect cs)
    | 0x14 => .ok (.beginTransfer, args)
    | 0x15 => item1 op args (typed 8 0x15 .send)
    | 0x16 => item1 op args (typed 16 0x16 .send16)
    | 0x17 => .ok (.endTransfer, args)
    | 0x18 => item1 op args (typed 8 0x18 .transferByte)
    | 0x19 => bufferItem op args
    | 0x20 => item3 op args fun e pinA pinB => .ok (.qdecInitialize e pinA pinB)
    | 0x21 => item1 op args fun e => .ok (.qdecPoll e)
    | _ => .error (.unknownItem op)

/-- The image words of an opcode-table row's own bits, every further bit zero: a BUS32 row has the 33-bit selection key
of R85, an OP row its 8-bit id (log 20). -/
def tableWords (nbits w : Nat) : List Word :=
  if nbits ≤ 32 then
    if w < 2 ^ 32 then [BitVec.ofNat 32 w, 0, 0, 0] else [0, 0, 0, 0]
  else
    if w < 2 ^ 32 then [0xB0, BitVec.ofNat 32 w, 0, 0]
    else if w < 2 ^ 33 then [0xB1, BitVec.ofNat 32 (w - 2 ^ 32), 0, 0]
    else [0, 0, 0, 0]

/-- The instruction this decoder reads from an opcode-table row's bits, with the register tables of `p`. -/
def decodeTableWordWith (p : Params) (nbits w : Nat) : Option Instr :=
  match decode p (tableWords nbits w) with
  | .ok (i, _) => some i
  | .error _ => none

/-- The instruction this decoder reads from an opcode-table row's bits; the table is written with the default register
tables. -/
def decodeTableWord (nbits w : Nat) : Option Instr := decodeTableWordWith .defaults nbits w

/-- The number of an `Edge` (R91). -/
def Edge.code : Edge → Word
  | .rising => 0
  | .falling => 1
  | .changing => 2
  | .noEdge => 3

/-- The image words of an instruction (R102), written from the tables R88, R89 and R91. -/
def encode (p : Params) : Instr → List Word
  | .ldGpfsel0 => [0xB0, gpioAddr p.gpioOffsets.gpfsel[0]]
  | .stGpfsel0 d => [0xB1, gpioAddr p.gpioOffsets.gpfsel[0], d]
  | .ldGpfsel1 => [0xB0, gpioAddr p.gpioOffsets.gpfsel[1]]
  | .stGpfsel1 d => [0xB1, gpioAddr p.gpioOffsets.gpfsel[1], d]
  | .ldGpfsel2 => [0xB0, gpioAddr p.gpioOffsets.gpfsel[2]]
  | .stGpfsel2 d => [0xB1, gpioAddr p.gpioOffsets.gpfsel[2], d]
  | .ldGpfsel3 => [0xB0, gpioAddr p.gpioOffsets.gpfsel[3]]
  | .stGpfsel3 d => [0xB1, gpioAddr p.gpioOffsets.gpfsel[3], d]
  | .ldGpfsel4 => [0xB0, gpioAddr p.gpioOffsets.gpfsel[4]]
  | .stGpfsel4 d => [0xB1, gpioAddr p.gpioOffsets.gpfsel[4], d]
  | .ldGpfsel5 => [0xB0, gpioAddr p.gpioOffsets.gpfsel[5]]
  | .stGpfsel5 d => [0xB1, gpioAddr p.gpioOffsets.gpfsel[5], d]
  | .stGpset0 d => [0xB1, gpioAddr p.gpioOffsets.gpset[0], d]
  | .stGpset1 d => [0xB1, gpioAddr p.gpioOffsets.gpset[1], d]
  | .stGpclr0 d => [0xB1, gpioAddr p.gpioOffsets.gpclr[0], d]
  | .stGpclr1 d => [0xB1, gpioAddr p.gpioOffsets.gpclr[1], d]
  | .ldGplev0 => [0xB0, gpioAddr p.gpioOffsets.gplev[0]]
  | .ldGplev1 => [0xB0, gpioAddr p.gpioOffsets.gplev[1]]
  | .ldGpeds0 => [0xB0, gpioAddr p.gpioOffsets.gpeds[0]]
  | .stGpeds0 d => [0xB1, gpioAddr p.gpioOffsets.gpeds[0], d]
  | .ldGpeds1 => [0xB0, gpioAddr p.gpioOffsets.gpeds[1]]
  | .stGpeds1 d => [0xB1, gpioAddr p.gpioOffsets.gpeds[1], d]
  | .ldGpren0 => [0xB0, gpioAddr p.gpioOffsets.gpren[0]]
  | .stGpren0 d => [0xB1, gpioAddr p.gpioOffsets.gpren[0], d]
  | .ldGpren1 => [0xB0, gpioAddr p.gpioOffsets.gpren[1]]
  | .stGpren1 d => [0xB1, gpioAddr p.gpioOffsets.gpren[1], d]
  | .ldGpfen0 => [0xB0, gpioAddr p.gpioOffsets.gpfen[0]]
  | .stGpfen0 d => [0xB1, gpioAddr p.gpioOffsets.gpfen[0], d]
  | .ldGpfen1 => [0xB0, gpioAddr p.gpioOffsets.gpfen[1]]
  | .stGpfen1 d => [0xB1, gpioAddr p.gpioOffsets.gpfen[1], d]
  | .ldSpiCs => [0xB0, spiAddr p.spi0Layout.csOffset]
  | .stSpiCs d => [0xB1, spiAddr p.spi0Layout.csOffset, d]
  | .ldSpiFifo => [0xB0, spiAddr p.spi0Layout.fifoOffset]
  | .stSpiFifo d => [0xB1, spiAddr p.spi0Layout.fifoOffset, d]
  | .ldSpiClk => [0xB0, spiAddr p.spi0Layout.clkOffset]
  | .stSpiClk d => [0xB1, spiAddr p.spi0Layout.clkOffset, d]
  | .setPinMode pin mode => [0x01, pin, mode]
  | .writePin pin value => [0x02, pin, value]
  | .readPin pin => [0x03, pin]
  | .enableEdgeDetect pin edge => [0x04, pin, edge.code]
  | .eventDetected pin => [0x05, pin]
  | .spiStart => [0x10]
  | .spiEnd => [0x11]
  | .setClockDivider d => [0x12, d.setWidth 32]
  | .setChipSelect cs => [0x13, cs]
  | .beginTransfer => [0x14]
  | .send byte => [0x15, byte.setWidth 32]
  | .send16 word => [0x16, word.setWidth 32]
  | .endTransfer => [0x17]
  | .transferByte val => [0x18, val.setWidth 32]
  | .bufferTransfer txBuf n => 0x19 :: BitVec.ofNat 32 txBuf.length :: (txBuf.map (·.setWidth 32) ++ [n])
  | .qdecInitialize e pinA pinB => [0x20, e, pinA, pinB]
  | .qdecPoll e => [0x21, e]

end Sys2Proof
end

