-- ==== Sys2Proof/Machine/State.lean ====
section
/-! DEFINITION. The state of the block and its host, every piece the spec names (10_state.md), the stop codes of R207, and
the state after reset (R225). -/

namespace Sys2Proof.Machine

/-- The state of one GPIO pin (R22, R23, R24, R27, R28), at the reset values the spec gives. -/
structure Pin where
  /-- `G.fsel[p]`, the 3-bit mode code (R22). -/
  fsel : BitVec 3 := 0
  /-- `G.latch[p]`, the output latch (R23). -/
  latch : Bool := false
  /-- `G.ext[p]`, the level the environment presents (R24). -/
  ext : Bool := false
  /-- `G.eds[p]`, the sticky event flag (R27). -/
  eds : Bool := false
  /-- `G.ren[p]`, rising-edge enable (R28). -/
  ren : Bool := false
  /-- `G.fen[p]`, falling-edge enable (R28). -/
  fen : Bool := false
  deriving DecidableEq, Repr

/-- The SPI0 controller (R30 to R37), at its reset values. -/
structure Spi where
  /-- The 2-bit chip-select field (R30). -/
  cs : BitVec 2 := 0
  /-- Transfer Active (R30). -/
  ta : Bool := false
  cpha : Bool := false
  cpol : Bool := false
  cspol : Bool := false
  cspol0 : Bool := false
  cspol1 : Bool := false
  cspol2 : Bool := false
  /-- REN, stored without modelled effect, 1 at reset (R31). -/
  renb : Bool := true
  /-- The control fields outside the scope "hold 0 in every run the model admits" (R32); no rule writes them and a CS
  read returns 0 for each (R141). -/
  dmaen : Bool := false
  intd : Bool := false
  intr : Bool := false
  adcs : Bool := false
  len : Bool := false
  lmono : Bool := false
  teEn : Bool := false
  dmaLen : Bool := false
  lenLong : Bool := false
  /-- The TX FIFO, front first (R33). -/
  txq : List Byte := []
  /-- The RX FIFO, front first (R33). -/
  rxq : List Byte := []
  /-- The byte being shifted out and its chip select (R34). -/
  shift : Option (Byte × BitVec 2) := none
  /-- The clock divider (R36). -/
  cdiv : Half := 0
  /-- The wire trace, oldest exchange first: chip select, MOSI, MISO (R37). -/
  wire : List (BitVec 2 × Byte × Byte) := []
  deriving DecidableEq, Repr

/-- An encoder instance (R39).  `none` is the spec's own value before Initialize; the pins before Initialize are read by
no rule (log 12). -/
structure Encoder where
  pinA : Word := 0
  pinB : Word := 0
  raw : Option (BitVec 4) := none
  count : Option (BitVec 32) := none
  deriving DecidableEq, Repr

/-- An encoder before Initialize (R39). -/
def Encoder.uninit : Encoder := {}

/-- What a completed item returned (R20, R91, R98; log 18). -/
inductive Ret
  | word (v : Word)
  | bit (b : Bool)
  | flag (b : Bool)
  | byte (b : Byte)
  | bytes (bs : List Byte)
  deriving DecidableEq, Repr

/-- "The local variables of the operation it is executing (not architectural)" (R40): the model's own fields (log 1). -/
structure Locals where
  /-- The value the last read transaction returned (`v` of R98, R160; `old`, `r`, `f`, `w` of R127 to R131). -/
  v : Word := 0
  /-- TransferByte's `r` (R170). -/
  r : Byte := 0
  /-- Poll's `a` (R195). -/
  a : Bool := false
  /-- BufferTransfer's `t` (R171). -/
  t : Nat := 0
  /-- BufferTransfer's `rxBuf` so far; its length is the counter `r` of R171. -/
  rxBuf : List Byte := []
  deriving DecidableEq, Repr

/-- The local variables before an operation has used them. -/
def Locals.start : Locals := {}

/-- The host agent (R21, R40). -/
structure HostAgent where
  /-- The program image (R102), loaded from outside (log 7). -/
  prog : List Word := []
  /-- `H.ip`, the index of the item being executed (R21). -/
  ip : Nat := 0
  /-- Which transaction of the item comes next: the model's own field (log 1). -/
  pos : Nat := 0
  locals : Locals := Locals.start
  /-- The return value of the last completed item: the model's own field (log 18). -/
  result : Option Ret := none
  deriving DecidableEq, Repr

/-- The faults FT1 to FT4 of R207, with the info recorded: the spelling is admitted but the result in that state is not given.
All are safe: the machine stops where the spec gives no result. -/
inductive Fault
  /-- `FT1 TX_OVERFLOW`: a FIFO write with the TX FIFO full (R147). -/
  | txOverflow (data : Byte)
  /-- `FT2 TA_CLEARED_MID_TRANSFER`: a CS write clearing TA while a byte waits in the TX FIFO or the shifter (R142). -/
  | taClearedMidTransfer (data : Word) (txLength : Nat) (shift : Option (Byte × BitVec 2))
  /-- `FT3 CLEAR_DURING_SHIFT`: a CS write with a CLEAR bit while a byte is in the shifter (R142). -/
  | clearDuringShift (data : Word) (shift : Option (Byte × BitVec 2))
  /-- `FT4 COUNT_OVERFLOW`: a Poll whose sum leaves the signed 32-bit range (R195); `raw` is the table index. -/
  | countOverflow (encoder : Word) (raw : BitVec 4) (count : BitVec 32) (entry : Int)
  deriving DecidableEq, Repr

/-- The refusals RF1 to RF5 of R207, with the info recorded, and the model's own.  All are safe: the machine stops. -/
inductive Refusal
  /-- An instruction without a meaning yet: raised by `exec` alone. -/
  | notModelled (mnemonic : String)
  /-- `RF1 UNMAPPED_ACCESS`: raised where an item is decoded (R95). -/
  | unmappedAccess (write : Bool) (width : Nat) (addr : Word) (data : Option Word)
  /-- `RF2 OUT_OF_SCOPE_FIELD`: a CS write with chip select 3 or a DMA, interrupt or LoSSI field (R142, R145). -/
  | outOfScopeField (data : Word)
  /-- `RF3 FIFO_WRITE_WHILE_IDLE`: a FIFO write with TA = 0 (R147). -/
  | fifoWriteWhileIdle (data : Word)
  /-- `RF4 BAD_ARGUMENT`: an argument outside its type (where an item is decoded) or range (R91, R165, R171). -/
  | badArgument (op : Nat) (arg : Word)
  /-- `RF5 QDEC_UNINITIALISED`: Poll of an encoder never initialised (R195). -/
  | qdecUninitialised (encoder : Word)
  /-- The model's own: the image word at `H.ip` starts no item of R102 (log 8). -/
  | unknownItem (word : Word)
  /-- The model's own: the image ends inside the item at `H.ip` (log 8). -/
  | truncatedItem (word : Word)
  deriving DecidableEq, Repr

/-- What `H.stop` records: "the first fault or refusal raised" (R40). -/
inductive Stop
  | fault (f : Fault)
  | refusal (r : Refusal)
  deriving DecidableEq, Repr

/-- The machine: the block, its encoders, its host, and the model's own fields for what the spec leaves free. -/
structure State where
  /-- The parameters of R9, the register tables among them; no step changes them (log 5). -/
  params : Params
  /-- The 54 pins (R22 to R28). -/
  pins : Vector Pin 54
  spi : Spi
  /-- The encoder instances by number, ascending, none listed that is still uninitialised (R39, log 12). -/
  encs : List (Nat × Encoder)
  host : HostAgent
  /-- `H.stop` (R40). -/
  stop : Option Stop
  /-- The agent that moves next (R17): the model's own field (log 2). -/
  turn : Move
  /-- How many free values have been used: the model's own field (log 3). -/
  draws : Nat
  deriving DecidableEq, Repr

/-- The outcome of one step (R14). -/
abbrev Outcome := Host.Outcome State Fault Refusal

/-- The state after reset (R225): every value the spec gives, the latches and pads the draws of R23 and R24 (log 6), no
program loaded (log 7), the host to move first (log 2). -/
def State.reset : State where
  params := .defaults
  pins := Vector.ofFn fun p => { latch := Config.resetLatch p.val, ext := Config.resetExt p.val }
  spi := {}
  encs := []
  host := {}
  stop := none
  turn := .host
  draws := 0

end Sys2Proof.Machine
end

