-- ==== Sys2Proof/Machine/Operands.lean ====
section
/-! DEFINITION. Operand arithmetic: from a pin to its register and bit (R86, R93), the data words and masks the operations assemble
(R101), and the bit helpers they are written with. -/

namespace Sys2Proof.Machine

/-- The `n`-bit word whose bit `i` is `f i` (`v[i]` of R10). -/
def ofBits : (n : Nat) → (Nat → Bool) → BitVec n
  | 0, _ => 0#0
  | n + 1, f => BitVec.cons (f n) (ofBits n f)

/-- `valid(p) = p < 54` (R111). -/
abbrev validPin (pin : Word) : Prop := pin.toNat < 54

/-- The function-select register of a pin, `pin div 10` (R86). -/
def fselReg (pin : Word) : Fin 6 := Fin.ofNat 6 (pin.toNat / 10)

/-- The bit offset of a pin in its function-select register, `(pin mod 10) * 3` (R86). -/
def fselShift (pin : Word) : Nat := pin.toNat % 10 * 3

/-- The bank of a pin, `pin div 32` (R93). -/
def bankOf (pin : Word) : Fin 2 := Fin.ofNat 2 (pin.toNat / 32)

/-- The bit of a pin in its bank, `pin mod 32` (R93). -/
def bankBit (pin : Word) : Nat := pin.toNat % 32

/-- `1 << (pin mod 32)` (R101). -/
def pinMask (pin : Word) : Word := 1#32 <<< bankBit pin

/-- `(old & ~clr) | set`, the data word of a read-modify-write (R99, R101). -/
def merge (old clr set : Word) : Word := (old &&& ~~~clr) ||| set

/-- `0b111 << s`, the field SetPinMode clears (R101, R127). -/
def modeClear (pin : Word) : Word := 0b111#32 <<< fselShift pin

/-- `mode << s`, the field SetPinMode sets (R101, R127). -/
def modeSet (pin mode : Word) : Word := mode <<< fselShift pin

/-- Send16's first byte, `word[15:8]` (R101, R168). -/
def highByte (word : Half) : Byte := word.extractLsb' 8 8

/-- Send16's second byte, `word[7:0]` (R101, R168). -/
def lowByte (word : Half) : Byte := word.extractLsb' 0 8

/-- A byte as FIFO write data: `zext_32(byte)` (R167), at the place the layout gives the data byte (R94). -/
def fifoData (l : SpiLayout) (byte : Byte) : Word := byte.setWidth 32 <<< l.fifoData.val

/-- A divider as CLK write data: `zext_32(d)` (R164), at the place the layout gives CDIV (R94). -/
def clkData (l : SpiLayout) (d : Half) : Word := d.setWidth 32 <<< l.cdiv.val

/-- The mode code Input (R87). -/
def modeInput : Word := 0

/-- The mode code Output (R87). -/
def modeOutput : BitVec 3 := 0b001

/-- The word with this bit alone (`1 << k`, R10). -/
def bitMask (k : Fin 32) : Word := 1#32 <<< k.val

/-- A chip select in the chip-select field (R101). -/
def csField (c : CsPositions) (cs : Word) : Word := cs <<< c.cs.val

/-- `CS_MASK` (R90). -/
def csMask (c : CsPositions) : Word := csField c 0b11

/-- `CLEAR_BOTH` (R90). -/
def clearBoth (c : CsPositions) : Word := bitMask c.clearTx ||| bitMask c.clearRx

/-- `TA_BIT` (R90). -/
def taBit (c : CsPositions) : Word := bitMask c.ta

/-- The bits of `REFUSED_MASK` (R142): DMAEN, INTD, INTR, ADCS, LEN, LMONO, TE_EN, DMA_LEN, LEN_LONG. -/
def refusedBits (c : CsPositions) : List (Fin 32) :=
  [c.dmaen, c.intd, c.intr, c.adcs, c.len, c.lmono, c.teEn, c.dmaLen, c.lenLong]

end Sys2Proof.Machine
end

