-- ==== Sys2Proof/Machine/Flags.lean ====
section
/-! DEFINITION. The derived flags: the SPI0 status flags (R35) and the level of a pin (R26). -/

namespace Sys2Proof.Machine

/-- DONE (R35). -/
def Spi.done (s : Spi) : Bool := s.ta && s.txq.isEmpty && s.shift.isNone

/-- RXD (R35). -/
def Spi.rxd (s : Spi) : Bool := !s.rxq.isEmpty

/-- TXD (R35). -/
def Spi.txd (p : Params) (s : Spi) : Bool := decide (s.txq.length < p.fifoDepth)

/-- RXF (R35). -/
def Spi.rxf (p : Params) (s : Spi) : Bool := decide (s.rxq.length = p.fifoDepth)

/-- RXR (R35). -/
def Spi.rxr (p : Params) (s : Spi) : Bool := s.ta && decide (p.rxrThreshold ≤ s.rxq.length)

/-- `lev(p)`: an Output pin has its latch, any other the level the environment presents (R26, R25). -/
def Pin.lev (pin : Pin) : Bool := if pin.fsel = modeOutput then pin.latch else pin.ext

/-- Edge detection on a pin whose level was `before` (R119). -/
def Pin.detect (before : Bool) (pin : Pin) : Pin :=
  { pin with eds := pin.eds || (!before && pin.lev && pin.ren) || (before && !pin.lev && pin.fen) }

end Sys2Proof.Machine
end

