-- ==== Sys2Proof/Machine/Ops.lean ====
section
/-! DEFINITION. The named operations over the state: pins, the encoder table, free values, the host's progress, the
recording of a stop.  There is no exception entry: nothing traps (R205, R211), and a stop is terminal (R208). -/

namespace Sys2Proof.Machine

/-- Pin `p`'s state; a number that is no pin has the reset values (no rule reads it). -/
def pinAt (pins : Vector Pin 54) (p : Nat) : Pin := if h : p < 54 then pins[p] else {}

/-- Every pin changed by its own rule, which is given its number. -/
def mapPins (f : Nat → Pin → Pin) (pins : Vector Pin 54) : Vector Pin 54 := pins.mapIdx f

/-- Pin `p` of the state. -/
def State.pin (s : State) (p : Nat) : Pin := pinAt s.pins p

def State.setPins (s : State) (pins : Vector Pin 54) : State := { s with pins }

def State.setSpi (s : State) (spi : Spi) : State := { s with spi }

def State.setHost (s : State) (host : HostAgent) : State := { s with host }

def State.setTurn (s : State) (turn : Move) : State := { s with turn }

/-- The free value a `draw()` takes in this state (R14). -/
def State.drawn (s : State) : Word := Config.draw s.draws

/-- One more free value has been used. -/
def State.bump (s : State) : State := { s with draws := s.draws + 1 }

/-- The next agent to move, a free value (R17; log 2). -/
def State.redraw (s : State) : State := (s.setTurn (Config.move s.draws)).bump

/-- The next transaction of the item is number `pos`. -/
def State.setPos (s : State) (pos : Nat) : State := s.setHost { s.host with pos }

def State.setLocals (s : State) (locals : Locals) : State := s.setHost { s.host with locals }

/-- The item is complete: `H.ip` advances by exactly one (R21), the return value is kept (log 18), the local variables are gone. -/
def State.finish (s : State) (result : Option Ret) : State :=
  s.setHost { s.host with ip := s.host.ip + 1, pos := 0, locals := .start, result }

/-- Continue with the next state; a stop performs no further effect (R208). -/
def andThen (o : Outcome) (f : State → Outcome) : Outcome :=
  match o with
  | .next s => f s
  | .fault r => .fault r
  | .refused r => .refused r

/-- The entry of instance `k` in a table of encoders, or the uninitialised encoder (R39). -/
def encLookup (k : Nat) : List (Nat × Encoder) → Encoder
  | [] => .uninit
  | (j, e) :: rest => if j = k then e else encLookup k rest

/-- Set instance `k`, keeping the canonical form: ascending numbers, no uninitialised entry. -/
def encInsert (k : Nat) (e : Encoder) : List (Nat × Encoder) → List (Nat × Encoder)
  | [] => if e = .uninit then [] else [(k, e)]
  | (j, d) :: rest =>
    if k < j then (if e = .uninit then (j, d) :: rest else (k, e) :: (j, d) :: rest)
    else if k = j then (if e = .uninit then rest else (k, e) :: rest)
    else (j, d) :: encInsert k e rest

/-- The canonical form of the encoder table: ascending instance numbers from `lo` up, no uninitialised entry. -/
def encsWf : Nat → List (Nat × Encoder) → Bool
  | _, [] => true
  | lo, (j, e) :: rest => decide (lo ≤ j) && decide (e ≠ .uninit) && encsWf (j + 1) rest

/-- Encoder instance `e` (R39). -/
def State.enc (s : State) (e : Word) : Encoder := encLookup e.toNat s.encs

def State.setEnc (s : State) (e : Word) (d : Encoder) : State := { s with encs := encInsert e.toNat d s.encs }

/-- An environment step: pin `p`'s pad takes a level, then edge detection runs for `p` (R113, R119). -/
def padStep (p : Fin 54) (level : Bool) (s : State) : State :=
  s.setPins (mapPins (fun q pin => if q = p.val then Pin.detect pin.lev { pin with ext := level } else pin) s.pins)

/-- The CLEAR bits of a CS write empty the FIFOs (R142, R143). -/
def clearFifos (tx rx : Bool) (s : Spi) : Spi :=
  { s with txq := if tx then [] else s.txq, rxq := if rx then [] else s.rxq }

/-- The stopped state: the effects the raising step performed before the stop (a CS write clears the FIFOs before it
tests FT2, R142; Poll writes `E.raw` before it tests FT4, R195), then `H.stop` (R40, R208; log 9). -/
def State.recordStop (s : State) (r : Stop) : State :=
  match r with
  | .fault (.taClearedMidTransfer d _ _) =>
    { s.setSpi (clearFifos (d.getLsbD s.params.csBits.clearTx) (d.getLsbD s.params.csBits.clearRx) s.spi) with stop := some r }
  | .fault (.countOverflow e raw _ _) =>
    { s.setEnc e { s.enc e with raw := some raw } with stop := some r }
  | _ => { s with stop := some r }

/-- A recorded stop as an outcome (R14). -/
def Stop.outcome : Stop → Outcome
  | .fault f => .fault f
  | .refusal r => .refused r

end Sys2Proof.Machine
end

