-- ==== Sys2Proof/Machine/GpioRegisters.lean ====
section
/-! DEFINITION. The GPIO register rules (R114 to R125): each bit a read returns, given the word `x` of free bits for the
reserved positions (R29, R92), and what a write does to the pins.  `n` is the register or bank number. -/

namespace Sys2Proof.Machine

/-- Bit `i` of a `GPFSELn` read (R114). -/
def gpfselBit (n : Fin 6) (pins : Vector Pin 54) (x : Word) (i : Nat) : Bool :=
  if i < 30 ∧ 10 * n.val + i / 3 ≤ 53 then (pinAt pins (10 * n.val + i / 3)).fsel.getLsbD (i % 3) else x.getLsbD i

/-- Bit `b` of a banked register's read: `f` of pin `32n + b`, free where there is no pin (R93, R118, R120, R122, R124). -/
def bankReadBit (f : Pin → Bool) (n : Fin 2) (pins : Vector Pin 54) (x : Word) (b : Nat) : Bool :=
  if 32 * n.val + b ≤ 53 then f (pinAt pins (32 * n.val + b)) else x.getLsbD b

/-- Write `GPFSELn`: each of the ten fields, with edge detection (R115). -/
def writeGpfsel (n : Fin 6) (d : Word) (pins : Vector Pin 54) : Vector Pin 54 :=
  mapPins (fun p pin =>
    if p / 10 = n.val then Pin.detect pin.lev { pin with fsel := d.extractLsb' (p % 10 * 3) 3 } else pin) pins

/-- Write a banked register: `f` changes pin `32n + b` as bit `b` of the data says (R93); reserved bits are ignored. -/
def writeBank (f : Bool → Pin → Pin) (n : Fin 2) (d : Word) (pins : Vector Pin 54) : Vector Pin 54 :=
  mapPins (fun p pin => if p / 32 = n.val then f (d.getLsbD (p % 32)) pin else pin) pins

/-- One pin of a `GPSETn` write (R116). -/
def setLatch (bit : Bool) (pin : Pin) : Pin := if bit then Pin.detect pin.lev { pin with latch := true } else pin

/-- One pin of a `GPCLRn` write (R117). -/
def clrLatch (bit : Bool) (pin : Pin) : Pin := if bit then Pin.detect pin.lev { pin with latch := false } else pin

/-- One pin of a `GPEDSn` write: clear on write 1 (R121). -/
def clearEvent (bit : Bool) (pin : Pin) : Pin := if bit then { pin with eds := false } else pin

/-- One pin of a `GPRENn` write (R123). -/
def setRen (bit : Bool) (pin : Pin) : Pin := { pin with ren := bit }

/-- One pin of a `GPFENn` write (R125). -/
def setFen (bit : Bool) (pin : Pin) : Pin := { pin with fen := bit }

end Sys2Proof.Machine
end

