-- ==== Sys2Proof/Machine/SpiRegisters.lean ====
section
/-! DEFINITION. The SPI0 register rules (R141 to R149) and the shift engine (R150, R151).  The field positions are those of
the parameter `SPI0_LAYOUT`; at its default they are the bit numbers the rules write. -/

namespace Sys2Proof.Machine

/-- What a CS read returns in each position that a field has (R141): the stored fields, 0 in the CLEAR and the refused
positions, the status flags of this state (R35). -/
def csFields (p : Params) (s : Spi) : List (Nat × Bool) :=
  let c := p.csBits
  [(c.cs, s.cs.getLsbD 0), (c.cs + 1, s.cs.getLsbD 1), (c.cpha, s.cpha), (c.cpol, s.cpol),
   (c.clearTx, false), (c.clearRx, false), (c.cspol, s.cspol), (c.ta, s.ta),
   (c.dmaen, false), (c.intd, false), (c.intr, false), (c.adcs, false),
   (c.renb, s.renb), (c.len, false), (c.lmono, false), (c.teEn, false),
   (c.done, s.done), (c.rxd, s.rxd), (c.txd, s.txd p), (c.rxr, s.rxr p), (c.rxf, s.rxf p),
   (c.cspol0, s.cspol0), (c.cspol1, s.cspol1), (c.cspol2, s.cspol2), (c.dmaLen, false), (c.lenLong, false)]

/-- Bit `i` of a CS read (R141); `x` supplies the reserved bits (R96). -/
def csBit (p : Params) (s : Spi) (x : Word) (i : Nat) : Bool := ((csFields p s).lookup i).getD (x.getLsbD i)

/-- The fields a CS write stores (R142). -/
def storeCs (c : CsPositions) (d : Word) (s : Spi) : Spi :=
  { s with
    cs := d.extractLsb' c.cs 2, cpha := d.getLsbD c.cpha, cpol := d.getLsbD c.cpol, cspol := d.getLsbD c.cspol,
    ta := d.getLsbD c.ta, renb := d.getLsbD c.renb, cspol0 := d.getLsbD c.cspol0, cspol1 := d.getLsbD c.cspol1,
    cspol2 := d.getLsbD c.cspol2 }

/-- RF2: the chip-select field is 3 or a refused field is set (R142, R145). -/
abbrev csRefused (c : CsPositions) (d : Word) : Prop :=
  d.extractLsb' c.cs 2 = 3#2 ∨ ((refusedBits c).any fun i => d.getLsbD i) = true

/-- FT3: a CLEAR bit while a byte is in the shifter (R142). -/
abbrev csClearsShift (c : CsPositions) (d : Word) (s : Spi) : Prop :=
  (d.getLsbD c.clearTx = true ∨ d.getLsbD c.clearRx = true) ∧ s.shift ≠ none

/-- FT2: TA is cleared while a byte waits in the TX FIFO or the shifter (R142). -/
abbrev csAborts (c : CsPositions) (d : Word) (s : Spi) : Prop :=
  s.ta = true ∧ d.getLsbD c.ta = false ∧ (s.txq ≠ [] ∨ s.shift ≠ none)

/-- The FIFOs as a CS write leaves them (R142, R143). -/
def csCleared (c : CsPositions) (d : Word) (s : Spi) : Spi := clearFifos (d.getLsbD c.clearTx) (d.getLsbD c.clearRx) s

/-- Write `CS`: RF2, then FT3, then the clears, then FT2, then the stored fields (R142, R210). -/
def writeCs (d : Word) (s : State) : Outcome :=
  let c := s.params.csBits
  if csRefused c d then .refused (.outOfScopeField d)
  else if csClearsShift c d s.spi then .fault (.clearDuringShift d s.spi.shift)
  else if csAborts c d (csCleared c d s.spi) then
    .fault (.taClearedMidTransfer d (csCleared c d s.spi).txq.length (csCleared c d s.spi).shift)
  else .next (s.setSpi (storeCs c d (csCleared c d s.spi)))

/-- Bit `i` of a FIFO read: the front of the RX FIFO at the place of the data byte, everything else free (R146, R94). -/
def fifoBit (l : SpiLayout) (s : Spi) (x : Word) (i : Nat) : Bool :=
  match s.rxq with
  | [] => x.getLsbD i
  | b :: _ => if l.fifoData ≤ i ∧ i < l.fifoData + 8 then b.getLsbD (i - l.fifoData) else x.getLsbD i

/-- A FIFO read pops the byte it returns (R146). -/
def popRx (s : Spi) : Spi := { s with rxq := s.rxq.tail }

/-- The data byte of a FIFO write (R147, R94). -/
def fifoByte (l : SpiLayout) (d : Word) : Byte := d.extractLsb' l.fifoData 8

/-- Write `FIFO` (R147). -/
def writeFifo (d : Word) (s : State) : Outcome :=
  if s.spi.ta = false then .refused (.fifoWriteWhileIdle d)
  else if s.spi.txq.length = s.params.fifoDepth then .fault (.txOverflow (fifoByte s.params.spi0Layout d))
  else .next (s.setSpi { s.spi with txq := s.spi.txq ++ [fifoByte s.params.spi0Layout d] })

/-- Bit `i` of a CLK read (R149, R94). -/
def clkBit (l : SpiLayout) (s : Spi) (x : Word) (i : Nat) : Bool :=
  if l.cdiv ≤ i ∧ i < l.cdiv + 16 then s.cdiv.getLsbD (i - l.cdiv) else x.getLsbD i

/-- Write `CLK` (R148, R94). -/
def writeClk (l : SpiLayout) (d : Word) (s : Spi) : Spi := { s with cdiv := d.extractLsb' l.cdiv 16 }

/-- The load step is enabled (R150): `FIFO_DEPTH` room in the RX FIFO is asked for under `stall` only. -/
abbrev loadEnabled (p : Params) (s : Spi) : Prop :=
  s.ta = true ∧ s.shift = none ∧ s.txq ≠ [] ∧ (p.rxFullPolicy = .stall → s.rxq.length < p.fifoDepth)

/-- The load step: the next byte enters the shifter with the chip select in force (R150, R155). -/
def engineLoad (s : Spi) : Spi :=
  match s.txq with
  | [] => s
  | b :: q => { s with txq := q, shift := some (b, s.cs) }

/-- The complete step: the exchange is recorded, and the answer received if there is room (R151). -/
def engineComplete (p : Params) (b : Byte) (c : BitVec 2) (miso : Byte) (s : Spi) : Spi :=
  { s with
    wire := s.wire ++ [(c, b, miso)]
    rxq := if s.rxq.length < p.fifoDepth then s.rxq ++ [miso] else s.rxq
    shift := none }

/-- The engine's step on the controller: complete, or load if enabled, or nothing (R150, R151; log 2). -/
def engineSpi (p : Params) (miso : Byte) (s : Spi) : Spi :=
  match s.shift with
  | some (b, c) => engineComplete p b c miso s
  | none => if loadEnabled p s then engineLoad s else s

/-- The engine's step (R16). -/
def engineStep (miso : Byte) (s : State) : State := s.setSpi (engineSpi s.params miso s.spi)

/-- One of the engine's steps is enabled (R17, R150, R151). -/
abbrev engineEnabled (s : State) : Prop := s.spi.shift ≠ none ∨ loadEnabled s.params s.spi

end Sys2Proof.Machine
end

