-- ==== Sys2Proof/Machine/Bus.lean ====
section
/-! DEFINITION. Level-1 transactions on the registers of R88 and R89, each one indivisible step (R63). -/

namespace Sys2Proof.Machine

/-- The readable registers (R88, R89). -/
inductive Src
  | gpfsel (n : Fin 6)
  | gplev (n : Fin 2)
  | gpeds (n : Fin 2)
  | gpren (n : Fin 2)
  | gpfen (n : Fin 2)
  | cs
  | fifo
  | clk
  deriving DecidableEq, Repr

/-- The writable registers (R88, R89). -/
inductive Dst
  | gpfsel (n : Fin 6)
  | gpset (n : Fin 2)
  | gpclr (n : Fin 2)
  | gpeds (n : Fin 2)
  | gpren (n : Fin 2)
  | gpfen (n : Fin 2)
  | cs
  | fifo
  | clk
  deriving DecidableEq, Repr

/-- The address of a readable register (R88, R89). -/
def Src.addr (p : Params) : Src → Word
  | .gpfsel n => gpioAddr p.gpioOffsets.gpfsel[n]
  | .gplev n => gpioAddr p.gpioOffsets.gplev[n]
  | .gpeds n => gpioAddr p.gpioOffsets.gpeds[n]
  | .gpren n => gpioAddr p.gpioOffsets.gpren[n]
  | .gpfen n => gpioAddr p.gpioOffsets.gpfen[n]
  | .cs => spiAddr p.spi0Layout.csOffset
  | .fifo => spiAddr p.spi0Layout.fifoOffset
  | .clk => spiAddr p.spi0Layout.clkOffset

/-- The address of a writable register (R88, R89). -/
def Dst.addr (p : Params) : Dst → Word
  | .gpfsel n => gpioAddr p.gpioOffsets.gpfsel[n]
  | .gpset n => gpioAddr p.gpioOffsets.gpset[n]
  | .gpclr n => gpioAddr p.gpioOffsets.gpclr[n]
  | .gpeds n => gpioAddr p.gpioOffsets.gpeds[n]
  | .gpren n => gpioAddr p.gpioOffsets.gpren[n]
  | .gpfen n => gpioAddr p.gpioOffsets.gpfen[n]
  | .cs => spiAddr p.spi0Layout.csOffset
  | .fifo => spiAddr p.spi0Layout.fifoOffset
  | .clk => spiAddr p.spi0Layout.clkOffset

/-- Bit `i` of the value a read returns, `x` supplying the bits the rules leave free (R63, R29, R146). -/
def regBit (r : Src) (s : State) (x : Word) (i : Nat) : Bool :=
  match r with
  | .gpfsel n => gpfselBit n s.pins x i
  | .gplev n => bankReadBit Pin.lev n s.pins x i
  | .gpeds n => bankReadBit Pin.eds n s.pins x i
  | .gpren n => bankReadBit Pin.ren n s.pins x i
  | .gpfen n => bankReadBit Pin.fen n s.pins x i
  | .cs => csBit s.params s.spi x i
  | .fifo => fifoBit s.params.spi0Layout s.spi x i
  | .clk => clkBit s.params.spi0Layout s.spi x i

/-- Bit `i` of `MemRead`'s value in this state (R10, R12). -/
def State.readBit (s : State) (r : Src) (i : Nat) : Bool := regBit r s s.drawn i

/-- `MemRead`'s value in this state (R12, R63). -/
def State.readReg (s : State) (r : Src) : Word := ofBits 32 (s.readBit r)

/-- The data byte of a FIFO read's value, `MemRead(FIFO)[7:0]` (R146, R94). -/
def State.readByte (s : State) : Byte := ofBits 8 fun i => s.readBit .fifo (s.params.spi0Layout.fifoData + i)

/-- `MemRead`'s effect: the FIFO read alone has one (R68); a free value is used (log 3). -/
def State.afterRead (s : State) (r : Src) : State :=
  match r with
  | .fifo => (s.setSpi (popRx s.spi)).bump
  | _ => s.bump

/-- `MemWrite` (R12, R63, R69). -/
def writeReg (r : Dst) (d : Word) (s : State) : Outcome :=
  match r with
  | .gpfsel n => .next (s.setPins (writeGpfsel n d s.pins))
  | .gpset n => .next (s.setPins (writeBank setLatch n d s.pins))
  | .gpclr n => .next (s.setPins (writeBank clrLatch n d s.pins))
  | .gpeds n => .next (s.setPins (writeBank clearEvent n d s.pins))
  | .gpren n => .next (s.setPins (writeBank setRen n d s.pins))
  | .gpfen n => .next (s.setPins (writeBank setFen n d s.pins))
  | .cs => writeCs d s
  | .fifo => writeFifo d s
  | .clk => .next (s.setSpi (writeClk s.params.spi0Layout d s.spi))

/-- A program's `ld32`: one read, whose value is the item's result (R98, R21). -/
def loadItem (r : Src) (s : State) : Outcome := .next ((s.afterRead r).finish (some (.word (s.readReg r))))

/-- A program's `st32`: one write (R98, R21). -/
def storeItem (r : Dst) (d : Word) (s : State) : Outcome :=
  andThen (writeReg r d s) fun t => .next (t.finish none)

end Sys2Proof.Machine
end

