-- ==== Sys2Proof/Machine/Script.lean ====
section
/-! DEFINITION. A level-2 operation as a sequence of transactions, one a step (R13, R65, R126, R160).  `HostAgent.pos` says
which transaction comes next, `HostAgent.locals` holds the operation's local variables (log 1). -/

namespace Sys2Proof.Machine

/-- The condition of a busy-wait on CS (R160). -/
inductive WaitFor
  /-- `v & TXD_BIT != 0` (R167). -/
  | txReady
  /-- `v & DONE_BIT != 0` (R170). -/
  | done
  /-- `(v & TA_BIT) == 0 or (v & DONE_BIT) != 0` (R169). -/
  | idleOrDone
  deriving DecidableEq, Repr

/-- The condition on the value a CS read returns, `bit` giving its bits (R90). -/
def WaitFor.holds (c : WaitFor) (pos : CsPositions) (bit : Nat → Bool) : Bool :=
  match c with
  | .txReady => bit pos.txd
  | .done => bit pos.done
  | .idleOrDone => !bit pos.ta || bit pos.done

/-- One transaction of an operation and what it does with its value. -/
inductive Act
  /-- `v <- MemRead(r)`. -/
  | load (r : Src)
  /-- `MemWrite(r, (v & ~clr) | set)`, the second half of a read-modify-write (R99). -/
  | modify (r : Dst) (clr set : Word)
  /-- `MemWrite(r, d)`. -/
  | store (r : Dst) (d : Word)
  /-- One test of `repeat v <- MemRead(CS) until c(v)` (R160): the wait does not advance while `c` is false. -/
  | wait (c : WaitFor)
  /-- `r <- MemRead(FIFO)[7:0]` (R170). -/
  | take
  deriving DecidableEq, Repr

/-- The operation goes on to its next transaction. -/
def State.advance (s : State) : State := s.setPos (s.host.pos + 1)

/-- `v <- MemRead(r)`: the state after the read, with `v` set. -/
def State.readInto (s : State) (r : Src) : State := (s.afterRead r).setLocals { s.host.locals with v := s.readReg r }

/-- One transaction (R13).  R126 has an operation's transactions name registers.
DESIGN CHOICE (log 26), unsafe outside `Params.wf`: they reach the register they name, by its name.  In well-formed tables
that is the register its address selects (R88, R89); in tables that give two registers one address, or a register a
misaligned one, the spec does not say what an operation reaches, and the model neither selects a row nor refuses RF1.  The
transactions of `execEventDetected`, `execBufferTransfer` and `execQdecPoll` do the same. -/
def doAct (act : Act) (s : State) : Outcome :=
  match act with
  | .load r => .next (s.readInto r).advance
  | .modify r clr set => andThen (writeReg r (merge s.host.locals.v clr set) s) fun t => .next t.advance
  | .store r d => andThen (writeReg r d s) fun t => .next t.advance
  | .wait c => if c.holds s.params.csBits (s.readBit .cs) then .next (s.readInto .cs).advance else .next (s.readInto .cs)
  | .take => .next ((s.afterRead .fifo).setLocals { s.host.locals with r := s.readByte }).advance

/-- One step of an operation whose transactions are `acts`; after the last one `fin` completes it in the same step, as
pure computation takes no step of its own (R13).  An operation with no transaction completes at once. -/
def runScript (acts : List Act) (fin : State → Outcome) (s : State) : Outcome :=
  match acts[s.host.pos]? with
  | none => fin s
  | some act => andThen (doAct act s) fun t => if t.host.pos < acts.length then .next t else fin t

/-- The operation returns without a value. -/
def finishPlain (s : State) : Outcome := .next (s.finish none)

/-- `CS <- CS | m` (R160). -/
def orCs (m : Word) : List Act := [.load .cs, .modify .cs 0 m]

/-- `CS <- CS & ~m` (R160). -/
def andNotCs (m : Word) : List Act := [.load .cs, .modify .cs m 0]

end Sys2Proof.Machine
end

