-- ==== Sys2Proof/Machine/GpioOperations.lean ====
section
/-! DEFINITION. The meanings of the GPIO driver operations (R127 to R131).  Each call is ONE transaction of the operation, the
one `HostAgent.pos` says comes next (R13, R65); an operation with nothing to transact returns at once (R111, R126). -/

namespace Sys2Proof.Machine

/-- SetPinMode's transactions (R127): none for an invalid pin or mode. -/
def setPinModeActs (pin mode : Word) : List Act :=
  if validPin pin ∧ mode.toNat ≤ 7 then
    [.load (.gpfsel (fselReg pin)), .modify (.gpfsel (fselReg pin)) (modeClear pin) (modeSet pin mode)]
  else []

/-- `SetPinMode` (R127). -/
def execSetPinMode (pin mode : Word) (s : State) : Outcome := runScript (setPinModeActs pin mode) finishPlain s

/-- WritePin's transaction (R128): the SET register for a nonzero value, else the CLEAR register. -/
def writePinActs (pin value : Word) : List Act :=
  if validPin pin then
    [.store (if value ≠ 0 then .gpset (bankOf pin) else .gpclr (bankOf pin)) (pinMask pin)]
  else []

/-- `WritePin` (R128). -/
def execWritePin (pin value : Word) (s : State) : Outcome := runScript (writePinActs pin value) finishPlain s

/-- The level ReadPin returns for a valid pin in this state, `(v >> b) & 1` (R129). -/
def State.readPinLevel (s : State) (pin : Word) : Bool := s.readBit (.gplev (bankOf pin)) (bankBit pin)

/-- `ReadPin` (R129): Low, without a transaction, for an invalid pin. -/
def execReadPin (pin : Word) (s : State) : Outcome :=
  if validPin pin then .next ((s.afterRead (.gplev (bankOf pin))).finish (some (.bit (s.readPinLevel pin))))
  else .next (s.finish (some (.bit false)))

/-- The edge sets the rising-edge enable (R130). -/
def edgeRises (edge : Edge) : Bool :=
  match edge with
  | .rising => true
  | .falling => false
  | .changing => true
  | .noEdge => false

/-- The edge sets the falling-edge enable (R130). -/
def edgeFalls (edge : Edge) : Bool :=
  match edge with
  | .rising => false
  | .falling => true
  | .changing => true
  | .noEdge => false

/-- The write half of `r | m` or `r & ~m` (R130). -/
def enableAct (r : Dst) (on : Bool) (m : Word) : Act := if on then .modify r 0 m else .modify r m 0

/-- EnableEdgeDetect's transactions (R130), the rising register first. -/
def enableEdgeActs (pin : Word) (edge : Edge) : List Act :=
  if validPin pin then
    [.load (.gpren (bankOf pin)), enableAct (.gpren (bankOf pin)) (edgeRises edge) (pinMask pin),
     .load (.gpfen (bankOf pin)), enableAct (.gpfen (bankOf pin)) (edgeFalls edge) (pinMask pin)]
  else []

/-- `EnableEdgeDetect` (R130). -/
def execEnableEdgeDetect (pin : Word) (edge : Edge) (s : State) : Outcome :=
  runScript (enableEdgeActs pin edge) finishPlain s

/-- EventDetected returns. -/
def finishFlag (detected : Bool) (s : State) : Outcome := .next (s.finish (some (.flag detected)))

/-- EventDetected's clearing write, after which it returns true (R131). -/
def eventClear (pin d : Word) (s : State) : Outcome :=
  andThen (writeReg (.gpeds (bankOf pin)) d s) (finishFlag true)

/-- `EventDetected` (R131): transaction 0 is the first read; under `or_rmw` 1 is the second read and 2 the write, under
`direct_write` 1 is the write. -/
def execEventDetected (pin : Word) (s : State) : Outcome :=
  if validPin pin then
    match s.host.pos with
    | 0 =>
      if s.readBit (.gpeds (bankOf pin)) (bankBit pin) then .next (s.readInto (.gpeds (bankOf pin))).advance
      else finishFlag false (s.readInto (.gpeds (bankOf pin)))
    | 1 =>
      match s.params.edsClearStyle with
      | .orRmw => .next (s.readInto (.gpeds (bankOf pin))).advance
      | .directWrite => eventClear pin (pinMask pin) s
    | _ => eventClear pin (s.host.locals.v ||| pinMask pin) s
  else finishFlag false s

end Sys2Proof.Machine
end

