-- ==== Sys2Proof/Machine/GpioTransactions.lean ====
section
/-! DEFINITION. The meanings of the GPIO register transactions (R114 to R125): one access at the address in the name, then the item is complete (R21). -/

namespace Sys2Proof.Machine

/-- `LD_GPFSEL0` (R114). -/
def execLdGpfsel0 (s : State) : Outcome := loadItem (.gpfsel 0) s

/-- `ST_GPFSEL0` (R115). -/
def execStGpfsel0 (data : Word) (s : State) : Outcome := storeItem (.gpfsel 0) data s

/-- `LD_GPFSEL1` (R114). -/
def execLdGpfsel1 (s : State) : Outcome := loadItem (.gpfsel 1) s

/-- `ST_GPFSEL1` (R115). -/
def execStGpfsel1 (data : Word) (s : State) : Outcome := storeItem (.gpfsel 1) data s

/-- `LD_GPFSEL2` (R114). -/
def execLdGpfsel2 (s : State) : Outcome := loadItem (.gpfsel 2) s

/-- `ST_GPFSEL2` (R115). -/
def execStGpfsel2 (data : Word) (s : State) : Outcome := storeItem (.gpfsel 2) data s

/-- `LD_GPFSEL3` (R114). -/
def execLdGpfsel3 (s : State) : Outcome := loadItem (.gpfsel 3) s

/-- `ST_GPFSEL3` (R115). -/
def execStGpfsel3 (data : Word) (s : State) : Outcome := storeItem (.gpfsel 3) data s

/-- `LD_GPFSEL4` (R114). -/
def execLdGpfsel4 (s : State) : Outcome := loadItem (.gpfsel 4) s

/-- `ST_GPFSEL4` (R115). -/
def execStGpfsel4 (data : Word) (s : State) : Outcome := storeItem (.gpfsel 4) data s

/-- `LD_GPFSEL5` (R114). -/
def execLdGpfsel5 (s : State) : Outcome := loadItem (.gpfsel 5) s

/-- `ST_GPFSEL5` (R115). -/
def execStGpfsel5 (data : Word) (s : State) : Outcome := storeItem (.gpfsel 5) data s

/-- `ST_GPSET0` (R116). -/
def execStGpset0 (data : Word) (s : State) : Outcome := storeItem (.gpset 0) data s

/-- `ST_GPSET1` (R116). -/
def execStGpset1 (data : Word) (s : State) : Outcome := storeItem (.gpset 1) data s

/-- `ST_GPCLR0` (R117). -/
def execStGpclr0 (data : Word) (s : State) : Outcome := storeItem (.gpclr 0) data s

/-- `ST_GPCLR1` (R117). -/
def execStGpclr1 (data : Word) (s : State) : Outcome := storeItem (.gpclr 1) data s

/-- `LD_GPLEV0` (R118). -/
def execLdGplev0 (s : State) : Outcome := loadItem (.gplev 0) s

/-- `LD_GPLEV1` (R118). -/
def execLdGplev1 (s : State) : Outcome := loadItem (.gplev 1) s

/-- `LD_GPEDS0` (R120). -/
def execLdGpeds0 (s : State) : Outcome := loadItem (.gpeds 0) s

/-- `ST_GPEDS0` (R121). -/
def execStGpeds0 (data : Word) (s : State) : Outcome := storeItem (.gpeds 0) data s

/-- `LD_GPEDS1` (R120). -/
def execLdGpeds1 (s : State) : Outcome := loadItem (.gpeds 1) s

/-- `ST_GPEDS1` (R121). -/
def execStGpeds1 (data : Word) (s : State) : Outcome := storeItem (.gpeds 1) data s

/-- `LD_GPREN0` (R122). -/
def execLdGpren0 (s : State) : Outcome := loadItem (.gpren 0) s

/-- `ST_GPREN0` (R123). -/
def execStGpren0 (data : Word) (s : State) : Outcome := storeItem (.gpren 0) data s

/-- `LD_GPREN1` (R122). -/
def execLdGpren1 (s : State) : Outcome := loadItem (.gpren 1) s

/-- `ST_GPREN1` (R123). -/
def execStGpren1 (data : Word) (s : State) : Outcome := storeItem (.gpren 1) data s

/-- `LD_GPFEN0` (R124). -/
def execLdGpfen0 (s : State) : Outcome := loadItem (.gpfen 0) s

/-- `ST_GPFEN0` (R125). -/
def execStGpfen0 (data : Word) (s : State) : Outcome := storeItem (.gpfen 0) data s

/-- `LD_GPFEN1` (R124). -/
def execLdGpfen1 (s : State) : Outcome := loadItem (.gpfen 1) s

/-- `ST_GPFEN1` (R125). -/
def execStGpfen1 (data : Word) (s : State) : Outcome := storeItem (.gpfen 1) data s

end Sys2Proof.Machine
end

