-- ==== Sys2Proof/Machine/Quadrature.lean ====
section
/-! DEFINITION. The quadrature decoder (R190 to R195): Initialize and Poll, one transaction a call (R13, R65). -/

namespace Sys2Proof.Machine

/-- The transition table `T`, indexed by the raw value {previous A, previous B, current A, current B} (R191, R192). -/
def transition (raw : BitVec 4) : Int :=
  match raw.toNat with
  | 0 => 0
  | 1 => 1
  | 2 => -1
  | 3 => 0
  | 4 => -1
  | 5 => 0
  | 6 => 0
  | 7 => 1
  | 8 => 1
  | 9 => 0
  | 10 => 0
  | 11 => -1
  | 12 => 0
  | 13 => -1
  | 14 => 1
  | _ => 0

/-- `((E.raw << 2) | (a << 1) | b) & 0b1111` (R195). -/
def nextRaw (raw : BitVec 4) (a b : Bool) : BitVec 4 :=
  raw.extractLsb' 0 2 ++ (BitVec.ofBool a ++ BitVec.ofBool b)

/-- Initialize fixes the encoder's pins before its first transaction (R194). -/
def State.setEncPins (s : State) (e pinA pinB : Word) : State := s.setEnc e { s.enc e with pinA, pinB }

/-- Initialize ends: the raw state and the count are zero (R194). -/
def finishInit (e pinA pinB : Word) (s : State) : Outcome :=
  .next ((s.setEnc e { pinA, pinB, raw := some 0, count := some 0 }).finish none)

/-- `QDEC_Initialize` (R194): SetPinMode(pinA, Input), then SetPinMode(pinB, Input). -/
def execQdecInitialize (encoder pinA pinB : Word) (s : State) : Outcome :=
  runScript (setPinModeActs pinA modeInput ++ setPinModeActs pinB modeInput) (finishInit encoder pinA pinB)
    (if s.host.pos = 0 then s.setEncPins encoder pinA pinB else s)

/-- Poll ends with both samples (R195): the raw value shifts, the exact sum is tested, the count is stored. -/
def finishPoll (e : Word) (raw : BitVec 4) (count : BitVec 32) (a b : Bool) (s : State) : Outcome :=
  let raw' := nextRaw raw a b
  let c := count.toInt + transition raw'
  if c < -2 ^ 31 ∨ 2 ^ 31 - 1 < c then .fault (.countOverflow e raw' count (transition raw'))
  else .next ((s.setEnc e { s.enc e with raw := some raw', count := some (BitVec.ofInt 32 c) }).finish none)

/-- The sample of ReadPin in this state (R129): 0 for an invalid pin. -/
def State.sample (s : State) (pin : Word) : Bool := decide (validPin pin) && s.readPinLevel pin

/-- The state after ReadPin's transaction, if it has one (R129, R111). -/
def State.afterSample (s : State) (pin : Word) : State :=
  if validPin pin then s.afterRead (.gplev (bankOf pin)) else s

/-- `QDEC_Poll` (R195): transaction 0 samples A, transaction 1 samples B.  A ReadPin of an invalid pin has no
transaction, so its sample is taken in the same step as the other.
DESIGN CHOICE (log 25), safe but for claims about that case itself: with pinA = pinB, R194 says that A and B are equal at
every poll, but R195 reads the pin in two transactions, between which the environment may change it (R65, R113); the model
follows R195, so they can differ. -/
def execQdecPoll (encoder : Word) (s : State) : Outcome :=
  match (s.enc encoder).raw, (s.enc encoder).count with
  | some raw, some count =>
    let pinA := (s.enc encoder).pinA
    let pinB := (s.enc encoder).pinB
    if s.host.pos = 0 then
      if validPin pinA ∧ validPin pinB then
        .next ((s.afterSample pinA).setLocals { s.host.locals with a := s.sample pinA }).advance
      else finishPoll encoder raw count (s.sample pinA) (s.sample pinB) ((s.afterSample pinA).afterSample pinB)
    else finishPoll encoder raw count s.host.locals.a (s.sample pinB) (s.afterSample pinB)
  | _, _ => .refused (.qdecUninitialised encoder)

end Sys2Proof.Machine
end

