-- ==== Sys2Proof/Machine/SpiOperations.lean ====
section
/-! DEFINITION. The meanings of the SPI0 driver operations (R162 to R171), one transaction a call (R13, R65, R160). -/

namespace Sys2Proof.Machine

/-- Start's transactions (R162): claim the pins, zero CS, clear both FIFOs, select chip 0. -/
def startActs (p : Params) : List Act :=
  p.spi0Pins.flatMap (fun pin => setPinModeActs pin p.spi0PinMode)
    ++ .store .cs 0 :: (orCs (clearBoth p.csBits) ++ andNotCs (csMask p.csBits))

/-- `SPI0_Start` (R162). -/
def execSpiStart (s : State) : Outcome := runScript (startActs s.params) finishPlain s

/-- End's transactions (R163): the pins back to Input. -/
def endActs (p : Params) : List Act := p.spi0Pins.flatMap fun pin => setPinModeActs pin modeInput

/-- `SPI0_End` (R163). -/
def execSpiEnd (s : State) : Outcome := runScript (endActs s.params) finishPlain s

/-- `SetClockDivider` (R164); a wider argument is refused where the item is decoded. -/
def execSetClockDivider (d : Half) (s : State) : Outcome :=
  runScript [.store .clk (clkData s.params.spi0Layout d)] finishPlain s

/-- `SetChipSelect` (R165): RF4 for cs above 1. -/
def execSetChipSelect (cs : Word) (s : State) : Outcome :=
  if 1 < cs.toNat then .refused (.badArgument 0x13 cs)
  else runScript [.load .cs, .modify .cs (csMask s.params.csBits) (csField s.params.csBits cs)] finishPlain s

/-- BeginTransfer's transactions (R166). -/
def beginActs (p : Params) : List Act := orCs (clearBoth p.csBits) ++ orCs (taBit p.csBits)

/-- `BeginTransfer` (R166). -/
def execBeginTransfer (s : State) : Outcome := runScript (beginActs s.params) finishPlain s

/-- Send's transactions (R167). -/
def sendActs (p : Params) (byte : Byte) : List Act := [.wait .txReady, .store .fifo (fifoData p.spi0Layout byte)]

/-- `Send` (R167). -/
def execSend (byte : Byte) (s : State) : Outcome := runScript (sendActs s.params byte) finishPlain s

/-- Send16's transactions (R168): one wait, high byte first. -/
def send16Acts (p : Params) (word : Half) : List Act :=
  [.wait .txReady, .store .fifo (fifoData p.spi0Layout (highByte word)),
   .store .fifo (fifoData p.spi0Layout (lowByte word))]

/-- `Send16` (R168). -/
def execSend16 (word : Half) (s : State) : Outcome := runScript (send16Acts s.params word) finishPlain s

/-- EndTransfer's transactions (R169). -/
def endTransferActs (p : Params) : List Act := .wait .idleOrDone :: andNotCs (taBit p.csBits)

/-- `EndTransfer` (R169). -/
def execEndTransfer (s : State) : Outcome := runScript (endTransferActs s.params) finishPlain s

/-- TransferByte's transactions (R170). -/
def transferByteActs (p : Params) (val : Byte) : List Act :=
  orCs (clearBoth p.csBits) ++ orCs (taBit p.csBits)
    ++ .wait .txReady :: .store .fifo (fifoData p.spi0Layout val) :: .wait .done :: .take :: andNotCs (taBit p.csBits)

/-- TransferByte returns the byte it took (R170). -/
def finishByte (s : State) : Outcome := .next (s.finish (some (.byte s.host.locals.r)))

/-- `TransferByte` (R170). -/
def execTransferByte (val : Byte) (s : State) : Outcome := runScript (transferByteActs s.params val) finishByte s

/-- Where BufferTransfer goes at its TX loop test (R171): to the test's CS read (2) while bytes remain, else to the RX
loop test's read (4) while slots remain, else to the DONE wait (6).  A counter test that fails reads nothing. -/
def atTxTest (n t r : Nat) : Nat := if t < n then 2 else if r < n then 4 else 6

/-- Where BufferTransfer goes at its RX loop test (R171): the TX test comes again when the RX loop ends. -/
def atRxTest (n t r : Nat) : Nat := if r < n then 4 else if t < n then 2 else 6

/-- The next transaction after the TX loop test or write. -/
def State.toTxTest (n : Word) (s : State) : State :=
  s.setPos (atTxTest n.toNat s.host.locals.t s.host.locals.rxBuf.length)

/-- The next transaction after the RX loop test or read. -/
def State.toRxTest (n : Word) (s : State) : State :=
  s.setPos (atRxTest n.toNat s.host.locals.t s.host.locals.rxBuf.length)

/-- BufferTransfer's transactions 0 and 1: Transfer Active is asserted, with no FIFO clear; both counters start at 0. -/
def bufferBegin (n : Word) (s : State) : Outcome :=
  andThen (writeReg .cs (merge s.host.locals.v 0 (taBit s.params.csBits)) s) fun t =>
    .next ((t.setLocals { s.host.locals with t := 0, rxBuf := [] }).toTxTest n)

/-- Transaction 2: the CS read of the TX loop test (R90). -/
def bufferTxTest (n : Word) (s : State) : Outcome :=
  if s.readBit .cs s.params.csBits.txd then .next ((s.readInto .cs).setPos 3)
  else .next ((s.readInto .cs).toRxTest n)

/-- Transaction 3: the FIFO write of `txBuf[t]`. -/
def bufferTxWrite (txBuf : List Byte) (n : Word) (s : State) : Outcome :=
  match txBuf[s.host.locals.t]? with
  | some b =>
    andThen (writeReg .fifo (fifoData s.params.spi0Layout b) s) fun t =>
      .next ((t.setLocals { s.host.locals with t := s.host.locals.t + 1 }).toTxTest n)
  | none => .next (s.toTxTest n)

/-- Transaction 4: the CS read of the RX loop test (R90). -/
def bufferRxTest (n : Word) (s : State) : Outcome :=
  if s.readBit .cs s.params.csBits.rxd then .next ((s.readInto .cs).setPos 5)
  else .next ((s.readInto .cs).toTxTest n)

/-- Transaction 5: the FIFO read into `rxBuf[r]`. -/
def bufferRxTake (n : Word) (s : State) : Outcome :=
  .next (((s.afterRead .fifo).setLocals
    { s.host.locals with rxBuf := s.host.locals.rxBuf ++ [s.readByte] }).toRxTest n)

/-- Transaction 8: Transfer Active is cleared and rxBuf returned. -/
def bufferEnd (s : State) : Outcome :=
  andThen (writeReg .cs (merge s.host.locals.v (taBit s.params.csBits) 0) s) fun t =>
    .next (t.finish (some (.bytes s.host.locals.rxBuf)))

/-- `BufferTransfer` (R171): RF4 on a length mismatch, then the transactions above; 6 is the DONE wait, 7 the last CS read. -/
def execBufferTransfer (txBuf : List Byte) (n : Word) (s : State) : Outcome :=
  if txBuf.length ≠ n.toNat then .refused (.badArgument 0x19 n)
  else
    match s.host.pos with
    | 0 => doAct (.load .cs) s
    | 1 => bufferBegin n s
    | 2 => bufferTxTest n s
    | 3 => bufferTxWrite txBuf n s
    | 4 => bufferRxTest n s
    | 5 => bufferRxTake n s
    | 6 => doAct (.wait .done) s
    | 7 => doAct (.load .cs) s
    | _ => bufferEnd s

end Sys2Proof.Machine
end

