-- ==== Sys2Proof/Machine/SpiTransactions.lean ====
section
/-! DEFINITION. The meanings of the SPI0 register transactions (R141 to R149). -/

namespace Sys2Proof.Machine

/-- `LD_SPI0_CS` (R141). -/
def execLdSpiCs (s : State) : Outcome := loadItem .cs s

/-- `ST_SPI0_CS` (R142). -/
def execStSpiCs (data : Word) (s : State) : Outcome := storeItem .cs data s

/-- `LD_SPI0_FIFO` (R146). -/
def execLdSpiFifo (s : State) : Outcome := loadItem .fifo s

/-- `ST_SPI0_FIFO` (R147). -/
def execStSpiFifo (data : Word) (s : State) : Outcome := storeItem .fifo data s

/-- `LD_SPI0_CLK` (R149). -/
def execLdSpiClk (s : State) : Outcome := loadItem .clk s

/-- `ST_SPI0_CLK` (R148). -/
def execStSpiClk (data : Word) (s : State) : Outcome := storeItem .clk data s

end Sys2Proof.Machine
end

