-- ==== Sys2Proof/Machine/Dispatch.lean ====
section
/-! DEFINITION. What each instruction does in one host step: one arm per constructor of Instr. -/

namespace Sys2Proof.Machine

def exec (i : Instr) (s : State) : Host.Outcome State Fault Refusal :=
  match i with
  | .ldGpfsel0 => Sys2Proof.Machine.execLdGpfsel0 s
  | .stGpfsel0 data => Sys2Proof.Machine.execStGpfsel0 data s
  | .ldGpfsel1 => Sys2Proof.Machine.execLdGpfsel1 s
  | .stGpfsel1 data => Sys2Proof.Machine.execStGpfsel1 data s
  | .ldGpfsel2 => Sys2Proof.Machine.execLdGpfsel2 s
  | .stGpfsel2 data => Sys2Proof.Machine.execStGpfsel2 data s
  | .ldGpfsel3 => Sys2Proof.Machine.execLdGpfsel3 s
  | .stGpfsel3 data => Sys2Proof.Machine.execStGpfsel3 data s
  | .ldGpfsel4 => Sys2Proof.Machine.execLdGpfsel4 s
  | .stGpfsel4 data => Sys2Proof.Machine.execStGpfsel4 data s
  | .ldGpfsel5 => Sys2Proof.Machine.execLdGpfsel5 s
  | .stGpfsel5 data => Sys2Proof.Machine.execStGpfsel5 data s
  | .stGpset0 data => Sys2Proof.Machine.execStGpset0 data s
  | .stGpset1 data => Sys2Proof.Machine.execStGpset1 data s
  | .stGpclr0 data => Sys2Proof.Machine.execStGpclr0 data s
  | .stGpclr1 data => Sys2Proof.Machine.execStGpclr1 data s
  | .ldGplev0 => Sys2Proof.Machine.execLdGplev0 s
  | .ldGplev1 => Sys2Proof.Machine.execLdGplev1 s
  | .ldGpeds0 => Sys2Proof.Machine.execLdGpeds0 s
  | .stGpeds0 data => Sys2Proof.Machine.execStGpeds0 data s
  | .ldGpeds1 => Sys2Proof.Machine.execLdGpeds1 s
  | .stGpeds1 data => Sys2Proof.Machine.execStGpeds1 data s
  | .ldGpren0 => Sys2Proof.Machine.execLdGpren0 s
  | .stGpren0 data => Sys2Proof.Machine.execStGpren0 data s
  | .ldGpren1 => Sys2Proof.Machine.execLdGpren1 s
  | .stGpren1 data => Sys2Proof.Machine.execStGpren1 data s
  | .ldGpfen0 => Sys2Proof.Machine.execLdGpfen0 s
  | .stGpfen0 data => Sys2Proof.Machine.execStGpfen0 data s
  | .ldGpfen1 => Sys2Proof.Machine.execLdGpfen1 s
  | .stGpfen1 data => Sys2Proof.Machine.execStGpfen1 data s
  | .ldSpiCs => Sys2Proof.Machine.execLdSpiCs s
  | .stSpiCs data => Sys2Proof.Machine.execStSpiCs data s
  | .ldSpiFifo => Sys2Proof.Machine.execLdSpiFifo s
  | .stSpiFifo data => Sys2Proof.Machine.execStSpiFifo data s
  | .ldSpiClk => Sys2Proof.Machine.execLdSpiClk s
  | .stSpiClk data => Sys2Proof.Machine.execStSpiClk data s
  | .setPinMode pin mode => Sys2Proof.Machine.execSetPinMode pin mode s
  | .writePin pin value => Sys2Proof.Machine.execWritePin pin value s
  | .readPin pin => Sys2Proof.Machine.execReadPin pin s
  | .enableEdgeDetect pin edge => Sys2Proof.Machine.execEnableEdgeDetect pin edge s
  | .eventDetected pin => Sys2Proof.Machine.execEventDetected pin s
  | .spiStart => Sys2Proof.Machine.execSpiStart s
  | .spiEnd => Sys2Proof.Machine.execSpiEnd s
  | .setClockDivider d => Sys2Proof.Machine.execSetClockDivider d s
  | .setChipSelect cs => Sys2Proof.Machine.execSetChipSelect cs s
  | .beginTransfer => Sys2Proof.Machine.execBeginTransfer s
  | .send byte => Sys2Proof.Machine.execSend byte s
  | .send16 word => Sys2Proof.Machine.execSend16 word s
  | .endTransfer => Sys2Proof.Machine.execEndTransfer s
  | .transferByte val => Sys2Proof.Machine.execTransferByte val s
  | .bufferTransfer txBuf n => Sys2Proof.Machine.execBufferTransfer txBuf n s
  | .qdecInitialize encoder pinA pinB => Sys2Proof.Machine.execQdecInitialize encoder pinA pinB s
  | .qdecPoll encoder => Sys2Proof.Machine.execQdecPoll encoder s

end Sys2Proof.Machine
end

