-- ==== Sys2Proof/Machine/Fetch.lean ====
section
/-! DEFINITION. The program (R21, R102): `H.ip` counts items of the image, so the item at `H.ip` is found by reading the
items before it. -/

namespace Sys2Proof.Machine

/-- What stands at `H.ip`. -/
inductive Fetched
  /-- `H.ip` is past the last item: the program has ended (R234). -/
  | ended
  | item (i : Instr)
  | bad (e : DecodeError)
  deriving DecidableEq, Repr

/-- The item number `ip` of an image. -/
def itemAt (p : Params) : Nat → List Word → Fetched
  | _, [] => .ended
  | 0, w :: ws =>
    match decode p (w :: ws) with
    | .ok (i, _) => .item i
    | .error e => .bad e
  | ip + 1, w :: ws =>
    match decode p (w :: ws) with
    | .ok (_, rest) => itemAt p ip rest
    | .error e => .bad e

/-- The item at `H.ip`. -/
def State.fetch (s : State) : Fetched := itemAt s.params s.host.ip s.host.prog

/-- The refusal a decode error is (R207; log 8, log 10). -/
def refusalOf : DecodeError → Refusal
  | .unmapped write width addr data => .unmappedAccess write width addr data
  | .badArgument op arg => .badArgument op arg
  | .unknownItem word => .unknownItem word
  | .truncated word => .truncatedItem word

/-- The state after a program that starts with these words has been loaded and the host is to move (log 7, log 20).
DESIGN CHOICE (log 7), unsafe for claims about loading into a stopped machine: a load clears a recorded stop.  No step does
(R14, R208); a load is no step, R40 and R226 give `H.stop` the launch value none, and the spec does not say what a load does
to a stop.  What a load does not set (pins, SPI0, encoders, the last result, the parameters) it keeps. -/
def State.loadProgram (s : State) (prog : List Word) : State :=
  { s with host := { s.host with prog, ip := 0, pos := 0, locals := .start }, stop := none, turn := .host }

end Sys2Proof.Machine
end

