-- ==== Sys2Proof/Machine/Turn.lean ====
section
/-! DEFINITION. What each agent does on its turn (R16): the host runs one transaction of the item at `H.ip`, the engine and
the environment take one of their steps. -/

namespace Sys2Proof.Machine

/-- The host's step: the next transaction of the item at `H.ip`; an ended program leaves nothing to do (R65, R234; log 7). -/
def hostStep (s : State) : Outcome :=
  match s.fetch with
  | .ended => .next s
  | .item i => exec i s
  | .bad e => .refused (refusalOf e)

/-- The step of the agent whose turn it is. -/
def moveStep (s : State) : Outcome :=
  match s.turn with
  | .host => hostStep s
  | .engine miso => .next (engineStep miso s)
  | .pad p level => .next (padStep p level s)

/-- One step: once a stop is recorded no agent moves (R40, R208); otherwise one agent moves and the next turn is drawn
(R17; log 2). -/
def stepOf (s : State) : Outcome :=
  match s.stop with
  | some r => r.outcome
  | none => andThen (moveStep s) fun t => .next t.redraw

/-- The state with an opcode-table row's instruction as the whole program, the host to move (log 7, log 20). -/
def State.withTableWord (s : State) (nbits w : Nat) : State := s.loadProgram (tableWords nbits w)

end Sys2Proof.Machine
end

