-- ==== Sys2Proof/Machine/Step.lean ====
section
/-! DEFINITION. One step of the machine, and the placing of one instruction where the next step fetches it. -/

namespace Sys2Proof.Machine

/-- One step of the machine (R14, R16, R17). -/
def step (s : State) : Host.Outcome State Fault Refusal := stepOf s

/-- The state with that instruction as the whole program, the host to move and no stop recorded, also where one was before
(DESIGN CHOICE, log 7; log 20). -/
def State.withFetchWord (s : State) (nbits w : Nat) : State := s.withTableWord nbits w

end Sys2Proof.Machine
end

