-- ==== Sys2Proof/Safety.lean ====
section
/-! DEFINITION. The terms claims are written in: launch states, invariants, what completing an item means, runs under a given
schedule, stopped and ended states, fairness. -/

namespace Sys2Proof.Machine

/-- The launch states of R226: a program may start in any of them. -/
structure Launch (s : State) : Prop where
  txRoom : s.spi.txq.length ≤ s.params.fifoDepth
  rxRoom : s.spi.rxq.length ≤ s.params.fifoDepth
  shiftIdle : s.spi.shift = none
  refusedZero : s.spi.dmaen = false ∧ s.spi.intd = false ∧ s.spi.intr = false ∧ s.spi.adcs = false ∧ s.spi.len = false ∧
    s.spi.lmono = false ∧ s.spi.teEn = false ∧ s.spi.dmaLen = false ∧ s.spi.lenLong = false
  csLegal : s.spi.cs ≠ 3
  ip : s.host.ip = 0
  pos : s.host.pos = 0
  stop : s.stop = none
  wire : s.spi.wire = []
  encs : s.encs = []

/-- What every step keeps, of the controller (R30, R32, R33, R34, R151). -/
structure SpiInv (p : Params) (s : Spi) : Prop where
  txRoom : s.txq.length ≤ p.fifoDepth
  rxRoom : s.rxq.length ≤ p.fifoDepth
  refusedZero : s.dmaen = false ∧ s.intd = false ∧ s.intr = false ∧ s.adcs = false ∧ s.len = false ∧
    s.lmono = false ∧ s.teEn = false ∧ s.dmaLen = false ∧ s.lenLong = false
  csLegal : s.cs ≠ 3
  shiftLegal : ∀ b c, s.shift = some (b, c) → c ≠ 3
  /-- Under `stall` "the RX FIFO cannot be full here" (R151). -/
  shiftRoom : p.rxFullPolicy = .stall → s.shift ≠ none → s.rxq.length < p.fifoDepth
  wireLegal : ∀ x ∈ s.wire, x.1 ≠ 3

/-- What every step keeps (a state that a launch state reaches meets it). -/
structure MachineInv (s : State) : Prop where
  spi : SpiInv s.params s.spi
  /-- The encoder table is in its canonical form (log 12). -/
  encs : encsWf 0 s.encs = true
  /-- An encoder's raw value and count are set together (R39, R194). -/
  encsWhole : ∀ x ∈ s.encs, x.2.raw.isSome = x.2.count.isSome

/-- The item is complete: `H.ip` advanced by one, `result` returned, nothing else of the host's program changed (R21). -/
def Completed (s t : State) (result : Option Ret) : Prop :=
  t.host = { s.host with ip := s.host.ip + 1, pos := 0, locals := .start, result }

/-- The item goes on: neither `H.ip`, nor the program, nor the last result changed (R21). -/
def Ongoing (s t : State) : Prop :=
  t.host.ip = s.host.ip ∧ t.host.prog = s.host.prog ∧ t.host.result = s.host.result

/-- Nothing outside the host's progress and the free-value counter changed. -/
def BlockSame (s t : State) : Prop :=
  t.params = s.params ∧ t.pins = s.pins ∧ t.spi = s.spi ∧ t.encs = s.encs ∧ t.stop = s.stop ∧ t.turn = s.turn

/-- Nothing but the pins and the host's progress changed. -/
def OnlyPins (s t : State) : Prop :=
  t.params = s.params ∧ t.spi = s.spi ∧ t.encs = s.encs ∧ t.stop = s.stop ∧ t.turn = s.turn

/-- Nothing but the SPI0 controller and the host's progress changed. -/
def OnlySpi (s t : State) : Prop :=
  t.params = s.params ∧ t.pins = s.pins ∧ t.encs = s.encs ∧ t.stop = s.stop ∧ t.turn = s.turn

/-- The event flag after a step that took the pin from `before` to `after` (R119). -/
def EventRule (before after : Pin) : Prop :=
  after.eds = (before.eds || (!before.lev && after.lev && before.ren) || (before.lev && !after.lev && before.fen))

/-- The pin kept everything but its event flag and what is named by the caller: pad level and enables (R113, R119). -/
def PadAndEnablesSame (before after : Pin) : Prop :=
  after.ext = before.ext ∧ after.ren = before.ren ∧ after.fen = before.fen

/-- The host takes `k` transactions of item `i` in a row. -/
def execN : Nat → Instr → State → Outcome
  | 0, _, s => .next s
  | k + 1, i, s => andThen (exec i s) (execN k i)

/-- A run in which the agents move in the given order: the schedule replaces the machine's own free choice (R17). -/
def runTurns : List Move → State → Outcome
  | [], s => .next s
  | m :: ms, s => andThen (step (s.setTurn m)) (runTurns ms)

/-- The engine moves alone, one answer on MISO for each of its turns. -/
def engineRun (p : Params) : List Byte → Spi → Spi
  | [], s => s
  | r :: rs, s => engineRun p rs (engineSpi p r s)

/-- The state after one step, a stop being recorded in `H.stop` (R40, R208; log 9). -/
def settle (s : State) : State :=
  match step s with
  | .next t => t
  | .fault f => if s.stop = none then s.recordStop (.fault f) else s
  | .refused r => if s.stop = none then s.recordStop (.refusal r) else s

/-- The program has ended (R234): `H.ip` is the number of its items, and no stop is recorded. -/
def Ended (items : List Instr) (s : State) : Prop := s.host.ip = items.length ∧ s.stop = none

/-- An infinite run of the machine (R233). -/
def Run (f : Nat → State) : Prop := ∀ n, step (f n) = .next (f (n + 1))

/-- Weak fairness of the engine: a step of it that stays enabled is eventually taken (R17; log 14). -/
def EngineFair (f : Nat → State) : Prop :=
  ∀ n, (∀ m, n ≤ m → engineEnabled (f m)) → ∃ m miso, n ≤ m ∧ (f m).turn = .engine miso

/-- The loopback slave of R152: the answer to a byte is that byte. -/
def Loopback (s : State) : Prop := ∀ miso b c, s.turn = .engine miso → s.spi.shift = some (b, c) → miso = b

/-- The bytes still on their way through the controller, oldest first: received, in the shifter, waiting (R153). -/
def Spi.inFlight (s : Spi) : List Byte := s.rxq ++ (s.shift.map Prod.fst).toList ++ s.txq

/-- The engine has nothing to do and no byte waits, unless Transfer Active is off. -/
def NotBusy (s : Spi) : Prop := s.shift = none ∧ (s.ta = true → s.txq = [])

/-- BufferTransfer is between its first CS write and the end of its DONE wait, under `stall` and with nothing but its own
bytes in the controller: what has been returned, and then what is in flight, is what has been sent (R171, R173). -/
structure BufferLoop (txBuf : List Byte) (n : Word) (s : State) : Prop where
  tables : s.params.wf
  stop : s.stop = none
  item : s.fetch = .item (.bufferTransfer txBuf n)
  length : txBuf.length = n.toNat
  stall : s.params.rxFullPolicy = .stall
  spi : SpiInv s.params s.spi
  active : s.spi.ta = true
  bytes : s.host.locals.rxBuf ++ s.spi.inFlight = txBuf.take s.host.locals.t
  sent : s.host.locals.t ≤ n.toNat
  /-- The counters that each transaction's place in the loop presumes. -/
  place : (s.host.pos = 2 ∧ s.host.locals.t < n.toNat)
    ∨ (s.host.pos = 3 ∧ s.host.locals.t < n.toNat ∧ s.spi.txq.length < s.params.fifoDepth)
    ∨ (s.host.pos = 4 ∧ s.host.locals.rxBuf.length < n.toNat)
    ∨ (s.host.pos = 5 ∧ s.host.locals.rxBuf.length < n.toNat ∧ s.spi.rxq ≠ [])
    ∨ (s.host.pos = 6 ∧ s.host.locals.rxBuf.length = n.toNat)

end Sys2Proof.Machine
end

