-- ==== Sys2Proof/Certificates/Slice0/Obligations.lean ====
section
/-! DEFINITION. The statements for the provers, in the spec's order: reset and whole-machine rules, encoding, register
transactions, the engine and the environment, the driver operations, the quadrature decoder. -/

open Sys2Proof Sys2Proof.Machine

/-! ## Reset, launch and invariants -/

/-- R225: what the registers read after reset (drawn bits apart), the FIFOs, the shifter and the encoders. -/
def Obligations.ResetReadsAsTheTableSays : Prop :=
  (∀ (n : Fin 6) (i : Nat), i < 30 → 10 * n.val + i / 3 ≤ 53 → State.reset.readBit (.gpfsel n) i = false)
    ∧ (∀ (n : Fin 2) (b : Nat), 32 * n.val + b ≤ 53 →
        State.reset.readBit (.gplev n) b = (State.reset.pin (32 * n.val + b)).ext
          ∧ State.reset.readBit (.gpeds n) b = false ∧ State.reset.readBit (.gpren n) b = false
          ∧ State.reset.readBit (.gpfen n) b = false)
    ∧ (∀ i, i < 26 → State.reset.readBit .cs i = (0x00041000#32).getLsbD i)
    ∧ (∀ i, i < 16 → State.reset.readBit .clk i = false)
    ∧ State.reset.spi.txq = [] ∧ State.reset.spi.rxq = [] ∧ State.reset.spi.shift = none
    ∧ (∀ e, (State.reset.enc e).raw = none ∧ (State.reset.enc e).count = none)

/-- R226: the reset state is one of the launch states, and every launch state meets the invariant. -/
def Obligations.LaunchStatesMeetInvariant : Prop := Launch State.reset ∧ ∀ s, Launch s → MachineInv s

/-- Every step keeps the invariant: FIFO occupancy within FIFO_DEPTH, the refused CS fields 0, no chip select 3, the
encoder table canonical and whole, and under `stall` room for the byte in the shifter. -/
def Obligations.StepKeepsInvariant : Prop := ∀ s t, MachineInv s → step s = .next t → MachineInv t

/-- No step changes the parameters or the program, and a step that answers a next state records no stop. -/
def Obligations.StepKeepsParametersAndProgram : Prop :=
  ∀ s t, step s = .next t → t.params = s.params ∧ t.host.prog = s.host.prog ∧ s.stop = none ∧ t.stop = none

/-! ## Whole-machine rules -/

/-- R144: Transfer Active changes only by a CS write of the host, to the TA bit of the data; that write changes nothing
outside the controller. -/
def Obligations.TransferActiveChangesOnlyByCsWrite : Prop :=
  ∀ s t, step s = .next t → t.spi.ta ≠ s.spi.ta →
    s.turn = .host ∧ t.pins = s.pins ∧ t.encs = s.encs
      ∧ ∃ d u, writeReg .cs d s = .next u ∧ t.spi = u.spi ∧ t.spi.ta = d.getLsbD s.params.csBits.ta

/-- R27, R41: an event flag is set only by a detected edge and cleared only by a write of 1 to its bit of `GPEDSn`. -/
def Obligations.EventFlagChangesOnlyByEdgeOrClear : Prop :=
  ∀ s t p, p < 54 → step s = .next t → (t.pin p).eds ≠ (s.pin p).eds →
    ((t.pin p).eds = true
        ∧ (((s.pin p).lev = false ∧ (t.pin p).lev = true ∧ (s.pin p).ren = true)
          ∨ ((s.pin p).lev = true ∧ (t.pin p).lev = false ∧ (s.pin p).fen = true)))
      ∨ ((t.pin p).eds = false ∧ s.turn = .host
        ∧ ∃ (n : Fin 2) (d : Word), n.val = p / 32 ∧ d.getLsbD (p % 32) = true
          ∧ writeReg (.gpeds n) d s = .next (s.setPins t.pins))

/-- R22, R23, R69: a pin's mode changes only by a `GPFSELn` write; its output latch only by a `GPSETn` write with its bit
1 (to 1) or a `GPCLRn` write with its bit 1 (to 0). -/
def Obligations.ModeAndLatchChangeOnlyByTheirWrites : Prop :=
  ∀ s t p, p < 54 → step s = .next t →
    ((t.pin p).fsel ≠ (s.pin p).fsel →
      s.turn = .host ∧ ∃ (n : Fin 6) (d : Word), n.val = p / 10 ∧ (t.pin p).fsel = d.extractLsb' (p % 10 * 3) 3
        ∧ writeReg (.gpfsel n) d s = .next (s.setPins t.pins))
    ∧ ((t.pin p).latch ≠ (s.pin p).latch →
      s.turn = .host ∧ ∃ (n : Fin 2) (d : Word), n.val = p / 32 ∧ d.getLsbD (p % 32) = true
        ∧ writeReg (if (t.pin p).latch then .gpset n else .gpclr n) d s = .next (s.setPins t.pins))

/-- R39: the encoders are written only by Initialize and Poll.  R37, R151: the wire trace changes only by the engine's
complete step, which appends one exchange. -/
def Obligations.EncodersAndWireHaveOneWriter : Prop :=
  ∀ s t, step s = .next t →
    (t.encs ≠ s.encs →
      s.turn = .host ∧ ((∃ e a b, s.fetch = .item (.qdecInitialize e a b)) ∨ ∃ e, s.fetch = .item (.qdecPoll e)))
    ∧ (t.spi.wire ≠ s.spi.wire →
      ∃ miso b c, s.turn = .engine miso ∧ s.spi.shift = some (b, c) ∧ t.spi.wire = s.spi.wire ++ [(c, b, miso)])

/-- R208: once a stop is recorded no agent moves; a step that stops records its stop and changes nothing else, but for
what its rule does before it raises: FT2's CS write has emptied the FIFOs its CLEAR bits name, FT4's Poll has written
`E.raw` (R142, R195; log 9); and the machine stays stopped. -/
def Obligations.StopIsTerminal : Prop :=
  (∀ s r, s.stop = some r → step s = r.outcome ∧ settle s = s)
    ∧ (∀ s r, s.stop = none → step s = .refused r →
        settle s = { s with stop := some (.refusal r) } ∧ step (settle s) = .refused r)
    ∧ (∀ s f, s.stop = none → step s = .fault f →
        step (settle s) = .fault f
          ∧ match f with
            | .taClearedMidTransfer d _ _ =>
              settle s = { s with
                stop := some (.fault f)
                spi := { s.spi with
                  txq := if d.getLsbD s.params.csBits.clearTx then [] else s.spi.txq
                  rxq := if d.getLsbD s.params.csBits.clearRx then [] else s.spi.rxq } }
            | .countOverflow e raw _ _ =>
              settle s = { s with stop := some (.fault f), encs := (settle s).encs }
                ∧ (encsWf 0 s.encs = true →
                  (settle s).enc e = { s.enc e with raw := some raw } ∧ ∀ e', e' ≠ e → (settle s).enc e' = s.enc e')
            | .txOverflow _ => settle s = { s with stop := some (.fault f) }
            | .clearDuringShift _ _ => settle s = { s with stop := some (.fault f) })

/-! ## Encoding and fetching -/

/-- R102: decoding an encoded instruction gives it back, whatever words follow, for every instruction the image can hold
and all well-formed register tables. -/
def Obligations.DecodeOfEncode : Prop :=
  ∀ (p : Params) (i : Instr) (rest : List Word), p.wf → i.encodable = true →
    decode p (encode p i ++ rest) = .ok (i, rest)

/-- R102: the words an instruction is read from are its encoding: no bit of an item is ignored. -/
def Obligations.EncodeOfDecode : Prop :=
  ∀ (p : Params) (ws : List Word) (i : Instr) (rest : List Word), decode p ws = .ok (i, rest) → ws = encode p i ++ rest

/-- R95, R97, R66: every (direction, width, address) selects the register the tables list there, or is refused. -/
def Obligations.AccessSelectsOneRegisterOrIsRefused : Prop :=
  ∀ (p : Params) (write : Bool) (width : Nat) (addr : Word) (data : Option Word),
    (width = 32 ∧ addr.toNat % 4 = 0 ∧ (if write then ∃ r : Dst, r.addr p = addr else ∃ r : Src, r.addr p = addr)
        ∧ ∃ i, decodeAccess p write width addr data = .ok i)
      ∨ (¬ (width = 32 ∧ addr.toNat % 4 = 0
            ∧ (if write then ∃ r : Dst, r.addr p = addr else ∃ r : Src, r.addr p = addr))
        ∧ decodeAccess p write width addr data = .error (.unmapped write width addr data))

/-- R88, R89: the transaction at a register's address is that register's read or write, and no other register has the
address in that direction, for all well-formed register tables. -/
def Obligations.RegistersAnswerAtTheirAddresses : Prop :=
  ∀ p : Params, p.wf →
    (∀ r : Src, ∃ i, decodeAccess p false 32 (r.addr p) none = .ok i ∧ ∀ s, exec i s = loadItem r s)
    ∧ (∀ (r : Dst) (d : Word), ∃ i, decodeAccess p true 32 (r.addr p) (some d) = .ok i ∧ ∀ s, exec i s = storeItem r d s)
    ∧ (∀ r r' : Src, r.addr p = r'.addr p → r = r') ∧ (∀ r r' : Dst, r.addr p = r'.addr p → r = r')

/-- R102's two examples, and P5's list argument (95_test_vectors), decode to the items they stand for. -/
def Obligations.SpecExampleWordsDecode : Prop :=
  decode .defaults [0x00000001, 0x00000011, 0x00000001] = .ok (.setPinMode 17 1, [])
    ∧ decode .defaults [0x000000B1, 0x3F20001C, 0x00020000] = .ok (.stGpset0 0x00020000, [])
    ∧ decode .defaults [0x000000B0, 0x3F204008] = .ok (.ldSpiClk, [])
    ∧ decode .defaults [0x00000019, 0x00000003, 0x00000001, 0x00000002, 0x00000003, 0x00000003]
        = .ok (.bufferTransfer [1, 2, 3] 3, [])
    ∧ decode .defaults [0x00000020, 0x00000000, 0x00000017, 0x00000018] = .ok (.qdecInitialize 0 23 24, [])

/-- R21, R102, R234: in the image of a list of items, `H.ip` finds the item of that number, and the end after the last. -/
def Obligations.FetchReadsTheItemAtIp : Prop :=
  ∀ (items : List Instr) (s : State), s.params.wf → (∀ i ∈ items, i.encodable = true) →
    s.host.prog = items.flatMap (encode s.params) →
    s.fetch = match items[s.host.ip]? with
      | some i => .item i
      | none => .ended

/-- R16, R65: on the host's turn, a step is one transaction of the item at `H.ip`, and the next turn is drawn (log 2); an
opcode-table row that is placed is the item the next step runs, read with the tables of the state, and so with the
defaults the opcode table is written with (log 20); that placing it clears a recorded stop is the model's (log 7). -/
def Obligations.HostStepRunsTheFetchedItem : Prop :=
  (∀ (s : State) (i : Instr), s.stop = none → s.turn = .host → s.fetch = .item i →
      step s = andThen (exec i s) fun t => .next t.redraw)
    ∧ (∀ (s : State) (nbits w : Nat) (i : Instr), decodeTableWordWith s.params nbits w = some i →
      step (s.withFetchWord nbits w) = andThen (exec i (s.withFetchWord nbits w)) fun t => .next t.redraw)
    ∧ ∀ (s : State) (nbits w : Nat) (i : Instr), s.params.gpioOffsets = Params.defaults.gpioOffsets →
      s.params.spi0Layout = Params.defaults.spi0Layout → decodeTableWord nbits w = some i →
      step (s.withFetchWord nbits w) = andThen (exec i (s.withFetchWord nbits w)) fun t => .next t.redraw

/-- R91, R95: an item, at any `H.ip`, whose transaction no register admits is refused RF1 with its info, and one whose
argument is outside its type RF4, when the host comes to it; of BufferTransfer's bytes the first above 0xFF (log 10). -/
def Obligations.UnadmittedItemsAreRefused : Prop :=
  ∀ (s : State) (before : List Instr) (item : List Word), s.stop = none → s.turn = .host → s.params.wf →
    (∀ i ∈ before, i.encodable = true) → s.host.ip = before.length →
    s.host.prog = before.flatMap (encode s.params) ++ item →
    ∀ (a d : Word) (rest : List Word),
    (item = 0xB0 :: a :: rest → (∀ r : Src, r.addr s.params ≠ a) → step s = .refused (.unmappedAccess false 32 a none))
    ∧ (item = 0xB1 :: a :: d :: rest → (∀ r : Dst, r.addr s.params ≠ a) →
        step s = .refused (.unmappedAccess true 32 a (some d)))
    ∧ (item = 0x04 :: a :: d :: rest → 3 < d.toNat → step s = .refused (.badArgument 0x04 d))
    ∧ (item = 0x12 :: d :: rest → 0xFFFF < d.toNat → step s = .refused (.badArgument 0x12 d))
    ∧ (item = 0x15 :: d :: rest → 0xFF < d.toNat → step s = .refused (.badArgument 0x15 d))
    ∧ (item = 0x16 :: d :: rest → 0xFFFF < d.toNat → step s = .refused (.badArgument 0x16 d))
    ∧ (item = 0x18 :: d :: rest → 0xFF < d.toNat → step s = .refused (.badArgument 0x18 d))
    ∧ ∀ (len : Word) (bytes : List Byte), item = 0x19 :: len :: (bytes.map (·.setWidth 32) ++ d :: rest) →
        bytes.length < len.toNat → len.toNat ≤ bytes.length + rest.length → 0xFF < d.toNat →
        step s = .refused (.badArgument 0x19 d)

/-! ## GPIO register transactions -/

/-- R114: a `GPFSELn` read returns each pin's mode code in its field, and changes nothing. -/
def Obligations.GpfselLoadReturnsModes : Prop :=
  ∀ (s : State),
    ∀ x ∈ [(Instr.ldGpfsel0, 0), (.ldGpfsel1, 1), (.ldGpfsel2, 2), (.ldGpfsel3, 3), (.ldGpfsel4, 4), (.ldGpfsel5, 5)],
      ∃ t v, exec x.1 s = .next t ∧ Completed s t (some (.word v)) ∧ BlockSame s t
        ∧ ∀ k, k < 10 → 10 * x.2 + k ≤ 53 → v.extractLsb' (3 * k) 3 = (s.pin (10 * x.2 + k)).fsel

/-- R118, R120, R122, R124: a banked read returns, in bit `b`, the level, event flag or enable of pin `32n + b`, and
changes nothing (the event flags too); a write of `GPLEVn` is refused. -/
def Obligations.BankedLoadReturnsPinBits : Prop :=
  (∀ (p : Params) (n : Fin 2) (d : Word), p.wf → decodeAccess p true 32 ((Src.gplev n).addr p) (some d)
      = .error (.unmapped true 32 ((Src.gplev n).addr p) (some d)))
  ∧ ∀ (s : State),
    ∀ x ∈ [(Instr.ldGplev0, 0, Pin.lev), (.ldGplev1, 1, Pin.lev), (.ldGpeds0, 0, Pin.eds), (.ldGpeds1, 1, Pin.eds),
        (.ldGpren0, 0, Pin.ren), (.ldGpren1, 1, Pin.ren), (.ldGpfen0, 0, Pin.fen), (.ldGpfen1, 1, Pin.fen)],
      ∃ t v, exec x.1 s = .next t ∧ Completed s t (some (.word v)) ∧ BlockSame s t
        ∧ ∀ b, b < 32 → 32 * x.2.1 + b ≤ 53 → v.getLsbD b = x.2.2 (s.pin (32 * x.2.1 + b))

/-- R115: a `GPFSELn` write gives each of the register's pins the mode in its field, with edge detection; every other pin
and all the rest of the state is unchanged. -/
def Obligations.GpfselStoreSetsTenModes : Prop :=
  ∀ (s : State) (d : Word),
    ∀ x ∈ [(Instr.stGpfsel0, 0), (.stGpfsel1, 1), (.stGpfsel2, 2), (.stGpfsel3, 3), (.stGpfsel4, 4), (.stGpfsel5, 5)],
      ∃ t, exec (x.1 d) s = .next t ∧ Completed s t none ∧ OnlyPins s t ∧ t.draws = s.draws
        ∧ ∀ p, p < 54 →
          (p / 10 = x.2 → (t.pin p).fsel = d.extractLsb' (3 * (p % 10)) 3 ∧ (t.pin p).latch = (s.pin p).latch
            ∧ PadAndEnablesSame (s.pin p) (t.pin p) ∧ EventRule (s.pin p) (t.pin p))
          ∧ (p / 10 ≠ x.2 → t.pin p = s.pin p)

/-- R116, R117: a 1 bit of a `GPSETn` write sets its pin's latch and of a `GPCLRn` write clears it, with edge detection; a
0 bit, a bit of no pin, and the other bank change nothing; a read of either register is refused. -/
def Obligations.SetClearStoreActsOnOneBits : Prop :=
  (∀ (p : Params) (n : Fin 2), p.wf →
      decodeAccess p false 32 ((Dst.gpset n).addr p) none = .error (.unmapped false 32 ((Dst.gpset n).addr p) none)
      ∧ decodeAccess p false 32 ((Dst.gpclr n).addr p) none = .error (.unmapped false 32 ((Dst.gpclr n).addr p) none))
  ∧ ∀ (s : State) (d : Word),
    ∀ x ∈ [(Instr.stGpset0, 0, true), (.stGpset1, 1, true), (.stGpclr0, 0, false), (.stGpclr1, 1, false)],
      ∃ t, exec (x.1 d) s = .next t ∧ Completed s t none ∧ OnlyPins s t ∧ t.draws = s.draws
        ∧ ∀ p, p < 54 →
          (p / 32 = x.2.1 ∧ d.getLsbD (p % 32) = true →
            (t.pin p).latch = x.2.2 ∧ (t.pin p).fsel = (s.pin p).fsel ∧ PadAndEnablesSame (s.pin p) (t.pin p)
              ∧ EventRule (s.pin p) (t.pin p))
          ∧ (¬ (p / 32 = x.2.1 ∧ d.getLsbD (p % 32) = true) → t.pin p = s.pin p)

/-- R121: a `GPEDSn` write clears the event flag of each pin whose bit is 1, and nothing else. -/
def Obligations.EventStatusStoreClearsOnOne : Prop :=
  ∀ (s : State) (d : Word), ∀ x ∈ [(Instr.stGpeds0, 0), (.stGpeds1, 1)],
    ∃ t, exec (x.1 d) s = .next t ∧ Completed s t none ∧ OnlyPins s t ∧ t.draws = s.draws
      ∧ ∀ p, p < 54 → t.pin p =
        if p / 32 = x.2 ∧ d.getLsbD (p % 32) = true then { s.pin p with eds := false } else s.pin p

/-- R123, R125: a `GPRENn` or `GPFENn` write stores the enables of its bank, and nothing else. -/
def Obligations.EdgeEnableStoreWritesBank : Prop :=
  ∀ (s : State) (d : Word), ∀ x ∈ [(Instr.stGpren0, 0, true), (.stGpren1, 1, true), (.stGpfen0, 0, false), (.stGpfen1, 1, false)],
    ∃ t, exec (x.1 d) s = .next t ∧ Completed s t none ∧ OnlyPins s t ∧ t.draws = s.draws
      ∧ ∀ p, p < 54 → t.pin p =
        if p / 32 = x.2.1 then
          (if x.2.2 then { s.pin p with ren := d.getLsbD (p % 32) } else { s.pin p with fen := d.getLsbD (p % 32) })
        else s.pin p

/-! ## SPI0 register transactions -/

/-- R141, R35: a CS read returns, at the positions of `SPI0_LAYOUT`, the stored fields, the status flags computed in this
state, and 0 in the CLEAR and refused positions; it changes nothing. -/
def Obligations.CsLoadReturnsFieldsAndFlags : Prop :=
  ∀ (s : State), s.params.wf → ∃ t v, exec .ldSpiCs s = .next t ∧ Completed s t (some (.word v)) ∧ BlockSame s t
    ∧ ∀ c, c = s.params.csBits →
      v.extractLsb' c.cs 2 = s.spi.cs ∧ v.getLsbD c.cpha = s.spi.cpha ∧ v.getLsbD c.cpol = s.spi.cpol
      ∧ v.getLsbD c.cspol = s.spi.cspol ∧ v.getLsbD c.ta = s.spi.ta ∧ v.getLsbD c.renb = s.spi.renb
      ∧ v.getLsbD c.cspol0 = s.spi.cspol0 ∧ v.getLsbD c.cspol1 = s.spi.cspol1 ∧ v.getLsbD c.cspol2 = s.spi.cspol2
      ∧ v.getLsbD c.clearTx = false ∧ v.getLsbD c.clearRx = false
      ∧ (∀ i ∈ [c.dmaen, c.intd, c.intr, c.adcs, c.len, c.lmono, c.teEn, c.dmaLen, c.lenLong], v.getLsbD i.val = false)
      ∧ (v.getLsbD c.done = true ↔ s.spi.ta = true ∧ s.spi.txq = [] ∧ s.spi.shift = none)
      ∧ (v.getLsbD c.rxd = true ↔ s.spi.rxq ≠ [])
      ∧ (v.getLsbD c.txd = true ↔ s.spi.txq.length < s.params.fifoDepth)
      ∧ (v.getLsbD c.rxr = true ↔ s.spi.ta = true ∧ s.params.rxrThreshold ≤ s.spi.rxq.length)
      ∧ (v.getLsbD c.rxf = true ↔ s.spi.rxq.length = s.params.fifoDepth)

/-- R142, R143: a CS write that none of the three stops turns away empties the FIFOs its CLEAR bits name, stores the
fields, ignores the status and reserved bits, and changes nothing else; the positions are those of `SPI0_LAYOUT`. -/
def Obligations.CsStoreStoresFields : Prop :=
  ∀ (s : State) (d : Word) (c : CsPositions), c = s.params.csBits →
    d.extractLsb' c.cs 2 ≠ 3 →
    (∀ i ∈ [c.dmaen, c.intd, c.intr, c.adcs, c.len, c.lmono, c.teEn, c.dmaLen, c.lenLong],
      d.getLsbD i.val = false) →
    (s.spi.shift = none
      ∨ (d.getLsbD c.clearTx = false ∧ d.getLsbD c.clearRx = false ∧ (s.spi.ta = true → d.getLsbD c.ta = true))) →
    (s.spi.ta = true → d.getLsbD c.ta = false → d.getLsbD c.clearTx = false → s.spi.txq = []) →
    ∃ t, exec (.stSpiCs d) s = .next t ∧ Completed s t none ∧ OnlySpi s t ∧ t.draws = s.draws
      ∧ t.spi = { s.spi with
          cs := d.extractLsb' c.cs 2, cpha := d.getLsbD c.cpha, cpol := d.getLsbD c.cpol, cspol := d.getLsbD c.cspol,
          ta := d.getLsbD c.ta, renb := d.getLsbD c.renb, cspol0 := d.getLsbD c.cspol0, cspol1 := d.getLsbD c.cspol1,
          cspol2 := d.getLsbD c.cspol2, txq := if d.getLsbD c.clearTx then [] else s.spi.txq,
          rxq := if d.getLsbD c.clearRx then [] else s.spi.rxq }

/-- R142, R145, R210: RF2 for chip select 3 or a DMA, interrupt or LoSSI field; else FT3 for a CLEAR bit while a byte is in
the shifter; else FT2 for clearing TA while a byte waits; the positions are those of `SPI0_LAYOUT`. -/
def Obligations.CsStoreStopsInOrder : Prop :=
  ∀ (s : State) (d : Word) (c : CsPositions), c = s.params.csBits →
    ((d.extractLsb' c.cs 2 = 3
          ∨ ∃ i ∈ [c.dmaen, c.intd, c.intr, c.adcs, c.len, c.lmono, c.teEn, c.dmaLen, c.lenLong],
            d.getLsbD i.val = true) →
        exec (.stSpiCs d) s = .refused (.outOfScopeField d))
    ∧ ((d.extractLsb' c.cs 2 ≠ 3
          ∧ ∀ i ∈ [c.dmaen, c.intd, c.intr, c.adcs, c.len, c.lmono, c.teEn, c.dmaLen, c.lenLong],
            d.getLsbD i.val = false) →
        ((d.getLsbD c.clearTx = true ∨ d.getLsbD c.clearRx = true) ∧ s.spi.shift ≠ none →
          exec (.stSpiCs d) s = .fault (.clearDuringShift d s.spi.shift))
        ∧ (d.getLsbD c.clearTx = false ∧ (d.getLsbD c.clearRx = false ∨ s.spi.shift = none) ∧ s.spi.ta = true
            ∧ d.getLsbD c.ta = false ∧ (s.spi.txq ≠ [] ∨ s.spi.shift ≠ none) →
          exec (.stSpiCs d) s = .fault (.taClearedMidTransfer d s.spi.txq.length s.spi.shift)))

/-- R146, R68, R94: a FIFO read pops the front of the RX FIFO into the data byte (bits 7:0 by default); with the RX FIFO
empty it pops nothing. -/
def Obligations.FifoLoadPopsFront : Prop :=
  ∀ (s : State), ∃ t v, exec .ldSpiFifo s = .next t ∧ Completed s t (some (.word v)) ∧ OnlySpi s t
    ∧ (∀ b q, s.spi.rxq = b :: q → v.extractLsb' s.params.spi0Layout.fifoData 8 = b ∧ t.spi = { s.spi with rxq := q })
    ∧ (s.spi.rxq = [] → t.spi = s.spi)

/-- R147, R94: a FIFO write is refused while Idle, overflows when the TX FIFO is full, and else pushes its data byte (bits
7:0 by default). -/
def Obligations.FifoStorePushesByte : Prop :=
  ∀ (s : State) (d : Word),
    (s.spi.ta = false → exec (.stSpiFifo d) s = .refused (.fifoWriteWhileIdle d))
    ∧ (s.spi.ta = true → s.spi.txq.length = s.params.fifoDepth →
        exec (.stSpiFifo d) s = .fault (.txOverflow (d.extractLsb' s.params.spi0Layout.fifoData 8)))
    ∧ (s.spi.ta = true → s.spi.txq.length ≠ s.params.fifoDepth →
        ∃ t, exec (.stSpiFifo d) s = .next t ∧ Completed s t none ∧ OnlySpi s t ∧ t.draws = s.draws
          ∧ t.spi = { s.spi with txq := s.spi.txq ++ [d.extractLsb' s.params.spi0Layout.fifoData 8] })

/-- R148, R149, R164, R94: a CLK write stores the CDIV field (bits 15:0 by default), SetClockDivider its argument, and a
CLK read returns the divider in that field. -/
def Obligations.ClockDividerIsStoredAndRead : Prop :=
  ∀ (s : State) (d : Word) (div : Half),
    (∃ t, exec (.stSpiClk d) s = .next t ∧ Completed s t none ∧ OnlySpi s t ∧ t.draws = s.draws
      ∧ t.spi = { s.spi with cdiv := d.extractLsb' s.params.spi0Layout.cdiv 16 })
    ∧ (∃ t v, exec .ldSpiClk s = .next t ∧ Completed s t (some (.word v)) ∧ BlockSame s t
      ∧ v.extractLsb' s.params.spi0Layout.cdiv 16 = s.spi.cdiv)
    ∧ (s.host.pos = 0 →
      ∃ t, exec (.setClockDivider div) s = .next t ∧ Completed s t none ∧ OnlySpi s t ∧ t.draws = s.draws
        ∧ t.spi = { s.spi with cdiv := div })

/-! ## The engine and the environment -/

/-- R150, R151, R155: on its turn the engine completes the exchange in the shifter, or loads the next byte with the chip
select in force if that is enabled, or does nothing (log 2); nothing outside the controller changes. -/
def Obligations.EngineTurnLoadsOrCompletes : Prop :=
  ∀ (s : State) (miso : Byte), s.stop = none → s.turn = .engine miso →
    ∃ u, step s = .next u.redraw ∧ OnlySpi s u ∧ u.host = s.host ∧ u.draws = s.draws
      ∧ (∀ b c, s.spi.shift = some (b, c) →
          u.spi = { s.spi with
            wire := s.spi.wire ++ [(c, b, miso)]
            rxq := if s.spi.rxq.length < s.params.fifoDepth then s.spi.rxq ++ [miso] else s.spi.rxq
            shift := none })
      ∧ (∀ b q, s.spi.shift = none → s.spi.txq = b :: q →
          u.spi = if s.spi.ta = true ∧ (s.params.rxFullPolicy = .stall → s.spi.rxq.length < s.params.fifoDepth)
            then { s.spi with txq := q, shift := some (b, s.spi.cs) } else s.spi)
      ∧ (s.spi.shift = none → s.spi.txq = [] → u.spi = s.spi)

/-- R113, R119: on the environment's turn one pad takes its level, with edge detection for that pin; nothing else changes. -/
def Obligations.PadTurnChangesOnePad : Prop :=
  ∀ (s : State) (p : Fin 54) (level : Bool), s.stop = none → s.turn = .pad p level →
    ∃ u, step s = .next u.redraw ∧ OnlyPins s u ∧ u.host = s.host ∧ u.draws = s.draws
      ∧ (u.pin p).ext = level ∧ (u.pin p).fsel = (s.pin p).fsel ∧ (u.pin p).latch = (s.pin p).latch
      ∧ (u.pin p).ren = (s.pin p).ren ∧ (u.pin p).fen = (s.pin p).fen ∧ EventRule (s.pin p) (u.pin p)
      ∧ ∀ q, q < 54 → q ≠ p.val → u.pin q = s.pin q

/-- R153, R154: left alone with room for every reply (or under `drop`), the engine reaches DONE after at most two turns a
waiting byte and one for the byte in the shifter. -/
def Obligations.EngineReachesDone : Prop :=
  ∀ (p : Params) (s : Spi) (rs : List Byte), s.ta = true →
    (p.rxFullPolicy = .drop
      ∨ s.rxq.length + s.txq.length + (if s.shift = none then 0 else 1) ≤ p.fifoDepth) →
    2 * s.txq.length + (if s.shift = none then 0 else 1) ≤ rs.length →
    (engineRun p rs s).done = true

/-- R154, R241: under `stall`, a full RX FIFO that nobody reads stops the engine: no turn of it changes anything, so with a
byte waiting DONE stays 0. -/
def Obligations.FullRxFifoStallsTheEngine : Prop :=
  ∀ (p : Params) (s : Spi) (rs : List Byte), p.rxFullPolicy = .stall → s.shift = none → s.rxq.length = p.fifoDepth →
    s.txq ≠ [] → engineRun p rs s = s ∧ (engineRun p rs s).done = false

/-! ## GPIO operations

An operation reaches the registers it names by their names.  In register tables that are not well formed that is the
model's choice (log 26), and so is what the statements below that have no premise `Params.wf` say of such tables. -/

/-- R127, R132, left alone: SetPinMode reads the pin's register and writes it back with the pin's field changed; no other
pin changes. -/
def Obligations.SetPinModeSetsOnePin : Prop :=
  ∀ (s : State) (pin mode : Word), pin.toNat < 54 → mode.toNat ≤ 7 → s.host.pos = 0 →
    ∃ u t, exec (.setPinMode pin mode) s = .next u ∧ Ongoing s u ∧ BlockSame s u
      ∧ exec (.setPinMode pin mode) u = .next t ∧ Completed s t none ∧ OnlyPins s t
      ∧ (t.pin pin.toNat).fsel = mode.setWidth 3 ∧ (t.pin pin.toNat).latch = (s.pin pin.toNat).latch
      ∧ PadAndEnablesSame (s.pin pin.toNat) (t.pin pin.toNat) ∧ EventRule (s.pin pin.toNat) (t.pin pin.toNat)
      ∧ ∀ q, q < 54 → q ≠ pin.toNat → t.pin q = s.pin q

/-- R127, R65, R239: SetPinMode's write gives every other pin of the register the mode that was READ, whatever happened
since. -/
def Obligations.SetPinModeWritesBackWhatItRead : Prop :=
  ∀ (s : State) (pin mode : Word), pin.toNat < 54 → mode.toNat ≤ 7 → s.host.pos = 1 →
    ∃ t, exec (.setPinMode pin mode) s = .next t ∧ Completed s t none ∧ OnlyPins s t ∧ t.draws = s.draws
      ∧ ∀ p, p < 54 →
        (p / 10 = pin.toNat / 10 →
          (t.pin p).fsel = (if p = pin.toNat then mode.setWidth 3 else s.host.locals.v.extractLsb' (3 * (p % 10)) 3)
            ∧ (t.pin p).latch = (s.pin p).latch ∧ PadAndEnablesSame (s.pin p) (t.pin p) ∧ EventRule (s.pin p) (t.pin p))
        ∧ (p / 10 ≠ pin.toNat / 10 → t.pin p = s.pin p)

/-- R111, R126, R133: an operation on a pin of 54 or more (or SetPinMode with a mode above 7) completes at once, with its
default result, without a transaction. -/
def Obligations.InvalidPinIsNoOp : Prop :=
  ∀ (s : State) (pin x : Word) (edge : Edge),
    (54 ≤ pin.toNat ∨ 8 ≤ x.toNat → exec (.setPinMode pin x) s = .next (s.finish none))
    ∧ (54 ≤ pin.toNat →
        exec (.writePin pin x) s = .next (s.finish none)
        ∧ exec (.readPin pin) s = .next (s.finish (some (.bit false)))
        ∧ exec (.enableEdgeDetect pin edge) s = .next (s.finish none)
        ∧ exec (.eventDetected pin) s = .next (s.finish (some (.flag false))))

/-- R128: WritePin sets its pin's latch for a nonzero value and clears it for zero, with edge detection; no other pin
changes. -/
def Obligations.WritePinWritesOneLatch : Prop :=
  ∀ (s : State) (pin value : Word), pin.toNat < 54 → s.host.pos = 0 →
    ∃ t, exec (.writePin pin value) s = .next t ∧ Completed s t none ∧ OnlyPins s t ∧ t.draws = s.draws
      ∧ (t.pin pin.toNat).latch = decide (value ≠ 0) ∧ (t.pin pin.toNat).fsel = (s.pin pin.toNat).fsel
      ∧ PadAndEnablesSame (s.pin pin.toNat) (t.pin pin.toNat) ∧ EventRule (s.pin pin.toNat) (t.pin pin.toNat)
      ∧ ∀ q, q < 54 → q ≠ pin.toNat → t.pin q = s.pin q

/-- R129, R26: ReadPin returns the pin's level: its latch in Output mode, else the level the environment presents. -/
def Obligations.ReadPinReturnsLevel : Prop :=
  ∀ (s : State) (pin : Word), pin.toNat < 54 →
    ∃ t, exec (.readPin pin) s = .next t ∧ BlockSame s t
      ∧ Completed s t (some (.bit
          (if (s.pin pin.toNat).fsel = 1 then (s.pin pin.toNat).latch else (s.pin pin.toNat).ext)))

/-- R134, R228: in Output mode ReadPin returns what WritePin wrote; and a level written first is the pin's level from the
step that makes it an Output. -/
def Obligations.WrittenLevelIsRead : Prop :=
  ∀ (s : State) (pin value : Word), pin.toNat < 54 → s.host.pos = 0 →
    ∃ t, exec (.writePin pin value) s = .next t
      ∧ ((s.pin pin.toNat).fsel = 1 →
          ∃ u, exec (.readPin pin) t = .next u ∧ u.host.result = some (.bit (decide (value ≠ 0))))
      ∧ ∃ w u, exec (.setPinMode pin 1) t = .next w ∧ exec (.setPinMode pin 1) w = .next u
          ∧ (u.pin pin.toNat).lev = decide (value ≠ 0)

/-- R130: EnableEdgeDetect, left alone, gives its pin the two enables its edge names; no other pin, and no event flag,
changes. -/
def Obligations.EnableEdgeDetectSetsBothEnables : Prop :=
  ∀ (s : State) (pin : Word) (edge : Edge), pin.toNat < 54 → s.host.pos = 0 →
    ∃ u t, exec (.enableEdgeDetect pin edge) s = .next u ∧ Ongoing s u ∧ BlockSame s u
      ∧ execN 3 (.enableEdgeDetect pin edge) u = .next t ∧ Completed s t none ∧ OnlyPins s t
      ∧ t.pin pin.toNat = { s.pin pin.toNat with
          ren := decide (edge = .rising ∨ edge = .changing), fen := decide (edge = .falling ∨ edge = .changing) }
      ∧ ∀ q, q < 54 → q ≠ pin.toNat → t.pin q = s.pin q

/-- R131, R135: EventDetected returns false after one read when its pin's flag is 0; when it is 1 it returns true, and
clears, under `or_rmw`, every event of the bank (90_conflicts C2), under `direct_write` its own pin's alone. -/
def Obligations.EventDetectedConsumesTheEvent : Prop :=
  ∀ (s : State) (pin : Word), pin.toNat < 54 → s.host.pos = 0 →
    ((s.pin pin.toNat).eds = false →
        ∃ t, exec (.eventDetected pin) s = .next t ∧ Completed s t (some (.flag false)) ∧ BlockSame s t)
    ∧ ((s.pin pin.toNat).eds = true → s.params.edsClearStyle = .orRmw →
        ∃ u t, exec (.eventDetected pin) s = .next u ∧ Ongoing s u ∧ BlockSame s u
          ∧ execN 2 (.eventDetected pin) u = .next t ∧ Completed s t (some (.flag true)) ∧ OnlyPins s t
          ∧ ∀ p, p < 54 → t.pin p = if p / 32 = pin.toNat / 32 then { s.pin p with eds := false } else s.pin p)
    ∧ ((s.pin pin.toNat).eds = true → s.params.edsClearStyle = .directWrite →
        ∃ u t, exec (.eventDetected pin) s = .next u ∧ Ongoing s u ∧ BlockSame s u
          ∧ exec (.eventDetected pin) u = .next t ∧ Completed s t (some (.flag true)) ∧ OnlyPins s t
          ∧ ∀ p, p < 54 → t.pin p = if p = pin.toNat then { s.pin p with eds := false } else s.pin p)

/-! ## SPI0 operations -/

/-- R162, R161: with the default pins, Start left alone puts pins 7 to 11 in Alt0, zeroes every stored CS field, empties both
FIFOs and selects chip 0; every other pin, the divider, the shifter and the wire are unchanged.  With a byte pending it
claims the pins and then stops: FT2 at its zeroing write while Active, FT3 at its clear for a byte in the shifter while
Idle. -/
def Obligations.StartClaimsPinsAndResetsControl : Prop :=
  ∀ (s : State), s.params.wf → s.params.spi0Pins = [7, 8, 9, 10, 11] → s.params.spi0PinMode = 4 → s.host.pos = 0 →
    ∃ u v, exec .spiStart s = .next u ∧ Ongoing s u ∧ BlockSame s u ∧ execN 9 .spiStart u = .next v
      ∧ Ongoing s v ∧ OnlyPins s v
      ∧ (∀ p, p < 54 →
          (7 ≤ p ∧ p ≤ 11 → (v.pin p).fsel = 4 ∧ (v.pin p).latch = (s.pin p).latch
            ∧ PadAndEnablesSame (s.pin p) (v.pin p) ∧ EventRule (s.pin p) (v.pin p))
          ∧ (¬ (7 ≤ p ∧ p ≤ 11) → v.pin p = s.pin p))
      ∧ (NotBusy s.spi →
          ∃ t, execN 5 .spiStart v = .next t ∧ Completed s t none ∧ t.pins = v.pins ∧ OnlySpi v t
            ∧ t.spi = { s.spi with
                cs := 0, cpha := false, cpol := false, cspol := false, ta := false, renb := false, cspol0 := false,
                cspol1 := false, cspol2 := false, txq := [], rxq := [] })
      ∧ (s.spi.ta = true → s.spi.txq ≠ [] ∨ s.spi.shift ≠ none →
          exec .spiStart v = .fault (.taClearedMidTransfer 0 s.spi.txq.length s.spi.shift))
      ∧ (s.spi.ta = false → s.spi.shift ≠ none →
          ∃ w d, execN 2 .spiStart v = .next w ∧ exec .spiStart w = .fault (.clearDuringShift d s.spi.shift))

/-- R163: with the default pins, End left alone puts pins 7 to 11 in Input mode and changes nothing of SPI0. -/
def Obligations.EndReleasesPins : Prop :=
  ∀ (s : State), s.params.spi0Pins = [7, 8, 9, 10, 11] → s.host.pos = 0 →
    ∃ u t, exec .spiEnd s = .next u ∧ Ongoing s u ∧ BlockSame s u ∧ execN 9 .spiEnd u = .next t
      ∧ Completed s t none ∧ OnlyPins s t
      ∧ ∀ p, p < 54 →
          (7 ≤ p ∧ p ≤ 11 → (t.pin p).fsel = 0 ∧ (t.pin p).latch = (s.pin p).latch
            ∧ PadAndEnablesSame (s.pin p) (t.pin p) ∧ EventRule (s.pin p) (t.pin p))
          ∧ (¬ (7 ≤ p ∧ p ≤ 11) → t.pin p = s.pin p)

/-- R165, R172: SetChipSelect, left alone, changes the chip-select field and no other bit; above 1 it is refused. -/
def Obligations.SetChipSelectChangesOnlyTheField : Prop :=
  ∀ (s : State) (cs : Word), s.params.wf →
    (1 < cs.toNat → exec (.setChipSelect cs) s = .refused (.badArgument 0x13 cs))
    ∧ (cs.toNat ≤ 1 → s.host.pos = 0 →
        ∃ u t, exec (.setChipSelect cs) s = .next u ∧ Ongoing s u ∧ BlockSame s u
          ∧ exec (.setChipSelect cs) u = .next t ∧ Completed s t none ∧ OnlySpi s t
          ∧ t.spi = { s.spi with cs := cs.setWidth 2 })

/-- R166: BeginTransfer, left alone, empties both FIFOs and asserts Transfer Active, nothing else; while a byte is being
shifted its clear stops with FT3. -/
def Obligations.BeginTransferClearsAndActivates : Prop :=
  ∀ (s : State), s.params.wf → s.host.pos = 0 → s.spi.cs ≠ 3 →
    ∃ u, exec .beginTransfer s = .next u ∧ Ongoing s u ∧ BlockSame s u
      ∧ (s.spi.shift = none →
          ∃ t, execN 3 .beginTransfer u = .next t ∧ Completed s t none ∧ OnlySpi s t
            ∧ t.spi = { s.spi with txq := [], rxq := [], ta := true })
      ∧ (s.spi.shift ≠ none → ∃ d, exec .beginTransfer u = .fault (.clearDuringShift d s.spi.shift))

/-- R167, R233, R238: Send waits, with `H.ip` and the block unchanged, while the TX FIFO is full; then it writes its byte,
refused RF3 while Idle. -/
def Obligations.SendWaitsThenPushes : Prop :=
  ∀ (s : State) (byte : Byte), s.params.wf → s.host.pos = 0 →
    ∃ u, exec (.send byte) s = .next u ∧ Ongoing s u ∧ BlockSame s u
      ∧ (s.params.fifoDepth ≤ s.spi.txq.length → u.host.pos = 0)
      ∧ (s.spi.txq.length < s.params.fifoDepth → s.spi.ta = true →
          ∃ t, exec (.send byte) u = .next t ∧ Completed s t none ∧ OnlySpi s t
            ∧ t.spi = { s.spi with txq := s.spi.txq ++ [byte] })
      ∧ (s.spi.txq.length < s.params.fifoDepth → s.spi.ta = false →
          exec (.send byte) u = .refused (.fifoWriteWhileIdle (byte.setWidth 32 <<< s.params.spi0Layout.fifoData.val)))

/-- R168, R246: Send16 waits once, then writes the high byte and the low byte; with one entry free, and no engine turn in
between, its second write overflows (FT1); while Idle it is refused RF3. -/
def Obligations.Send16PushesHighThenLow : Prop :=
  ∀ (s : State) (word : Half), s.params.wf → s.host.pos = 0 →
    ∃ u, exec (.send16 word) s = .next u ∧ Ongoing s u ∧ BlockSame s u
      ∧ (s.params.fifoDepth ≤ s.spi.txq.length → u.host.pos = 0)
      ∧ (s.spi.txq.length + 1 < s.params.fifoDepth → s.spi.ta = true →
          ∃ t, execN 2 (.send16 word) u = .next t ∧ Completed s t none ∧ OnlySpi s t
            ∧ t.spi = { s.spi with txq := s.spi.txq ++ [word.extractLsb' 8 8, word.extractLsb' 0 8] })
      ∧ (s.spi.txq.length + 1 = s.params.fifoDepth → s.spi.ta = true →
          execN 2 (.send16 word) u = .fault (.txOverflow (word.extractLsb' 0 8)))
      ∧ (s.spi.txq.length < s.params.fifoDepth → s.spi.ta = false →
          exec (.send16 word) u
            = .refused (.fifoWriteWhileIdle ((word.extractLsb' 8 8).setWidth 32 <<< s.params.spi0Layout.fifoData.val)))

/-- R169: EndTransfer waits while a transaction is Active and not Done, then clears Transfer Active and nothing else. -/
def Obligations.EndTransferWaitsThenDeactivates : Prop :=
  ∀ (s : State), s.params.wf → s.host.pos = 0 → s.spi.cs ≠ 3 →
    ∃ u, exec .endTransfer s = .next u ∧ Ongoing s u ∧ BlockSame s u
      ∧ (s.spi.ta = true → s.spi.txq ≠ [] ∨ s.spi.shift ≠ none → u.host.pos = 0)
      ∧ ((s.spi.ta = true → s.spi.txq = [] ∧ s.spi.shift = none) →
          ∃ t, execN 2 .endTransfer u = .next t ∧ Completed s t none ∧ OnlySpi s t
            ∧ t.spi = { s.spi with ta := false })

/-- R170: TransferByte clears the FIFOs, activates, sends its byte, and after the engine has exchanged it for `miso`
returns `miso`, Transfer Active clear and both FIFOs empty; while a byte is being shifted its clear stops with FT3 (R237). -/
def Obligations.TransferByteReturnsTheReply : Prop :=
  ∀ (s : State) (val other miso : Byte), s.params.wf → s.host.pos = 0 → s.spi.cs ≠ 3 →
    ∃ u, exec (.transferByte val) s = .next u ∧ Ongoing s u ∧ BlockSame s u
      ∧ (s.spi.shift = none → 0 < s.params.fifoDepth →
          ∃ v t, execN 5 (.transferByte val) u = .next v ∧ Ongoing s v ∧ OnlySpi s v
            ∧ v.spi = { s.spi with ta := true, txq := [val], rxq := [] }
            ∧ execN 4 (.transferByte val) (engineStep miso (engineStep other v)) = .next t
            ∧ Completed s t (some (.byte miso)) ∧ OnlySpi s t
            ∧ t.spi = { s.spi with ta := false, txq := [], rxq := [], wire := s.spi.wire ++ [(s.spi.cs, val, miso)] })
      ∧ (s.spi.shift ≠ none → ∃ d, exec (.transferByte val) u = .fault (.clearDuringShift d s.spi.shift))

/-- R171: BufferTransfer refuses a list whose length is not `n`; with `n = 0` it asserts Transfer Active, finds Done, and
clears it again. -/
def Obligations.BufferTransferMismatchAndEmpty : Prop :=
  ∀ (s : State) (txBuf : List Byte) (n : Word),
    (txBuf.length ≠ n.toNat → exec (.bufferTransfer txBuf n) s = .refused (.badArgument 0x19 n))
    ∧ (s.params.wf → s.host.pos = 0 → s.spi.cs ≠ 3 → s.spi.shift = none → s.spi.txq = [] →
        ∃ u t, exec (.bufferTransfer [] 0) s = .next u ∧ Ongoing s u ∧ BlockSame s u
          ∧ execN 4 (.bufferTransfer [] 0) u = .next t ∧ Completed s t (some (.bytes [])) ∧ OnlySpi s t
          ∧ t.spi = { s.spi with ta := false })

/-- R171: BufferTransfer's FIFO write sends the next byte of txBuf, its FIFO read appends the next received byte to rxBuf,
and nothing else changes. -/
def Obligations.BufferTransferMovesOneByte : Prop :=
  ∀ (s : State) (txBuf : List Byte) (n : Word), txBuf.length = n.toNat →
    (∀ b, s.host.pos = 3 → txBuf[s.host.locals.t]? = some b → s.spi.ta = true → s.spi.txq.length < s.params.fifoDepth →
        ∃ t, exec (.bufferTransfer txBuf n) s = .next t ∧ Ongoing s t ∧ OnlySpi s t
          ∧ t.spi = { s.spi with txq := s.spi.txq ++ [b] } ∧ t.host.locals.t = s.host.locals.t + 1
          ∧ t.host.locals.rxBuf = s.host.locals.rxBuf)
    ∧ (∀ b q, s.host.pos = 5 → s.spi.rxq = b :: q →
        ∃ t, exec (.bufferTransfer txBuf n) s = .next t ∧ Ongoing s t ∧ OnlySpi s t
          ∧ t.spi = { s.spi with rxq := q } ∧ t.host.locals.t = s.host.locals.t
          ∧ t.host.locals.rxBuf = s.host.locals.rxBuf ++ [b])

/-- R171, R173: BufferTransfer asserts Transfer Active in its first two transactions and, with nothing in the controller
at entry, under `stall`, enters its loop in a state that meets BufferLoop. -/
def Obligations.BufferTransferEntersItsLoop : Prop :=
  ∀ (s : State) (txBuf : List Byte) (n : Word), s.params.wf → s.stop = none → s.fetch = .item (.bufferTransfer txBuf n) →
    txBuf.length = n.toNat → s.params.rxFullPolicy = .stall → SpiInv s.params s.spi → s.host.pos = 0 →
    s.spi.inFlight = [] →
    ∃ u t, exec (.bufferTransfer txBuf n) s = .next u ∧ exec (.bufferTransfer txBuf n) u = .next t
      ∧ BufferLoop txBuf n t

/-- R173 (the headline): under `stall`, with a loopback slave, every step of any agent in BufferTransfer's loop answers a
next state (no FT1, no byte dropped or duplicated) and keeps BufferLoop, until the DONE wait ends with rxBuf = txBuf. -/
def Obligations.BufferTransferKeepsEveryByte : Prop :=
  ∀ (s : State) (txBuf : List Byte) (n : Word), BufferLoop txBuf n s → Loopback s →
    ∃ t, step s = .next t
      ∧ (BufferLoop txBuf n t
        ∨ (t.host.pos = 7 ∧ t.host.locals.rxBuf = txBuf ∧ t.spi.ta = true ∧ t.spi.inFlight = []))

/-- R171: after its DONE wait BufferTransfer clears Transfer Active and returns rxBuf. -/
def Obligations.BufferTransferReturnsRxBuf : Prop :=
  ∀ (s : State) (txBuf : List Byte) (n : Word), s.params.wf → txBuf.length = n.toNat → s.host.pos = 7 → s.spi.cs ≠ 3 →
    (s.spi.ta = true → s.spi.txq = [] ∧ s.spi.shift = none) →
    ∃ u t, exec (.bufferTransfer txBuf n) s = .next u ∧ Ongoing s u ∧ BlockSame s u
      ∧ exec (.bufferTransfer txBuf n) u = .next t ∧ Completed s t (some (.bytes s.host.locals.rxBuf)) ∧ OnlySpi s t
      ∧ t.spi = { s.spi with ta := false }

/-! ## The quadrature decoder -/

/-- R192, R193, R198: the transition table; ±1 exactly when one of A, B changes; one clockwise cycle of samples counts +4,
its reverse -4, a skipped step 0. -/
def Obligations.TransitionTableIsTheSpecs : Prop :=
  (∀ raw : BitVec 4,
      [(0 : Int), 1, -1, 0, -1, 0, 0, 1, 1, 0, 0, -1, 0, -1, 1, 0][raw.toNat]? = some (transition raw)
        ∧ (transition raw ≠ 0 ↔ (raw.getLsbD 3 ≠ raw.getLsbD 1) ≠ (raw.getLsbD 2 ≠ raw.getLsbD 0)))
    ∧ (∀ raw : BitVec 4, raw.getLsbD 1 = false → raw.getLsbD 0 = false →
        (let r1 := nextRaw raw false true; let r2 := nextRaw r1 true true
         let r3 := nextRaw r2 true false; let r4 := nextRaw r3 false false
         transition r1 + transition r2 + transition r3 + transition r4 = 4)
        ∧ (let r1 := nextRaw raw true false; let r2 := nextRaw r1 true true
           let r3 := nextRaw r2 false true; let r4 := nextRaw r3 false false
           transition r1 + transition r2 + transition r3 + transition r4 = -4)
        ∧ transition (nextRaw raw true true) = 0)

/-- R194: Initialize, left alone, puts its valid pins in Input mode and leaves the encoder at raw 0 and count 0 with its pins
fixed; no other pin and no other encoder changes. -/
def Obligations.InitializeZeroesTheEncoder : Prop :=
  ∀ (s : State) (e pinA pinB : Word), s.host.pos = 0 → encsWf 0 s.encs = true →
    ∃ u t, exec (.qdecInitialize e pinA pinB) s = .next u
      ∧ execN ((if pinA.toNat < 54 then 2 else 0) + (if pinB.toNat < 54 then 2 else 0) - 1)
          (.qdecInitialize e pinA pinB) u = .next t
      ∧ Completed s t none ∧ t.params = s.params ∧ t.spi = s.spi ∧ t.stop = s.stop ∧ t.turn = s.turn
      ∧ t.enc e = { pinA, pinB, raw := some 0, count := some 0 } ∧ (∀ e', e' ≠ e → t.enc e' = s.enc e')
      ∧ ∀ p, p < 54 →
          (p = pinA.toNat ∨ p = pinB.toNat → (t.pin p).fsel = 0 ∧ (t.pin p).latch = (s.pin p).latch
            ∧ PadAndEnablesSame (s.pin p) (t.pin p) ∧ EventRule (s.pin p) (t.pin p))
          ∧ (¬ (p = pinA.toNat ∨ p = pinB.toNat) → t.pin p = s.pin p)

/-- R195: Poll of an encoder with two valid pins: the first transaction samples A, the second B (whatever happened in
between); the raw value shifts, the count takes the table's entry, or FT4 when the sum leaves the signed range.  Where the
pins are the same and changed between the two samples, R194 says that A and B are equal; that they then differ here is the
model's choice (log 25). -/
def Obligations.PollSamplesShiftsAndCounts : Prop :=
  ∀ (s : State) (e : Word) (raw : BitVec 4) (count : BitVec 32), encsWf 0 s.encs = true →
    (s.enc e).raw = some raw → (s.enc e).count = some count →
    (s.enc e).pinA.toNat < 54 → (s.enc e).pinB.toNat < 54 →
    (s.host.pos = 0 →
      ∃ t, exec (.qdecPoll e) s = .next t ∧ Ongoing s t ∧ BlockSame s t ∧ t.host.pos = 1
        ∧ t.host.locals.a = (s.pin (s.enc e).pinA.toNat).lev)
    ∧ (s.host.pos = 1 →
      ∃ raw' : BitVec 4, raw'.getLsbD 3 = raw.getLsbD 1 ∧ raw'.getLsbD 2 = raw.getLsbD 0
        ∧ raw'.getLsbD 1 = s.host.locals.a ∧ raw'.getLsbD 0 = (s.pin (s.enc e).pinB.toNat).lev
        ∧ (-2 ^ 31 ≤ count.toInt + transition raw' ∧ count.toInt + transition raw' ≤ 2 ^ 31 - 1 →
            ∃ (t : State) (count' : BitVec 32), exec (.qdecPoll e) s = .next t ∧ Completed s t none
              ∧ t.params = s.params ∧ t.pins = s.pins ∧ t.spi = s.spi ∧ t.stop = s.stop ∧ t.turn = s.turn
              ∧ t.enc e = { s.enc e with raw := some raw', count := some count' }
              ∧ count'.toInt = count.toInt + transition raw' ∧ ∀ e', e' ≠ e → t.enc e' = s.enc e')
        ∧ (¬ (-2 ^ 31 ≤ count.toInt + transition raw' ∧ count.toInt + transition raw' ≤ 2 ^ 31 - 1) →
            exec (.qdecPoll e) s = .fault (.countOverflow e raw' count (transition raw'))))

/-- R194, R195, R111: Poll of an encoder one of whose pins is invalid samples, shifts and counts in one step, that pin's
sample being 0, or raises FT4 when the sum leaves the signed range; Poll before Initialize is refused RF5. -/
def Obligations.PollWithInvalidPinOrUninitialised : Prop :=
  ∀ (s : State) (e : Word),
    ((s.enc e).raw = none → exec (.qdecPoll e) s = .refused (.qdecUninitialised e))
    ∧ ∀ (raw : BitVec 4) (count : BitVec 32), encsWf 0 s.encs = true → s.host.pos = 0 →
      (s.enc e).raw = some raw → (s.enc e).count = some count →
      (54 ≤ (s.enc e).pinA.toNat ∨ 54 ≤ (s.enc e).pinB.toNat) →
      ∃ raw' : BitVec 4, raw'.getLsbD 3 = raw.getLsbD 1 ∧ raw'.getLsbD 2 = raw.getLsbD 0
        ∧ raw'.getLsbD 1 = (decide ((s.enc e).pinA.toNat < 54) && (s.pin (s.enc e).pinA.toNat).lev)
        ∧ raw'.getLsbD 0 = (decide ((s.enc e).pinB.toNat < 54) && (s.pin (s.enc e).pinB.toNat).lev)
        ∧ (-2 ^ 31 ≤ count.toInt + transition raw' ∧ count.toInt + transition raw' ≤ 2 ^ 31 - 1 →
            ∃ (t : State) (count' : BitVec 32), exec (.qdecPoll e) s = .next t ∧ Completed s t none
              ∧ t.params = s.params ∧ t.pins = s.pins ∧ t.spi = s.spi ∧ t.stop = s.stop ∧ t.turn = s.turn
              ∧ t.enc e = { s.enc e with raw := some raw', count := some count' }
              ∧ count'.toInt = count.toInt + transition raw' ∧ ∀ e', e' ≠ e → t.enc e' = s.enc e')
        ∧ (¬ (-2 ^ 31 ≤ count.toInt + transition raw' ∧ count.toInt + transition raw' ≤ 2 ^ 31 - 1) →
            exec (.qdecPoll e) s = .fault (.countOverflow e raw' count (transition raw')))

/-- R196, R195, R194: whatever step the machine takes, an encoder's count changes by -1, 0 or +1, except where Initialize
zeroes it. -/
def Obligations.CountMovesByAtMostOne : Prop :=
  ∀ (s t : State) (e : Word) (c c' : BitVec 32), encsWf 0 s.encs = true → step s = .next t →
    (s.enc e).count = some c → (t.enc e).count = some c' →
    c'.toInt = c.toInt ∨ c'.toInt = c.toInt + 1 ∨ c'.toInt = c.toInt - 1
      ∨ (c' = 0 ∧ ∃ a b, s.fetch = .item (.qdecInitialize e a b))

/-! ## The parameters -/

/-- R9, R88, R89, R90, R94: the parameters at reset, each at the spec's default; the default register tables are well
formed. -/
def Obligations.DefaultParametersAreTheSpecs : Prop :=
  State.reset.params = .defaults ∧ Params.defaults.wf
    ∧ (∀ n : Fin 6, (Src.gpfsel n).addr .defaults = 0x3F200000 + BitVec.ofNat 32 (4 * n.val)
        ∧ (Dst.gpfsel n).addr .defaults = 0x3F200000 + BitVec.ofNat 32 (4 * n.val))
    ∧ (∀ n : Fin 2, (Dst.gpset n).addr .defaults = 0x3F20001C + BitVec.ofNat 32 (4 * n.val)
        ∧ (Dst.gpclr n).addr .defaults = 0x3F200028 + BitVec.ofNat 32 (4 * n.val)
        ∧ (Src.gplev n).addr .defaults = 0x3F200034 + BitVec.ofNat 32 (4 * n.val)
        ∧ ∀ x ∈ [(Src.gpeds n, Dst.gpeds n, 0x3F200040#32), (.gpren n, .gpren n, 0x3F20004C),
            (.gpfen n, .gpfen n, 0x3F200058)],
          x.1.addr .defaults = x.2.2 + BitVec.ofNat 32 (4 * n.val)
            ∧ x.2.1.addr .defaults = x.2.2 + BitVec.ofNat 32 (4 * n.val))
    ∧ (∀ x ∈ [(Src.cs, Dst.cs, 0x3F204000#32), (.fifo, .fifo, 0x3F204004), (.clk, .clk, 0x3F204008)],
        x.1.addr .defaults = x.2.2 ∧ x.2.1.addr .defaults = x.2.2)
    ∧ Params.defaults.csBits =
        { cs := 0, cpha := 2, cpol := 3, clearTx := 4, clearRx := 5, cspol := 6, ta := 7, dmaen := 8, intd := 9, intr := 10,
          adcs := 11, renb := 12, len := 13, lmono := 14, teEn := 15, done := 16, rxd := 17, txd := 18, rxr := 19, rxf := 20,
          cspol0 := 21, cspol1 := 22, cspol2 := 23, dmaLen := 24, lenLong := 25 }
    ∧ Params.defaults.spi0Layout.fifoData = 0 ∧ Params.defaults.spi0Layout.cdiv = 0
    ∧ Params.defaults.fifoDepth = 16 ∧ Params.defaults.rxFullPolicy = .stall ∧ Params.defaults.rxrThreshold = 12
    ∧ Params.defaults.spi0Pins = [7, 8, 9, 10, 11] ∧ Params.defaults.spi0PinMode = 4
    ∧ Params.defaults.edsClearStyle = .orRmw
end

