-- ==== Sys2Proof/Laws/Bits.lean ====
section
/-! SUPPORT. The bits of the words the rules assemble: reads, merges, masks and mode fields. -/

namespace Sys2Proof.Laws

open Sys2Proof.Machine

@[simp] theorem getLsbD_ofBits (n : Nat) (f : Nat → Bool) (i : Nat) :
    (ofBits n f).getLsbD i = (decide (i < n) && f i) := by
  induction n with
  | zero => simp [ofBits]
  | succ n ih =>
    simp only [ofBits, BitVec.getLsbD_cons, ih]
    by_cases h : i = n
    · simp [h]
    · have : i < n + 1 ↔ i < n := by omega
      simp [h, this]

@[simp] theorem getElem_ofBits (n : Nat) (f : Nat → Bool) (i : Nat) (h : i < n) : (ofBits n f)[i] = f i := by
  rw [← BitVec.getLsbD_eq_getElem h]
  simp only [getLsbD_ofBits, h, decide_true, Bool.true_and]

/-- Bit `i` of the value a read returns is the bit the register's rule gives. -/
theorem readReg_getLsbD (s : State) (r : Src) (i : Nat) (h : i < 32) : (s.readReg r).getLsbD i = s.readBit r i := by
  simp only [State.readReg, getLsbD_ofBits, h, decide_true, Bool.true_and]

theorem readByte_getLsbD (s : State) (i : Nat) (h : i < 8) :
    s.readByte.getLsbD i = s.readBit .fifo (s.params.spi0Layout.fifoData + i) := by
  simp only [State.readByte, getLsbD_ofBits, h, decide_true, Bool.true_and]

theorem getLsbD_merge (old clr set : Word) (i : Nat) :
    (merge old clr set).getLsbD i = (decide (i < 32) && (old.getLsbD i && !clr.getLsbD i || set.getLsbD i)) := by
  by_cases h : i < 32
  · simp [merge, h]
  · simp [merge, BitVec.getLsbD_of_ge _ _ (Nat.le_of_not_lt h)]

theorem getLsbD_pinMask (pin : Word) (i : Nat) (h : i < 32) : (pinMask pin).getLsbD i = decide (i = bankBit pin) := by
  have hb : bankBit pin < 32 := Nat.mod_lt _ (by decide)
  simp only [pinMask, BitVec.getLsbD_shiftLeft, h, decide_true, Bool.true_and, BitVec.getLsbD_one]
  by_cases hi : i = bankBit pin
  · simp [hi]
  · simp [hi]
    omega

/-- The mode field SetPinMode writes (R127): the new mode in the pin's own field, every other field as it was read. -/
theorem merge_mode_field (old pin mode : Word) (k : Nat) (hm : mode.toNat ≤ 7) (hk : k < 10) :
    (merge old (modeClear pin) (modeSet pin mode)).extractLsb' (k * 3) 3
      = if k = pin.toNat % 10 then mode.setWidth 3 else old.extractLsb' (k * 3) 3 := by
  have hmode : ∀ j, 3 ≤ j → mode.getLsbD j = false := by
    intro j hj
    apply Nat.testBit_lt_two_pow
    calc mode.toNat < 2 ^ 3 := by omega
      _ ≤ 2 ^ j := Nat.pow_le_pow_right (by decide) hj
  have h7 : ∀ j : Nat, (7#32).getLsbD j = decide (j < 3) := by
    intro j
    by_cases h : j < 32
    · revert j; decide
    · rw [BitVec.getLsbD_of_ge _ _ (by omega)]; simp; omega
  have hs : pin.toNat % 10 < 10 := Nat.mod_lt _ (by decide)
  apply BitVec.eq_of_getLsbD_eq
  intro i hi
  have hpos : k * 3 + i < 32 := by omega
  simp only [BitVec.getLsbD_extractLsb', hi, decide_true, Bool.true_and, getLsbD_merge, hpos, modeClear, modeSet,
    BitVec.getLsbD_shiftLeft, fselShift, h7]
  by_cases hkp : k = pin.toNat % 10
  · subst hkp
    have h1 : ¬ (pin.toNat % 10 * 3 + i < pin.toNat % 10 * 3) := by omega
    have h2 : pin.toNat % 10 * 3 + i - pin.toNat % 10 * 3 = i := by omega
    simp [h2, hi]
  · rw [if_neg hkp]
    simp only [BitVec.getLsbD_extractLsb', hi, decide_true, Bool.true_and]
    by_cases hlt : k < pin.toNat % 10
    · have h1 : k * 3 + i < pin.toNat % 10 * 3 := by omega
      simp [h1]
    · have h1 : ¬ (k * 3 + i < pin.toNat % 10 * 3) := by omega
      have h2 : 3 ≤ k * 3 + i - pin.toNat % 10 * 3 := by omega
      have h3 : ¬ (k * 3 + i - pin.toNat % 10 * 3 < 3) := by omega
      simp [h3, hmode _ h2]

end Sys2Proof.Laws
end

