-- ==== Sys2Proof/Laws/Pins.lean ====
section
/-! SUPPORT. What the register writes do to one pin, and what the register reads return for one pin. -/

namespace Sys2Proof.Laws

open Sys2Proof.Machine

/-- One pin after a change of every pin by its own rule. -/
theorem pinAt_mapPins (f : Nat → Pin → Pin) (pins : Vector Pin 54) (p : Nat) (h : p < 54) :
    pinAt (mapPins f pins) p = f p (pinAt pins p) := by
  simp [pinAt, mapPins, h]

/-- Two vectors of pins that agree at every pin are equal. -/
theorem pins_ext (v w : Vector Pin 54) (h : ∀ p, p < 54 → pinAt v p = pinAt w p) : v = w := by
  apply Vector.ext
  intro i hi
  simpa [pinAt, hi] using h i hi

theorem pinAt_writeGpfsel (n : Fin 6) (d : Word) (pins : Vector Pin 54) (p : Nat) (h : p < 54) :
    pinAt (writeGpfsel n d pins) p
      = if p / 10 = n.val then
          Pin.detect (pinAt pins p).lev { pinAt pins p with fsel := d.extractLsb' (p % 10 * 3) 3 }
        else pinAt pins p :=
  pinAt_mapPins _ pins p h

theorem pinAt_writeBank (f : Bool → Pin → Pin) (n : Fin 2) (d : Word) (pins : Vector Pin 54) (p : Nat) (h : p < 54) :
    pinAt (writeBank f n d pins) p
      = if p / 32 = n.val then f (d.getLsbD (p % 32)) (pinAt pins p) else pinAt pins p :=
  pinAt_mapPins _ pins p h

theorem pinAt_padStep (q : Fin 54) (level : Bool) (s : State) (p : Nat) (h : p < 54) :
    (padStep q level s).pin p
      = if p = q.val then Pin.detect (s.pin p).lev { s.pin p with ext := level } else s.pin p :=
  pinAt_mapPins _ s.pins p h

theorem fselReg_val (pin : Word) (h : validPin pin) : (fselReg pin).val = pin.toNat / 10 := by
  simp only [fselReg, Fin.ofNat]
  omega

theorem bankOf_val (pin : Word) (h : validPin pin) : (bankOf pin).val = pin.toNat / 32 := by
  simp only [bankOf, Fin.ofNat]
  omega

/-- Bit `3k + j` of a GPFSELn read is bit `j` of the mode of pin `10n + k` (R114). -/
theorem gpfselBit_pin (n : Fin 6) (pins : Vector Pin 54) (x : Word) (p j : Nat) (hp : p < 54) (hn : p / 10 = n.val)
    (hj : j < 3) : gpfselBit n pins x (p % 10 * 3 + j) = (pinAt pins p).fsel.getLsbD j := by
  have h1 : p % 10 * 3 + j < 30 := by omega
  have h2 : (p % 10 * 3 + j) / 3 = p % 10 := by omega
  have h3 : (p % 10 * 3 + j) % 3 = j := by omega
  have h4 : 10 * n.val + p % 10 = p := by omega
  have h5 : p ≤ 53 := by omega
  simp [gpfselBit, h1, h2, h3, h4, h5]

/-- Bit `p mod 32` of a banked read is the pin's own bit (R93). -/
theorem bankReadBit_pin (f : Pin → Bool) (n : Fin 2) (pins : Vector Pin 54) (x : Word) (p : Nat) (hp : p < 54)
    (hn : p / 32 = n.val) : bankReadBit f n pins x (p % 32) = f (pinAt pins p) := by
  have h4 : 32 * n.val + p % 32 = p := by omega
  have h5 : p ≤ 53 := by omega
  simp [bankReadBit, h4, h5]

/-- The mode field of a pin in the value a GPFSELn read returns (R114). -/
theorem readReg_gpfsel_field (s : State) (n : Fin 6) (p : Nat) (hp : p < 54) (hn : p / 10 = n.val) :
    (s.readReg (.gpfsel n)).extractLsb' (p % 10 * 3) 3 = (s.pin p).fsel := by
  apply BitVec.eq_of_getLsbD_eq
  intro i hi
  have h : p % 10 * 3 + i < 32 := by omega
  simp only [BitVec.getLsbD_extractLsb', hi, decide_true, Bool.true_and, readReg_getLsbD s _ _ h]
  exact gpfselBit_pin n s.pins _ p i hp hn hi

/-- Detection changes the event flag alone. -/
@[simp] theorem detect_fsel (b : Bool) (p : Pin) : (Pin.detect b p).fsel = p.fsel := rfl
@[simp] theorem detect_latch (b : Bool) (p : Pin) : (Pin.detect b p).latch = p.latch := rfl
@[simp] theorem detect_ext (b : Bool) (p : Pin) : (Pin.detect b p).ext = p.ext := rfl
@[simp] theorem detect_ren (b : Bool) (p : Pin) : (Pin.detect b p).ren = p.ren := rfl
@[simp] theorem detect_fen (b : Bool) (p : Pin) : (Pin.detect b p).fen = p.fen := rfl
@[simp] theorem detect_lev (b : Bool) (p : Pin) : (Pin.detect b p).lev = p.lev := rfl

end Sys2Proof.Laws
end

