-- ==== Sys2Proof/Laws/State.lean ====
section
/-! SUPPORT. One lemma per field per update of the state, so that no proof unfolds a record update. -/

namespace Sys2Proof.Laws

open Sys2Proof.Machine

variable (s : State)

@[simp] theorem setPins_params (v : Vector Pin 54) : (s.setPins v).params = s.params := rfl
@[simp] theorem setPins_pins (v : Vector Pin 54) : (s.setPins v).pins = v := rfl
@[simp] theorem setPins_spi (v : Vector Pin 54) : (s.setPins v).spi = s.spi := rfl
@[simp] theorem setPins_encs (v : Vector Pin 54) : (s.setPins v).encs = s.encs := rfl
@[simp] theorem setPins_host (v : Vector Pin 54) : (s.setPins v).host = s.host := rfl
@[simp] theorem setPins_stop (v : Vector Pin 54) : (s.setPins v).stop = s.stop := rfl
@[simp] theorem setPins_turn (v : Vector Pin 54) : (s.setPins v).turn = s.turn := rfl
@[simp] theorem setPins_draws (v : Vector Pin 54) : (s.setPins v).draws = s.draws := rfl

@[simp] theorem setSpi_params (v : Spi) : (s.setSpi v).params = s.params := rfl
@[simp] theorem setSpi_pins (v : Spi) : (s.setSpi v).pins = s.pins := rfl
@[simp] theorem setSpi_spi (v : Spi) : (s.setSpi v).spi = v := rfl
@[simp] theorem setSpi_encs (v : Spi) : (s.setSpi v).encs = s.encs := rfl
@[simp] theorem setSpi_host (v : Spi) : (s.setSpi v).host = s.host := rfl
@[simp] theorem setSpi_stop (v : Spi) : (s.setSpi v).stop = s.stop := rfl
@[simp] theorem setSpi_turn (v : Spi) : (s.setSpi v).turn = s.turn := rfl
@[simp] theorem setSpi_draws (v : Spi) : (s.setSpi v).draws = s.draws := rfl

@[simp] theorem setHost_params (v : HostAgent) : (s.setHost v).params = s.params := rfl
@[simp] theorem setHost_pins (v : HostAgent) : (s.setHost v).pins = s.pins := rfl
@[simp] theorem setHost_spi (v : HostAgent) : (s.setHost v).spi = s.spi := rfl
@[simp] theorem setHost_encs (v : HostAgent) : (s.setHost v).encs = s.encs := rfl
@[simp] theorem setHost_host (v : HostAgent) : (s.setHost v).host = v := rfl
@[simp] theorem setHost_stop (v : HostAgent) : (s.setHost v).stop = s.stop := rfl
@[simp] theorem setHost_turn (v : HostAgent) : (s.setHost v).turn = s.turn := rfl
@[simp] theorem setHost_draws (v : HostAgent) : (s.setHost v).draws = s.draws := rfl

@[simp] theorem setTurn_params (v : Move) : (s.setTurn v).params = s.params := rfl
@[simp] theorem setTurn_pins (v : Move) : (s.setTurn v).pins = s.pins := rfl
@[simp] theorem setTurn_spi (v : Move) : (s.setTurn v).spi = s.spi := rfl
@[simp] theorem setTurn_encs (v : Move) : (s.setTurn v).encs = s.encs := rfl
@[simp] theorem setTurn_host (v : Move) : (s.setTurn v).host = s.host := rfl
@[simp] theorem setTurn_stop (v : Move) : (s.setTurn v).stop = s.stop := rfl
@[simp] theorem setTurn_turn (v : Move) : (s.setTurn v).turn = v := rfl
@[simp] theorem setTurn_draws (v : Move) : (s.setTurn v).draws = s.draws := rfl

@[simp] theorem bump_params : (s.bump).params = s.params := rfl
@[simp] theorem bump_pins : (s.bump).pins = s.pins := rfl
@[simp] theorem bump_spi : (s.bump).spi = s.spi := rfl
@[simp] theorem bump_encs : (s.bump).encs = s.encs := rfl
@[simp] theorem bump_host : (s.bump).host = s.host := rfl
@[simp] theorem bump_stop : (s.bump).stop = s.stop := rfl
@[simp] theorem bump_turn : (s.bump).turn = s.turn := rfl
@[simp] theorem bump_draws : (s.bump).draws = s.draws + 1 := rfl

@[simp] theorem redraw_params : (s.redraw).params = s.params := rfl
@[simp] theorem redraw_pins : (s.redraw).pins = s.pins := rfl
@[simp] theorem redraw_spi : (s.redraw).spi = s.spi := rfl
@[simp] theorem redraw_encs : (s.redraw).encs = s.encs := rfl
@[simp] theorem redraw_host : (s.redraw).host = s.host := rfl
@[simp] theorem redraw_stop : (s.redraw).stop = s.stop := rfl
@[simp] theorem redraw_turn : (s.redraw).turn = Config.move s.draws := rfl
@[simp] theorem redraw_draws : (s.redraw).draws = s.draws + 1 := rfl

@[simp] theorem setEnc_params (e : Word) (d : Encoder) : (s.setEnc e d).params = s.params := rfl
@[simp] theorem setEnc_pins (e : Word) (d : Encoder) : (s.setEnc e d).pins = s.pins := rfl
@[simp] theorem setEnc_spi (e : Word) (d : Encoder) : (s.setEnc e d).spi = s.spi := rfl
@[simp] theorem setEnc_encs (e : Word) (d : Encoder) : (s.setEnc e d).encs = encInsert e.toNat d s.encs := rfl
@[simp] theorem setEnc_host (e : Word) (d : Encoder) : (s.setEnc e d).host = s.host := rfl
@[simp] theorem setEnc_stop (e : Word) (d : Encoder) : (s.setEnc e d).stop = s.stop := rfl
@[simp] theorem setEnc_turn (e : Word) (d : Encoder) : (s.setEnc e d).turn = s.turn := rfl
@[simp] theorem setEnc_draws (e : Word) (d : Encoder) : (s.setEnc e d).draws = s.draws := rfl

@[simp] theorem setEncPins_params (e a b : Word) : (s.setEncPins e a b).params = s.params := rfl
@[simp] theorem setEncPins_pins (e a b : Word) : (s.setEncPins e a b).pins = s.pins := rfl
@[simp] theorem setEncPins_spi (e a b : Word) : (s.setEncPins e a b).spi = s.spi := rfl
@[simp] theorem setEncPins_encs (e a b : Word) : (s.setEncPins e a b).encs = encInsert e.toNat { s.enc e with pinA := a, pinB := b } s.encs := rfl
@[simp] theorem setEncPins_host (e a b : Word) : (s.setEncPins e a b).host = s.host := rfl
@[simp] theorem setEncPins_stop (e a b : Word) : (s.setEncPins e a b).stop = s.stop := rfl
@[simp] theorem setEncPins_turn (e a b : Word) : (s.setEncPins e a b).turn = s.turn := rfl
@[simp] theorem setEncPins_draws (e a b : Word) : (s.setEncPins e a b).draws = s.draws := rfl

@[simp] theorem setPos_params (v : Nat) : (s.setPos v).params = s.params := rfl
@[simp] theorem setPos_pins (v : Nat) : (s.setPos v).pins = s.pins := rfl
@[simp] theorem setPos_spi (v : Nat) : (s.setPos v).spi = s.spi := rfl
@[simp] theorem setPos_encs (v : Nat) : (s.setPos v).encs = s.encs := rfl
@[simp] theorem setPos_stop (v : Nat) : (s.setPos v).stop = s.stop := rfl
@[simp] theorem setPos_turn (v : Nat) : (s.setPos v).turn = s.turn := rfl
@[simp] theorem setPos_draws (v : Nat) : (s.setPos v).draws = s.draws := rfl
@[simp] theorem setPos_prog (v : Nat) : (s.setPos v).host.prog = s.host.prog := rfl
@[simp] theorem setPos_ip (v : Nat) : (s.setPos v).host.ip = s.host.ip := rfl
@[simp] theorem setPos_pos (v : Nat) : (s.setPos v).host.pos = v := rfl
@[simp] theorem setPos_locals (v : Nat) : (s.setPos v).host.locals = s.host.locals := rfl
@[simp] theorem setPos_result (v : Nat) : (s.setPos v).host.result = s.host.result := rfl

@[simp] theorem setLocals_params (v : Locals) : (s.setLocals v).params = s.params := rfl
@[simp] theorem setLocals_pins (v : Locals) : (s.setLocals v).pins = s.pins := rfl
@[simp] theorem setLocals_spi (v : Locals) : (s.setLocals v).spi = s.spi := rfl
@[simp] theorem setLocals_encs (v : Locals) : (s.setLocals v).encs = s.encs := rfl
@[simp] theorem setLocals_stop (v : Locals) : (s.setLocals v).stop = s.stop := rfl
@[simp] theorem setLocals_turn (v : Locals) : (s.setLocals v).turn = s.turn := rfl
@[simp] theorem setLocals_draws (v : Locals) : (s.setLocals v).draws = s.draws := rfl
@[simp] theorem setLocals_prog (v : Locals) : (s.setLocals v).host.prog = s.host.prog := rfl
@[simp] theorem setLocals_ip (v : Locals) : (s.setLocals v).host.ip = s.host.ip := rfl
@[simp] theorem setLocals_pos (v : Locals) : (s.setLocals v).host.pos = s.host.pos := rfl
@[simp] theorem setLocals_locals (v : Locals) : (s.setLocals v).host.locals = v := rfl
@[simp] theorem setLocals_result (v : Locals) : (s.setLocals v).host.result = s.host.result := rfl

@[simp] theorem advance_params : (s.advance).params = s.params := rfl
@[simp] theorem advance_pins : (s.advance).pins = s.pins := rfl
@[simp] theorem advance_spi : (s.advance).spi = s.spi := rfl
@[simp] theorem advance_encs : (s.advance).encs = s.encs := rfl
@[simp] theorem advance_stop : (s.advance).stop = s.stop := rfl
@[simp] theorem advance_turn : (s.advance).turn = s.turn := rfl
@[simp] theorem advance_draws : (s.advance).draws = s.draws := rfl
@[simp] theorem advance_prog : (s.advance).host.prog = s.host.prog := rfl
@[simp] theorem advance_ip : (s.advance).host.ip = s.host.ip := rfl
@[simp] theorem advance_pos : (s.advance).host.pos = s.host.pos + 1 := rfl
@[simp] theorem advance_locals : (s.advance).host.locals = s.host.locals := rfl
@[simp] theorem advance_result : (s.advance).host.result = s.host.result := rfl

@[simp] theorem finish_params (v : Option Ret) : (s.finish v).params = s.params := rfl
@[simp] theorem finish_pins (v : Option Ret) : (s.finish v).pins = s.pins := rfl
@[simp] theorem finish_spi (v : Option Ret) : (s.finish v).spi = s.spi := rfl
@[simp] theorem finish_encs (v : Option Ret) : (s.finish v).encs = s.encs := rfl
@[simp] theorem finish_stop (v : Option Ret) : (s.finish v).stop = s.stop := rfl
@[simp] theorem finish_turn (v : Option Ret) : (s.finish v).turn = s.turn := rfl
@[simp] theorem finish_draws (v : Option Ret) : (s.finish v).draws = s.draws := rfl
@[simp] theorem finish_prog (v : Option Ret) : (s.finish v).host.prog = s.host.prog := rfl
@[simp] theorem finish_ip (v : Option Ret) : (s.finish v).host.ip = s.host.ip + 1 := rfl
@[simp] theorem finish_pos (v : Option Ret) : (s.finish v).host.pos = 0 := rfl
@[simp] theorem finish_locals (v : Option Ret) : (s.finish v).host.locals = .start := rfl
@[simp] theorem finish_result (v : Option Ret) : (s.finish v).host.result = v := rfl

end Sys2Proof.Laws
end

