-- ==== Sys2Proof/Laws/Bus.lean ====
section
/-! SUPPORT. What one register access can do: a read changes the free-value counter and, for the FIFO, the RX queue; a write
changes the pins or the controller. -/

namespace Sys2Proof.Laws

open Sys2Proof.Machine

variable (s : State) (r : Src)

@[simp] theorem afterRead_params : (s.afterRead r).params = s.params := by cases r <;> rfl
@[simp] theorem afterRead_pins : (s.afterRead r).pins = s.pins := by cases r <;> rfl
@[simp] theorem afterRead_encs : (s.afterRead r).encs = s.encs := by cases r <;> rfl
@[simp] theorem afterRead_host : (s.afterRead r).host = s.host := by cases r <;> rfl
@[simp] theorem afterRead_stop : (s.afterRead r).stop = s.stop := by cases r <;> rfl
@[simp] theorem afterRead_turn : (s.afterRead r).turn = s.turn := by cases r <;> rfl
@[simp] theorem afterRead_draws : (s.afterRead r).draws = s.draws + 1 := by cases r <;> rfl

/-- Only a FIFO read has a side effect (R68). -/
theorem afterRead_spi : (s.afterRead r).spi = if r = .fifo then popRx s.spi else s.spi := by cases r <;> rfl

@[simp] theorem readInto_params : (s.readInto r).params = s.params := by simp [State.readInto]
@[simp] theorem readInto_pins : (s.readInto r).pins = s.pins := by simp [State.readInto]
@[simp] theorem readInto_encs : (s.readInto r).encs = s.encs := by simp [State.readInto]
@[simp] theorem readInto_stop : (s.readInto r).stop = s.stop := by simp [State.readInto]
@[simp] theorem readInto_turn : (s.readInto r).turn = s.turn := by simp [State.readInto]
@[simp] theorem readInto_prog : (s.readInto r).host.prog = s.host.prog := by simp [State.readInto]
@[simp] theorem readInto_ip : (s.readInto r).host.ip = s.host.ip := by simp [State.readInto]
@[simp] theorem readInto_pos : (s.readInto r).host.pos = s.host.pos := by simp [State.readInto]
@[simp] theorem readInto_result : (s.readInto r).host.result = s.host.result := by simp [State.readInto]
@[simp] theorem readInto_locals : (s.readInto r).host.locals = { s.host.locals with v := s.readReg r } := by
  simp [State.readInto]
theorem readInto_spi : (s.readInto r).spi = if r = .fifo then popRx s.spi else s.spi := by
  simp [State.readInto, afterRead_spi]

/-- A read other than the FIFO's leaves the controller alone. -/
@[simp] theorem readInto_spi_of_ne (h : r ≠ .fifo) : (s.readInto r).spi = s.spi := by simp [readInto_spi, h]

@[simp] theorem andThen_next (t : State) (f : State → Outcome) : andThen (.next t) f = f t := rfl
@[simp] theorem andThen_fault (e : Fault) (f : State → Outcome) : andThen (.fault e) f = .fault e := rfl
@[simp] theorem andThen_refused (e : Refusal) (f : State → Outcome) : andThen (.refused e) f = .refused e := rfl

/-- A sequence that answers a next state passed through one. -/
theorem andThen_eq_next (o : Outcome) (f : State → Outcome) (t : State) (h : andThen o f = .next t) :
    ∃ u, o = .next u ∧ f u = .next t := by
  cases o with
  | next u => exact ⟨u, rfl, h⟩
  | fault e => cases h
  | refused e => cases h

/-- A CS write answers a next state in exactly these cases, and then stores these fields (R142). -/
theorem writeCs_eq_next (d : Word) (s t : State) :
    writeCs d s = .next t ↔
      ¬ csRefused s.params.csBits d ∧ ¬ csClearsShift s.params.csBits d s.spi
        ∧ ¬ csAborts s.params.csBits d (csCleared s.params.csBits d s.spi)
        ∧ t = s.setSpi (storeCs s.params.csBits d (csCleared s.params.csBits d s.spi)) := by
  simp only [writeCs]
  split_ifs with h1 h2 h3
  · exact ⟨nofun, fun h => absurd h1 h.1⟩
  · exact ⟨nofun, fun h => absurd h2 h.2.1⟩
  · exact ⟨nofun, fun h => absurd h3 h.2.2.1⟩
  · simp only [Host.Outcome.next.injEq]
    exact ⟨fun h => ⟨h1, h2, h3, h.symm⟩, fun h => h.2.2.2.symm⟩

/-- A FIFO write answers a next state exactly with TA = 1 and room (R147). -/
theorem writeFifo_eq_next (d : Word) (s t : State) :
    writeFifo d s = .next t ↔
      s.spi.ta = true ∧ s.spi.txq.length ≠ s.params.fifoDepth
        ∧ t = s.setSpi { s.spi with txq := s.spi.txq ++ [fifoByte s.params.spi0Layout d] } := by
  simp only [writeFifo]
  split_ifs with h1 h2
  · simp [h1]
  · simp [h2]
  · simp only [Host.Outcome.next.injEq]
    exact ⟨fun h => ⟨by simpa using h1, h2, h.symm⟩, fun h => h.2.2.symm⟩

/-- What a register write can do: it changes the pins or the controller, nothing else. -/
theorem writeReg_frame (r : Dst) (d : Word) (s t : State) (h : writeReg r d s = .next t) :
    t.params = s.params ∧ t.encs = s.encs ∧ t.host = s.host ∧ t.stop = s.stop ∧ t.turn = s.turn ∧ t.draws = s.draws := by
  cases r <;> simp only [writeReg, Host.Outcome.next.injEq] at h
  case cs => obtain ⟨-, -, -, rfl⟩ := (writeCs_eq_next d s t).1 h; simp
  case fifo => obtain ⟨-, -, rfl⟩ := (writeFifo_eq_next d s t).1 h; simp
  all_goals subst h; simp

end Sys2Proof.Laws
end

