-- ==== Sys2Proof/Laws/Encoders.lean ====
section
/-! SUPPORT. The encoder table: a read after a write, and the canonical form every write keeps. -/

namespace Sys2Proof.Laws

open Sys2Proof.Machine

/-- A table that starts at `lo` or above lists nothing below it. -/
theorem encLookup_below (k lo : Nat) (t : List (Nat × Encoder)) (h : encsWf lo t = true) (hk : k < lo) :
    encLookup k t = .uninit := by
  induction t generalizing lo with
  | nil => rfl
  | cons x rest ih =>
    obtain ⟨j, e⟩ := x
    simp only [encsWf, Bool.and_eq_true, decide_eq_true_eq] at h
    obtain ⟨⟨h1, -⟩, h3⟩ := h
    simp only [encLookup]
    rw [if_neg (by omega)]
    exact ih (j + 1) h3 (by omega)

/-- A larger lower bound is a stronger canonical form. -/
theorem encsWf_mono (lo lo' : Nat) (t : List (Nat × Encoder)) (h : encsWf lo t = true) (hl : lo' ≤ lo) :
    encsWf lo' t = true := by
  cases t with
  | nil => rfl
  | cons x rest =>
    obtain ⟨j, e⟩ := x
    simp only [encsWf, Bool.and_eq_true, decide_eq_true_eq] at h ⊢
    exact ⟨⟨by omega, h.1.2⟩, h.2⟩

/-- Every write keeps the canonical form. -/
theorem encsWf_insert (k lo : Nat) (e : Encoder) (t : List (Nat × Encoder)) (h : encsWf lo t = true) (hk : lo ≤ k) :
    encsWf lo (encInsert k e t) = true := by
  induction t generalizing lo with
  | nil =>
    simp only [encInsert]
    split
    · rfl
    · simp_all [encsWf]
  | cons x rest ih =>
    obtain ⟨j, d⟩ := x
    simp only [encsWf, Bool.and_eq_true, decide_eq_true_eq] at h
    obtain ⟨⟨h1, h2⟩, h3⟩ := h
    simp only [encInsert]
    split_ifs with hlt he heq he
    · simp [encsWf, h1, h2, h3]
    · simp only [encsWf, Bool.and_eq_true, decide_eq_true_eq]
      exact ⟨⟨hk, he⟩, ⟨by omega, h2⟩, h3⟩
    · exact encsWf_mono (j + 1) lo rest h3 (by omega)
    · simp only [encsWf, Bool.and_eq_true, decide_eq_true_eq]
      exact ⟨⟨hk, he⟩, encsWf_mono (j + 1) (k + 1) rest h3 (by omega)⟩
    · simp only [encsWf, Bool.and_eq_true, decide_eq_true_eq]
      exact ⟨⟨h1, h2⟩, ih (j + 1) h3 (by omega)⟩

/-- A read after a write to the same instance gives what was written. -/
theorem encLookup_insert_same (k lo : Nat) (e : Encoder) (t : List (Nat × Encoder)) (h : encsWf lo t = true) :
    encLookup k (encInsert k e t) = e := by
  induction t generalizing lo with
  | nil => by_cases he : e = .uninit <;> simp [encInsert, encLookup, he]
  | cons x rest ih =>
    obtain ⟨j, d⟩ := x
    simp only [encsWf, Bool.and_eq_true, decide_eq_true_eq] at h
    obtain ⟨⟨h1, h2⟩, h3⟩ := h
    simp only [encInsert]
    split_ifs with hlt he heq he
    · rw [he]
      have : encsWf j ((j, d) :: rest) = true := by simp [encsWf, h2, h3]
      exact encLookup_below k j _ this hlt
    · simp [encLookup]
    · rw [he]
      exact encLookup_below k (j + 1) rest h3 (by omega)
    · simp [encLookup]
    · simp only [encLookup]
      rw [if_neg (by omega)]
      exact ih (j + 1) h3

/-- A write leaves every other instance alone. -/
theorem encLookup_insert_other (k k' : Nat) (e : Encoder) (t : List (Nat × Encoder)) (hk : k' ≠ k) :
    encLookup k' (encInsert k e t) = encLookup k' t := by
  induction t with
  | nil =>
    by_cases he : e = .uninit
    · simp [encInsert, he]
    · simp [encInsert, encLookup, he, Ne.symm hk]
  | cons x rest ih =>
    obtain ⟨j, d⟩ := x
    simp only [encInsert]
    split_ifs with hlt he heq he
    · rfl
    · simp [encLookup, Ne.symm hk]
    · subst heq
      simp [encLookup, Ne.symm hk]
    · subst heq
      simp [encLookup, Ne.symm hk]
    · simp only [encLookup]
      split
      · rfl
      · exact ih

/-- What the table lists after a write is the new entry or was listed before. -/
theorem mem_encInsert (k : Nat) (e : Encoder) (t : List (Nat × Encoder)) (x : Nat × Encoder)
    (h : x ∈ encInsert k e t) : x = (k, e) ∨ x ∈ t := by
  induction t with
  | nil =>
    simp only [encInsert] at h
    split at h
    · simp at h
    · simp_all
  | cons y rest ih =>
    obtain ⟨j, d⟩ := y
    simp only [encInsert] at h
    split_ifs at h with hlt he heq he
    · exact .inr h
    · simpa using h
    · exact .inr (List.mem_cons_of_mem _ h)
    · rcases List.mem_cons.1 h with h | h
      · exact .inl h
      · exact .inr (List.mem_cons_of_mem _ h)
    · rcases List.mem_cons.1 h with h | h
      · exact .inr (h ▸ List.mem_cons_self)
      · exact (ih h).imp id (List.mem_cons_of_mem _)

/-- Instance `e` right after it is set. -/
theorem enc_setEnc_same (s : State) (e : Word) (d : Encoder) (h : encsWf 0 s.encs = true) : (s.setEnc e d).enc e = d :=
  encLookup_insert_same _ 0 d s.encs h

/-- Another instance after `e` is set. -/
theorem enc_setEnc_other (s : State) (e e' : Word) (d : Encoder) (h : e' ≠ e) : (s.setEnc e d).enc e' = s.enc e' :=
  encLookup_insert_other _ _ d s.encs (fun hn => h (BitVec.eq_of_toNat_eq hn))

end Sys2Proof.Laws
end

