-- ==== Sys2Proof/Laws/Script.lean ====
section
/-! SUPPORT. Scripts: which transaction a call runs, and what one transaction of an operation can do. -/

namespace Sys2Proof.Laws

open Sys2Proof.Machine

/-- A call in the middle of a script runs the transaction at `pos` and goes on. -/
theorem runScript_mid (acts : List Act) (fin : State → Outcome) (s t : State) (a : Act)
    (ha : acts[s.host.pos]? = some a) (ht : doAct a s = .next t) (hp : t.host.pos < acts.length) :
    runScript acts fin s = .next t := by
  simp [runScript, ha, ht, hp]

/-- A call at the last transaction of a script runs it and completes the operation. -/
theorem runScript_last (acts : List Act) (fin : State → Outcome) (s t : State) (a : Act)
    (ha : acts[s.host.pos]? = some a) (ht : doAct a s = .next t) (hp : acts.length ≤ t.host.pos) :
    runScript acts fin s = fin t := by
  simp [runScript, ha, ht, Nat.not_lt.2 hp]

/-- A script with nothing left completes at once. -/
theorem runScript_done (acts : List Act) (fin : State → Outcome) (s : State) (h : acts.length ≤ s.host.pos) :
    runScript acts fin s = fin s := by
  simp [runScript, List.getElem?_eq_none h]

/-- A transaction that stops stops the operation. -/
theorem runScript_fault (acts : List Act) (fin : State → Outcome) (s : State) (a : Act) (f : Fault)
    (ha : acts[s.host.pos]? = some a) (ht : doAct a s = .fault f) : runScript acts fin s = .fault f := by
  simp [runScript, ha, ht]

theorem runScript_refused (acts : List Act) (fin : State → Outcome) (s : State) (a : Act) (r : Refusal)
    (ha : acts[s.host.pos]? = some a) (ht : doAct a s = .refused r) : runScript acts fin s = .refused r := by
  simp [runScript, ha, ht]

@[simp] theorem finishPlain_eq (s : State) : finishPlain s = .next (s.finish none) := rfl

@[simp] theorem execN_zero (i : Instr) (s : State) : execN 0 i s = .next s := rfl

theorem execN_succ (k : Nat) (i : Instr) (s : State) : execN (k + 1) i s = andThen (exec i s) (execN k i) := rfl

/-- `j + k` transactions are `j` and then `k`. -/
theorem execN_add (j k : Nat) (i : Instr) (s t : State) (h : execN j i s = .next t) :
    execN (j + k) i s = execN k i t := by
  induction j generalizing s with
  | zero =>
    simp only [execN_zero, Host.Outcome.next.injEq] at h
    simp [h]
  | succ j ih =>
    rw [execN_succ] at h
    obtain ⟨u, hu, hk⟩ := andThen_eq_next _ _ _ h
    have : j + 1 + k = j + k + 1 := by omega
    rw [this, execN_succ, hu, andThen_next]
    exact ih u hk

end Sys2Proof.Laws
end

