-- ==== Sys2Proof/Laws/Effect.lean ====
section
/-! SUPPORT. Said once: everything a host step can do.  Invariants and whole-machine rules are derived from `exec_effect` and
`moveStep_effect`, not from the meanings. -/

namespace Sys2Proof.Laws

open Sys2Proof.Machine

/-- A change of the encoder table by writes that keep an encoder's raw value and count set together. -/
inductive EncChange (l : List (Nat × Encoder)) : List (Nat × Encoder) → Prop
  | same : EncChange l l
  | insert (k : Nat) (e : Encoder) (m : List (Nat × Encoder)) (hm : EncChange l m)
      (he : (encLookup k m).raw.isSome = (encLookup k m).count.isSome → e.raw.isSome = e.count.isSome) :
      EncChange l (encInsert k e m)

/-- What a host step does to the block: nothing, a FIFO read's pop, or one register write. -/
def BlockChange (s t : State) : Prop :=
  (t.pins = s.pins ∧ t.spi = s.spi) ∨ (t.pins = s.pins ∧ t.spi = popRx s.spi)
    ∨ ∃ r d u, writeReg r d s = .next u ∧ t.pins = u.pins ∧ t.spi = u.spi

/-- Everything a host step can do outside the host's own progress. -/
structure Effect (s t : State) : Prop where
  params : t.params = s.params
  stop : t.stop = s.stop
  turn : t.turn = s.turn
  prog : t.host.prog = s.host.prog
  block : BlockChange s t
  encs : EncChange s.encs t.encs

/-- A step that changes the host's progress and the free-value counter alone. -/
theorem Effect.quiet (s t : State) (h1 : t.params = s.params) (h2 : t.stop = s.stop) (h3 : t.turn = s.turn)
    (h4 : t.host.prog = s.host.prog) (h5 : t.pins = s.pins) (h6 : t.spi = s.spi) (h7 : t.encs = s.encs) : Effect s t :=
  ⟨h1, h2, h3, h4, .inl ⟨h5, h6⟩, h7 ▸ .same⟩

/-- A read, and then only the host's progress. -/
theorem Effect.read (s t : State) (r : Src) (h1 : t.params = s.params) (h2 : t.stop = s.stop) (h3 : t.turn = s.turn)
    (h4 : t.host.prog = s.host.prog) (h5 : t.pins = s.pins) (h6 : t.spi = (s.afterRead r).spi) (h7 : t.encs = s.encs) :
    Effect s t := by
  refine ⟨h1, h2, h3, h4, ?_, h7 ▸ .same⟩
  rw [afterRead_spi] at h6
  split at h6
  · exact .inr (.inl ⟨h5, h6⟩)
  · exact .inl ⟨h5, h6⟩

/-- A register write, and then only the host's progress. -/
theorem Effect.write (s t u : State) (r : Dst) (d : Word) (hw : writeReg r d s = .next u) (h1 : t.params = u.params)
    (h2 : t.stop = u.stop) (h3 : t.turn = u.turn) (h4 : t.host.prog = u.host.prog) (h5 : t.pins = u.pins)
    (h6 : t.spi = u.spi) (h7 : t.encs = u.encs) : Effect s t := by
  obtain ⟨w1, w2, w3, w4, w5, -⟩ := writeReg_frame r d s u hw
  refine ⟨h1.trans w1, h2.trans w4, h3.trans w5, by rw [h4, w3], .inr (.inr ⟨r, d, u, hw, h5, h6⟩), ?_⟩
  rw [h7, w2]
  exact .same

/-- What follows a host step and changes the host's progress or the encoders keeps its effect. -/
theorem Effect.after (s u t : State) (h : Effect s u) (h1 : t.params = u.params) (h2 : t.stop = u.stop)
    (h3 : t.turn = u.turn) (h4 : t.host.prog = u.host.prog) (h5 : t.pins = u.pins) (h6 : t.spi = u.spi)
    (h7 : EncChange s.encs t.encs) : Effect s t := by
  obtain ⟨e1, e2, e3, e4, e5, -⟩ := h
  refine ⟨h1.trans e1, h2.trans e2, h3.trans e3, h4.trans e4, ?_, h7⟩
  unfold BlockChange at e5 ⊢
  rw [h5, h6]
  exact e5

/-- One transaction of an operation; it leaves the encoders alone. -/
theorem doAct_effect (a : Act) (s t : State) (h : doAct a s = .next t) : Effect s t ∧ t.encs = s.encs := by
  cases a with
  | load r =>
    simp only [doAct, Host.Outcome.next.injEq] at h
    subst h
    exact ⟨.read s _ r (by simp) (by simp) (by simp) (by simp) (by simp) (by simp [State.readInto]) (by simp), by simp⟩
  | modify r clr set =>
    obtain ⟨u, hu, ht⟩ := andThen_eq_next _ _ _ h
    simp only [Host.Outcome.next.injEq] at ht
    subst ht
    exact ⟨.write s _ u r _ hu rfl rfl rfl rfl rfl rfl rfl, (writeReg_frame r _ s u hu).2.1⟩
  | store r d =>
    obtain ⟨u, hu, ht⟩ := andThen_eq_next _ _ _ h
    simp only [Host.Outcome.next.injEq] at ht
    subst ht
    exact ⟨.write s _ u r _ hu rfl rfl rfl rfl rfl rfl rfl, (writeReg_frame r _ s u hu).2.1⟩
  | wait c =>
    simp only [doAct] at h
    split at h <;> simp only [Host.Outcome.next.injEq] at h <;> subst h <;>
      exact ⟨.read s _ .cs (by simp) (by simp) (by simp) (by simp) (by simp) (by simp [State.readInto]) (by simp), by simp⟩
  | take =>
    simp only [doAct, Host.Outcome.next.injEq] at h
    subst h
    exact ⟨.read s _ .fifo (by simp) (by simp) (by simp) (by simp) (by simp) (by simp) (by simp), by simp⟩

/-- One call of a scripted operation passes through at most one transaction. -/
theorem runScript_cases (acts : List Act) (fin : State → Outcome) (s t : State) (h : runScript acts fin s = .next t) :
    fin s = .next t ∨ ∃ a u, doAct a s = .next u ∧ (t = u ∨ fin u = .next t) := by
  simp only [runScript] at h
  split at h
  · exact .inl h
  · next a _ =>
    obtain ⟨u, hu, ht⟩ := andThen_eq_next _ _ _ h
    split at ht
    · simp only [Host.Outcome.next.injEq] at ht
      exact .inr ⟨a, u, hu, .inl ht.symm⟩
    · exact .inr ⟨a, u, hu, .inr ht⟩

/-- A scripted operation whose completion changes the host's progress alone. -/
theorem runScript_effect (acts : List Act) (fin : State → Outcome) (ret : State → Option Ret)
    (hfin : ∀ u, fin u = .next (u.finish (ret u))) (s t : State) (h : runScript acts fin s = .next t) :
    Effect s t ∧ t.encs = s.encs := by
  rcases runScript_cases acts fin s t h with h | ⟨a, u, hu, rfl | h⟩
  · rw [hfin] at h
    simp only [Host.Outcome.next.injEq] at h
    subst h
    exact ⟨.quiet s _ rfl rfl rfl rfl rfl rfl rfl, rfl⟩
  · exact doAct_effect a s t hu
  · obtain ⟨e, he⟩ := doAct_effect a s u hu
    rw [hfin] at h
    simp only [Host.Outcome.next.injEq] at h
    subst h
    exact ⟨.after s u _ e rfl rfl rfl rfl rfl rfl e.encs, he⟩

theorem runScript_plain_effect (acts : List Act) (s t : State) (h : runScript acts finishPlain s = .next t) :
    Effect s t ∧ t.encs = s.encs :=
  runScript_effect acts finishPlain (fun _ => none) (fun _ => rfl) s t h

theorem loadItem_effect (r : Src) (s t : State) (h : loadItem r s = .next t) : Effect s t ∧ t.encs = s.encs := by
  simp only [loadItem, Host.Outcome.next.injEq] at h
  subst h
  exact ⟨.read s _ r (by simp) (by simp) (by simp) (by simp) (by simp) (by simp) (by simp), by simp⟩

theorem storeItem_effect (r : Dst) (d : Word) (s t : State) (h : storeItem r d s = .next t) :
    Effect s t ∧ t.encs = s.encs := by
  obtain ⟨u, hu, ht⟩ := andThen_eq_next _ _ _ h
  simp only [Host.Outcome.next.injEq] at ht
  subst ht
  exact ⟨.write s _ u r d hu rfl rfl rfl rfl rfl rfl rfl, (writeReg_frame r d s u hu).2.1⟩

theorem execReadPin_effect (pin : Word) (s t : State) (h : execReadPin pin s = .next t) :
    Effect s t ∧ t.encs = s.encs := by
  simp only [execReadPin] at h
  split at h <;> simp only [Host.Outcome.next.injEq] at h <;> subst h
  · exact ⟨.read s _ (.gplev (bankOf pin)) (by simp) (by simp) (by simp) (by simp) (by simp) (by simp) (by simp), by simp⟩
  · exact ⟨.quiet s _ rfl rfl rfl rfl rfl rfl rfl, rfl⟩

theorem eventClear_effect (pin d : Word) (s t : State) (h : eventClear pin d s = .next t) :
    Effect s t ∧ t.encs = s.encs := by
  obtain ⟨u, hu, ht⟩ := andThen_eq_next _ _ _ h
  simp only [finishFlag, Host.Outcome.next.injEq] at ht
  subst ht
  exact ⟨.write s _ u _ d hu rfl rfl rfl rfl rfl rfl rfl, (writeReg_frame _ d s u hu).2.1⟩

theorem execEventDetected_effect (pin : Word) (s t : State) (h : execEventDetected pin s = .next t) :
    Effect s t ∧ t.encs = s.encs := by
  have hread : ∀ u, u.params = s.params → u.stop = s.stop → u.turn = s.turn → u.host.prog = s.host.prog →
      u.pins = s.pins → u.spi = (s.readInto (.gpeds (bankOf pin))).spi → u.encs = s.encs → Effect s u ∧ u.encs = s.encs :=
    fun u h1 h2 h3 h4 h5 h6 h7 =>
      ⟨.read s u (.gpeds (bankOf pin)) h1 h2 h3 h4 h5 (by rw [h6]; simp [State.readInto]) h7, h7⟩
  simp only [execEventDetected] at h
  split at h
  · split at h
    · split at h
      · simp only [Host.Outcome.next.injEq] at h
        subst h
        exact hread _ (by simp) (by simp) (by simp) (by simp) (by simp) (by simp) (by simp)
      · simp only [finishFlag, Host.Outcome.next.injEq] at h
        subst h
        exact hread _ (by simp) (by simp) (by simp) (by simp) (by simp) (by simp) (by simp)
    · split at h
      · simp only [Host.Outcome.next.injEq] at h
        subst h
        exact hread _ (by simp) (by simp) (by simp) (by simp) (by simp) (by simp) (by simp)
      · exact eventClear_effect pin _ s t h
    · exact eventClear_effect pin _ s t h
  · simp only [finishFlag, Host.Outcome.next.injEq] at h
    subst h
    exact ⟨.quiet s _ rfl rfl rfl rfl rfl rfl rfl, rfl⟩

theorem execSetChipSelect_effect (cs : Word) (s t : State) (h : execSetChipSelect cs s = .next t) :
    Effect s t ∧ t.encs = s.encs := by
  simp only [execSetChipSelect] at h
  split at h
  · cases h
  · exact runScript_plain_effect _ s t h

theorem execBufferTransfer_effect (txBuf : List Byte) (n : Word) (s t : State)
    (h : execBufferTransfer txBuf n s = .next t) : Effect s t ∧ t.encs = s.encs := by
  have hread : ∀ u, u.params = s.params → u.stop = s.stop → u.turn = s.turn → u.host.prog = s.host.prog →
      u.pins = s.pins → u.spi = s.spi → u.encs = s.encs → Effect s u ∧ u.encs = s.encs :=
    fun u h1 h2 h3 h4 h5 h6 h7 => ⟨.quiet s u h1 h2 h3 h4 h5 h6 h7, h7⟩
  simp only [execBufferTransfer] at h
  split at h
  · cases h
  split at h
  · exact doAct_effect _ s t h
  · obtain ⟨u, hu, ht⟩ := andThen_eq_next _ _ _ h
    simp only [Host.Outcome.next.injEq] at ht
    subst ht
    exact ⟨.write s _ u _ _ hu rfl rfl rfl rfl rfl rfl rfl, (writeReg_frame _ _ s u hu).2.1⟩
  · simp only [bufferTxTest] at h
    split at h <;> simp only [Host.Outcome.next.injEq] at h <;> subst h <;>
      exact hread _ (by simp [State.toRxTest]) (by simp [State.toRxTest]) (by simp [State.toRxTest])
        (by simp [State.toRxTest]) (by simp [State.toRxTest]) (by simp [State.toRxTest]) (by simp [State.toRxTest])
  · simp only [bufferTxWrite] at h
    split at h
    · obtain ⟨u, hu, ht⟩ := andThen_eq_next _ _ _ h
      simp only [Host.Outcome.next.injEq] at ht
      subst ht
      exact ⟨.write s _ u _ _ hu rfl rfl rfl rfl rfl rfl rfl, (writeReg_frame _ _ s u hu).2.1⟩
    · simp only [Host.Outcome.next.injEq] at h
      subst h
      exact hread _ rfl rfl rfl rfl rfl rfl rfl
  · simp only [bufferRxTest] at h
    split at h <;> simp only [Host.Outcome.next.injEq] at h <;> subst h <;>
      exact hread _ (by simp [State.toTxTest]) (by simp [State.toTxTest]) (by simp [State.toTxTest])
        (by simp [State.toTxTest]) (by simp [State.toTxTest]) (by simp [State.toTxTest]) (by simp [State.toTxTest])
  · simp only [bufferRxTake, Host.Outcome.next.injEq] at h
    subst h
    exact ⟨.read s _ .fifo (by simp [State.toRxTest]) (by simp [State.toRxTest]) (by simp [State.toRxTest])
      (by simp [State.toRxTest]) (by simp [State.toRxTest]) (by simp [State.toRxTest]) (by simp [State.toRxTest]),
      by simp [State.toRxTest]⟩
  · exact doAct_effect _ s t h
  · exact doAct_effect _ s t h
  · obtain ⟨u, hu, ht⟩ := andThen_eq_next _ _ _ h
    simp only [Host.Outcome.next.injEq] at ht
    subst ht
    exact ⟨.write s _ u _ _ hu rfl rfl rfl rfl rfl rfl rfl, (writeReg_frame _ _ s u hu).2.1⟩

theorem Effect.trans_quiet (s u t : State) (hp : u.pins = s.pins) (hs : u.spi = s.spi) (h1 : u.params = s.params)
    (h2 : u.stop = s.stop) (h3 : u.turn = s.turn) (h4 : u.host = s.host)
    (he : EncChange s.encs u.encs) (h : Effect u t) (ht : t.encs = u.encs) : Effect s t := by
  obtain ⟨e1, e2, e3, e4, e5, -⟩ := h
  refine ⟨e1.trans h1, e2.trans h2, e3.trans h3, by rw [e4, h4], ?_, ht ▸ he⟩
  rcases e5 with ⟨a, b⟩ | ⟨a, b⟩ | ⟨r, d, w, hw, a, b⟩
  · exact .inl ⟨a.trans hp, b.trans hs⟩
  · exact .inr (.inl ⟨a.trans hp, by rw [b, hs]⟩)
  · refine .inr (.inr ?_)
    cases r <;> simp only [writeReg, Host.Outcome.next.injEq] at hw
    case cs =>
      obtain ⟨w1, w2, w3, rfl⟩ := (writeCs_eq_next d u w).1 hw
      rw [h1] at w1
      rw [h1, hs] at w2 w3
      exact ⟨.cs, d, _, (writeCs_eq_next d s _).2 ⟨w1, w2, w3, rfl⟩, by rw [a]; exact hp, by rw [b]; simp [hs, h1]⟩
    case fifo =>
      obtain ⟨w1, w2, rfl⟩ := (writeFifo_eq_next d u w).1 hw
      rw [hs] at w1 w2
      rw [h1] at w2
      exact ⟨.fifo, d, _, (writeFifo_eq_next d s _).2 ⟨w1, w2, rfl⟩, by rw [a]; exact hp, by rw [b]; simp [hs, h1]⟩
    case clk => exact ⟨.clk, d, _, rfl, by rw [a, ← hw]; exact hp, by rw [b, ← hw]; simp [hs, h1]⟩
    case gpfsel n => exact ⟨.gpfsel n, d, s.setPins (writeGpfsel n d s.pins), rfl, by rw [a, ← hw]; simp [hp], by rw [b, ← hw]; exact hs⟩
    case gpset n => exact ⟨.gpset n, d, s.setPins (writeBank setLatch n d s.pins), rfl, by rw [a, ← hw]; simp [hp], by rw [b, ← hw]; exact hs⟩
    case gpclr n => exact ⟨.gpclr n, d, s.setPins (writeBank clrLatch n d s.pins), rfl, by rw [a, ← hw]; simp [hp], by rw [b, ← hw]; exact hs⟩
    case gpeds n => exact ⟨.gpeds n, d, s.setPins (writeBank clearEvent n d s.pins), rfl, by rw [a, ← hw]; simp [hp], by rw [b, ← hw]; exact hs⟩
    case gpren n => exact ⟨.gpren n, d, s.setPins (writeBank setRen n d s.pins), rfl, by rw [a, ← hw]; simp [hp], by rw [b, ← hw]; exact hs⟩
    case gpfen n => exact ⟨.gpfen n, d, s.setPins (writeBank setFen n d s.pins), rfl, by rw [a, ← hw]; simp [hp], by rw [b, ← hw]; exact hs⟩

theorem execQdecInitialize_effect (e pinA pinB : Word) (s t : State) (h : execQdecInitialize e pinA pinB s = .next t) :
    Effect s t := by
  have key : ∀ u : State, u.pins = s.pins → u.spi = s.spi → u.params = s.params → u.stop = s.stop → u.turn = s.turn →
      u.host = s.host → EncChange s.encs u.encs →
      runScript (setPinModeActs pinA modeInput ++ setPinModeActs pinB modeInput) (finishInit e pinA pinB) u = .next t →
      Effect s t := by
    intro u hp hs h1 h2 h3 h4 he hr
    have hend : ∀ w : State, w.encs = u.encs → Effect s w → ∀ x, finishInit e pinA pinB w = .next x → Effect s x := by
      intro w hw hew x hx
      simp only [finishInit, Host.Outcome.next.injEq] at hx
      subst hx
      exact .after s w _ hew rfl rfl rfl rfl rfl rfl (.insert _ _ _ (hw ▸ he) (fun _ => rfl))
    rcases runScript_cases _ _ u t hr with hr | ⟨a, w, hw, rfl | hr⟩
    · exact hend u rfl ⟨h1, h2, h3, by rw [h4], .inl ⟨hp, hs⟩, he⟩ t hr
    · obtain ⟨f, hf⟩ := doAct_effect a u t hw
      exact .trans_quiet s u t hp hs h1 h2 h3 h4 he f hf
    · obtain ⟨f, hf⟩ := doAct_effect a u w hw
      exact hend w hf (.trans_quiet s u w hp hs h1 h2 h3 h4 he f hf) t hr
  simp only [execQdecInitialize] at h
  split at h
  · exact key (s.setEncPins e pinA pinB) rfl rfl rfl rfl rfl rfl (.insert _ _ _ .same (fun hw => hw)) h
  · exact key s rfl rfl rfl rfl rfl rfl .same h

theorem finishPoll_effect (e : Word) (raw : BitVec 4) (count : BitVec 32) (a b : Bool) (s u t : State)
    (hu : Effect s u) (he : u.encs = s.encs) (h : finishPoll e raw count a b u = .next t) : Effect s t := by
  simp only [finishPoll] at h
  split at h
  · cases h
  · simp only [Host.Outcome.next.injEq] at h
    subst h
    exact .after s u _ hu rfl rfl rfl rfl rfl rfl (.insert _ _ _ (he ▸ .same) (fun _ => rfl))

theorem afterSample_effect (pin : Word) (s u : State) (hu : Effect s u) (he : u.encs = s.encs) :
    Effect s (u.afterSample pin) ∧ (u.afterSample pin).encs = s.encs := by
  simp only [State.afterSample]
  split
  · exact ⟨.after s u _ hu (by simp) (by simp) (by simp) (by simp) (by simp) (by simp [afterRead_spi]) (by simp [he, EncChange.same]),
      by simp [he]⟩
  · exact ⟨hu, he⟩

theorem execQdecPoll_effect (e : Word) (s t : State) (h : execQdecPoll e s = .next t) : Effect s t := by
  have h0 : Effect s s := .quiet s s rfl rfl rfl rfl rfl rfl rfl
  simp only [execQdecPoll] at h
  split at h
  · split at h
    · split at h
      · simp only [Host.Outcome.next.injEq] at h
        subst h
        obtain ⟨f, hf⟩ := afterSample_effect (s.enc e).pinA s s h0 rfl
        exact .after s _ _ f rfl rfl rfl rfl rfl rfl (by simp [hf, EncChange.same])
      · obtain ⟨f, hf⟩ := afterSample_effect (s.enc e).pinA s s h0 rfl
        obtain ⟨f, hf⟩ := afterSample_effect (s.enc e).pinB s _ f hf
        exact finishPoll_effect e _ _ _ _ s _ t f hf h
    · obtain ⟨f, hf⟩ := afterSample_effect (s.enc e).pinB s s h0 rfl
      exact finishPoll_effect e _ _ _ _ s _ t f hf h
  · cases h

/-- Everything one host step of any instruction can do. -/
theorem exec_effect (i : Instr) (s t : State) (h : exec i s = .next t) : Effect s t := by
  cases i with
  | ldGpfsel0 => exact (loadItem_effect _ s t h).1
  | stGpfsel0 data => exact (storeItem_effect (.gpfsel 0) data s t h).1
  | ldGpfsel1 => exact (loadItem_effect _ s t h).1
  | stGpfsel1 data => exact (storeItem_effect (.gpfsel 1) data s t h).1
  | ldGpfsel2 => exact (loadItem_effect _ s t h).1
  | stGpfsel2 data => exact (storeItem_effect (.gpfsel 2) data s t h).1
  | ldGpfsel3 => exact (loadItem_effect _ s t h).1
  | stGpfsel3 data => exact (storeItem_effect (.gpfsel 3) data s t h).1
  | ldGpfsel4 => exact (loadItem_effect _ s t h).1
  | stGpfsel4 data => exact (storeItem_effect (.gpfsel 4) data s t h).1
  | ldGpfsel5 => exact (loadItem_effect _ s t h).1
  | stGpfsel5 data => exact (storeItem_effect (.gpfsel 5) data s t h).1
  | stGpset0 data => exact (storeItem_effect (.gpset 0) data s t h).1
  | stGpset1 data => exact (storeItem_effect (.gpset 1) data s t h).1
  | stGpclr0 data => exact (storeItem_effect (.gpclr 0) data s t h).1
  | stGpclr1 data => exact (storeItem_effect (.gpclr 1) data s t h).1
  | ldGplev0 => exact (loadItem_effect _ s t h).1
  | ldGplev1 => exact (loadItem_effect _ s t h).1
  | ldGpeds0 => exact (loadItem_effect _ s t h).1
  | stGpeds0 data => exact (storeItem_effect (.gpeds 0) data s t h).1
  | ldGpeds1 => exact (loadItem_effect _ s t h).1
  | stGpeds1 data => exact (storeItem_effect (.gpeds 1) data s t h).1
  | ldGpren0 => exact (loadItem_effect _ s t h).1
  | stGpren0 data => exact (storeItem_effect (.gpren 0) data s t h).1
  | ldGpren1 => exact (loadItem_effect _ s t h).1
  | stGpren1 data => exact (storeItem_effect (.gpren 1) data s t h).1
  | ldGpfen0 => exact (loadItem_effect _ s t h).1
  | stGpfen0 data => exact (storeItem_effect (.gpfen 0) data s t h).1
  | ldGpfen1 => exact (loadItem_effect _ s t h).1
  | stGpfen1 data => exact (storeItem_effect (.gpfen 1) data s t h).1
  | ldSpiCs => exact (loadItem_effect _ s t h).1
  | stSpiCs data => exact (storeItem_effect .cs data s t h).1
  | ldSpiFifo => exact (loadItem_effect _ s t h).1
  | stSpiFifo data => exact (storeItem_effect .fifo data s t h).1
  | ldSpiClk => exact (loadItem_effect _ s t h).1
  | stSpiClk data => exact (storeItem_effect .clk data s t h).1
  | setPinMode pin mode => exact (runScript_plain_effect _ s t h).1
  | writePin pin value => exact (runScript_plain_effect _ s t h).1
  | readPin pin => exact (execReadPin_effect pin s t h).1
  | enableEdgeDetect pin edge => exact (runScript_plain_effect _ s t h).1
  | eventDetected pin => exact (execEventDetected_effect pin s t h).1
  | spiStart => exact (runScript_plain_effect _ s t h).1
  | spiEnd => exact (runScript_plain_effect _ s t h).1
  | setClockDivider d => exact (runScript_plain_effect _ s t h).1
  | setChipSelect cs => exact (execSetChipSelect_effect cs s t h).1
  | beginTransfer => exact (runScript_plain_effect _ s t h).1
  | send byte => exact (runScript_plain_effect _ s t h).1
  | send16 word => exact (runScript_plain_effect _ s t h).1
  | endTransfer => exact (runScript_plain_effect _ s t h).1
  | transferByte val => exact (runScript_effect _ finishByte (fun u => some (.byte u.host.locals.r)) (fun _ => rfl) s t h).1
  | bufferTransfer txBuf n => exact (execBufferTransfer_effect txBuf n s t h).1
  | qdecInitialize encoder pinA pinB => exact execQdecInitialize_effect encoder pinA pinB s t h
  | qdecPoll encoder => exact execQdecPoll_effect encoder s t h

/-- Only Initialize and Poll write the encoders (R39). -/
theorem exec_encs (i : Instr) (s t : State) (h : exec i s = .next t) :
    t.encs = s.encs ∨ (∃ e a b, i = .qdecInitialize e a b) ∨ ∃ e, i = .qdecPoll e := by
  cases i with
  | ldGpfsel0 => exact .inl (loadItem_effect _ s t h).2
  | stGpfsel0 data => exact .inl (storeItem_effect (.gpfsel 0) data s t h).2
  | ldGpfsel1 => exact .inl (loadItem_effect _ s t h).2
  | stGpfsel1 data => exact .inl (storeItem_effect (.gpfsel 1) data s t h).2
  | ldGpfsel2 => exact .inl (loadItem_effect _ s t h).2
  | stGpfsel2 data => exact .inl (storeItem_effect (.gpfsel 2) data s t h).2
  | ldGpfsel3 => exact .inl (loadItem_effect _ s t h).2
  | stGpfsel3 data => exact .inl (storeItem_effect (.gpfsel 3) data s t h).2
  | ldGpfsel4 => exact .inl (loadItem_effect _ s t h).2
  | stGpfsel4 data => exact .inl (storeItem_effect (.gpfsel 4) data s t h).2
  | ldGpfsel5 => exact .inl (loadItem_effect _ s t h).2
  | stGpfsel5 data => exact .inl (storeItem_effect (.gpfsel 5) data s t h).2
  | stGpset0 data => exact .inl (storeItem_effect (.gpset 0) data s t h).2
  | stGpset1 data => exact .inl (storeItem_effect (.gpset 1) data s t h).2
  | stGpclr0 data => exact .inl (storeItem_effect (.gpclr 0) data s t h).2
  | stGpclr1 data => exact .inl (storeItem_effect (.gpclr 1) data s t h).2
  | ldGplev0 => exact .inl (loadItem_effect _ s t h).2
  | ldGplev1 => exact .inl (loadItem_effect _ s t h).2
  | ldGpeds0 => exact .inl (loadItem_effect _ s t h).2
  | stGpeds0 data => exact .inl (storeItem_effect (.gpeds 0) data s t h).2
  | ldGpeds1 => exact .inl (loadItem_effect _ s t h).2
  | stGpeds1 data => exact .inl (storeItem_effect (.gpeds 1) data s t h).2
  | ldGpren0 => exact .inl (loadItem_effect _ s t h).2
  | stGpren0 data => exact .inl (storeItem_effect (.gpren 0) data s t h).2
  | ldGpren1 => exact .inl (loadItem_effect _ s t h).2
  | stGpren1 data => exact .inl (storeItem_effect (.gpren 1) data s t h).2
  | ldGpfen0 => exact .inl (loadItem_effect _ s t h).2
  | stGpfen0 data => exact .inl (storeItem_effect (.gpfen 0) data s t h).2
  | ldGpfen1 => exact .inl (loadItem_effect _ s t h).2
  | stGpfen1 data => exact .inl (storeItem_effect (.gpfen 1) data s t h).2
  | ldSpiCs => exact .inl (loadItem_effect _ s t h).2
  | stSpiCs data => exact .inl (storeItem_effect .cs data s t h).2
  | ldSpiFifo => exact .inl (loadItem_effect _ s t h).2
  | stSpiFifo data => exact .inl (storeItem_effect .fifo data s t h).2
  | ldSpiClk => exact .inl (loadItem_effect _ s t h).2
  | stSpiClk data => exact .inl (storeItem_effect .clk data s t h).2
  | setPinMode pin mode => exact .inl (runScript_plain_effect _ s t h).2
  | writePin pin value => exact .inl (runScript_plain_effect _ s t h).2
  | readPin pin => exact .inl (execReadPin_effect pin s t h).2
  | enableEdgeDetect pin edge => exact .inl (runScript_plain_effect _ s t h).2
  | eventDetected pin => exact .inl (execEventDetected_effect pin s t h).2
  | spiStart => exact .inl (runScript_plain_effect _ s t h).2
  | spiEnd => exact .inl (runScript_plain_effect _ s t h).2
  | setClockDivider d => exact .inl (runScript_plain_effect _ s t h).2
  | setChipSelect cs => exact .inl (execSetChipSelect_effect cs s t h).2
  | beginTransfer => exact .inl (runScript_plain_effect _ s t h).2
  | send byte => exact .inl (runScript_plain_effect _ s t h).2
  | send16 word => exact .inl (runScript_plain_effect _ s t h).2
  | endTransfer => exact .inl (runScript_plain_effect _ s t h).2
  | transferByte val => exact .inl (runScript_effect _ finishByte (fun u => some (.byte u.host.locals.r)) (fun _ => rfl) s t h).2
  | bufferTransfer txBuf n => exact .inl (execBufferTransfer_effect txBuf n s t h).2
  | qdecInitialize encoder pinA pinB => exact .inr (.inl ⟨_, _, _, rfl⟩)
  | qdecPoll encoder => exact .inr (.inr ⟨_, rfl⟩)

/-- Everything one step of the machine can do (R16): the host's effect, an idle host, the engine's step, a pad change. -/
theorem moveStep_cases (s t : State) (h : moveStep s = .next t) :
    (s.turn = .host ∧ ((∃ i, s.fetch = .item i ∧ exec i s = .next t) ∨ (s.fetch = .ended ∧ t = s)))
      ∨ (∃ miso, s.turn = .engine miso ∧ t = engineStep miso s) ∨ (∃ p level, s.turn = .pad p level ∧ t = padStep p level s) := by
  simp only [moveStep] at h
  split at h
  · next ht =>
    simp only [hostStep] at h
    split at h
    · next hf =>
      simp only [Host.Outcome.next.injEq] at h
      exact .inl ⟨ht, .inr ⟨hf, h.symm⟩⟩
    · next i hf => exact .inl ⟨ht, .inl ⟨i, hf, h⟩⟩
    · cases h
  · next miso ht =>
    simp only [Host.Outcome.next.injEq] at h
    exact .inr (.inl ⟨miso, ht, h.symm⟩)
  · next p level ht =>
    simp only [Host.Outcome.next.injEq] at h
    exact .inr (.inr ⟨p, level, ht, h.symm⟩)

/-- A step that answers a next state had no stop recorded, and is one agent's move with the next turn drawn. -/
theorem step_eq_next (s t : State) : step s = .next t ↔ s.stop = none ∧ ∃ u, moveStep s = .next u ∧ t = u.redraw := by
  simp only [step, stepOf]
  split
  · next r hr =>
    rw [hr]
    cases r <;> simp [Stop.outcome]
  · next hr =>
    constructor
    · intro h
      obtain ⟨u, hu, ht⟩ := andThen_eq_next _ _ _ h
      simp only [Host.Outcome.next.injEq] at ht
      exact ⟨hr, u, hu, ht.symm⟩
    · rintro ⟨-, u, hu, rfl⟩
      simp [hu]

end Sys2Proof.Laws
end

