-- ==== Sys2Proof/Laws/Layout.lean ====
section
/-! SUPPORT. The register tables (R88 to R90, R94): the defaults are well formed; under well-formed tables every row is
found at its address and every field of CS is read at its position; the data fields of FIFO and CLK. -/

namespace Sys2Proof.Laws

open Sys2Proof.Machine

/-- The addresses of R88 and R89. -/
theorem registerAddrs_defaults :
    registerAddrs .defaults =
      [0x3F200000, 0x3F200004, 0x3F200008, 0x3F20000C, 0x3F200010, 0x3F200014, 0x3F20001C, 0x3F200020, 0x3F200028,
       0x3F20002C, 0x3F200034, 0x3F200038, 0x3F200040, 0x3F200044, 0x3F20004C, 0x3F200050, 0x3F200058, 0x3F20005C,
       0x3F204000, 0x3F204004, 0x3F204008] := by decide

/-- The spec's default tables are well formed. -/
theorem defaults_wf : Params.defaults.wf :=
  ⟨by decide, by decide, by decide⟩

/-- The rows of R88 and R89 as directions and places in `registerAddrs`. -/
def rowIndex : List (Bool × Nat) :=
  [(false, 0), (true, 0), (false, 1), (true, 1), (false, 2), (true, 2), (false, 3), (true, 3), (false, 4), (true, 4),
   (false, 5), (true, 5), (true, 6), (true, 7), (true, 8), (true, 9), (false, 10), (false, 11), (false, 12), (true,
   12), (false, 13), (true, 13), (false, 14), (true, 14), (false, 15), (true, 15), (false, 16), (true, 16), (false,
   17), (true, 17), (false, 18), (true, 18), (false, 19), (true, 19), (false, 20), (true, 20)]

theorem busTable_keys (p : Params) :
    (busTable p).map (fun row => (row.write, row.addr))
      = rowIndex.map (fun x => (x.1, (registerAddrs p)[x.2]?.getD 0)) := rfl

/-- No two rows have one direction and one address. -/
theorem busTable_keys_nodup (p : Params) (h : p.wf) : ((busTable p).map (fun row => (row.write, row.addr))).Nodup := by
  rw [busTable_keys]
  refine List.Nodup.map_on ?_ (by decide)
  rintro ⟨w, j⟩ hj ⟨w', k⟩ hk he
  have hlen : ∀ x ∈ rowIndex, x.2 < 21 := by decide
  have h1 : j < (registerAddrs p).length := hlen _ hj
  have h2 : k < (registerAddrs p).length := hlen _ hk
  simp only [Prod.mk.injEq, List.getElem?_eq_getElem h1, List.getElem?_eq_getElem h2, Option.getD_some] at he
  rw [he.1, (List.Nodup.getElem_inj_iff h.1).1 he.2]

/-- Every row's address is a register's. -/
theorem addr_mem_registerAddrs (p : Params) (row : BusRow) (hr : row ∈ busTable p) : row.addr ∈ registerAddrs p := by
  have hm := List.mem_map_of_mem (f := fun row => (row.write, row.addr)) hr
  rw [busTable_keys] at hm
  obtain ⟨x, hx, he⟩ := List.mem_map.1 hm
  have hlen : ∀ x ∈ rowIndex, x.2 < 21 := by decide
  have h1 : x.2 < (registerAddrs p).length := hlen _ hx
  simp only [Prod.mk.injEq, List.getElem?_eq_getElem h1, Option.getD_some] at he
  exact he.2 ▸ List.getElem_mem h1

/-- Under well-formed tables a row is selected by its direction and address. -/
theorem decodeAccess_of_mem (p : Params) (h : p.wf) (row : BusRow) (hr : row ∈ busTable p) (data : Option Word) :
    decodeAccess p row.write 32 row.addr data = .ok (row.make (data.getD 0)) := by
  have ha : row.addr.toNat % 4 = 0 := by simpa using List.all_eq_true.1 h.2.1 _ (addr_mem_registerAddrs p row hr)
  have hf : (busTable p).find? (fun x => x.write == row.write && x.addr == row.addr) = some row := by
    have hn := busTable_keys_nodup p h
    generalize busTable p = l at hr hn
    induction l with
    | nil => cases hr
    | cons x l ih =>
      simp only [List.map_cons, List.nodup_cons] at hn
      rcases List.mem_cons.1 hr with rfl | hr
      · simp
      · have hx : (x.write == row.write && x.addr == row.addr) = false := by
          rw [Bool.eq_false_iff]
          intro hc
          simp only [Bool.and_eq_true, beq_iff_eq] at hc
          exact hn.1 (List.mem_map.2 ⟨row, hr, by rw [hc.1, hc.2]⟩)
        simp only [List.find?_cons, hx]
        exact ih hr hn.2
  simp [decodeAccess, ha, hf]

/-- A row for reads is at a readable register's address, a row for writes at a writable one's. -/
theorem row_register (p : Params) (row : BusRow) (hr : row ∈ busTable p) :
    if row.write then ∃ r : Dst, r.addr p = row.addr else ∃ r : Src, r.addr p = row.addr := by
  simp only [busTable, gpioRowsA, gpioRowsB, spiRows, List.cons_append, List.nil_append, List.mem_cons, List.not_mem_nil,
    or_false] at hr
  rcases hr with rfl | rfl | rfl | rfl | rfl | rfl | rfl | rfl | rfl | rfl | rfl | rfl | rfl | rfl | rfl | rfl | rfl | rfl |
    rfl | rfl | rfl | rfl | rfl | rfl | rfl | rfl | rfl | rfl | rfl | rfl | rfl | rfl | rfl | rfl | rfl | rfl
  · exact ⟨.gpfsel 0, rfl⟩
  · exact ⟨.gpfsel 0, rfl⟩
  · exact ⟨.gpfsel 1, rfl⟩
  · exact ⟨.gpfsel 1, rfl⟩
  · exact ⟨.gpfsel 2, rfl⟩
  · exact ⟨.gpfsel 2, rfl⟩
  · exact ⟨.gpfsel 3, rfl⟩
  · exact ⟨.gpfsel 3, rfl⟩
  · exact ⟨.gpfsel 4, rfl⟩
  · exact ⟨.gpfsel 4, rfl⟩
  · exact ⟨.gpfsel 5, rfl⟩
  · exact ⟨.gpfsel 5, rfl⟩
  · exact ⟨.gpset 0, rfl⟩
  · exact ⟨.gpset 1, rfl⟩
  · exact ⟨.gpclr 0, rfl⟩
  · exact ⟨.gpclr 1, rfl⟩
  · exact ⟨.gplev 0, rfl⟩
  · exact ⟨.gplev 1, rfl⟩
  · exact ⟨.gpeds 0, rfl⟩
  · exact ⟨.gpeds 0, rfl⟩
  · exact ⟨.gpeds 1, rfl⟩
  · exact ⟨.gpeds 1, rfl⟩
  · exact ⟨.gpren 0, rfl⟩
  · exact ⟨.gpren 0, rfl⟩
  · exact ⟨.gpren 1, rfl⟩
  · exact ⟨.gpren 1, rfl⟩
  · exact ⟨.gpfen 0, rfl⟩
  · exact ⟨.gpfen 0, rfl⟩
  · exact ⟨.gpfen 1, rfl⟩
  · exact ⟨.gpfen 1, rfl⟩
  · exact ⟨.cs, rfl⟩
  · exact ⟨.cs, rfl⟩
  · exact ⟨.fifo, rfl⟩
  · exact ⟨.fifo, rfl⟩
  · exact ⟨.clk, rfl⟩
  · exact ⟨.clk, rfl⟩

/-- What no row has is refused (R95). -/
theorem decodeAccess_of_not_mem (p : Params) (write : Bool) (width : Nat) (addr : Word) (data : Option Word)
    (h : ∀ row ∈ busTable p, ¬ (row.write = write ∧ row.addr = addr)) :
    decodeAccess p write width addr data = .error (.unmapped write width addr data) := by
  have hf : (busTable p).find? (fun x => x.write == write && x.addr == addr) = none := by
    simpa [List.find?_eq_none] using fun row hr hw ha => h row hr ⟨hw, ha⟩
  simp [decodeAccess, hf]

theorem csFields_fst (p : Params) (s : Spi) : (csFields p s).map Prod.fst = p.csBits.list := rfl

/-- What an association list with distinct keys finds. -/
theorem lookup_of_mem (l : List (Nat × Bool)) (h : (l.map Prod.fst).Nodup) (i : Nat) (b : Bool) (hm : (i, b) ∈ l) :
    l.lookup i = some b := by
  induction l with
  | nil => cases hm
  | cons x l ih =>
    obtain ⟨j, c⟩ := x
    simp only [List.map_cons, List.nodup_cons] at h
    rcases List.mem_cons.1 hm with hm | hm
    · cases hm; simp
    · have hj : i ≠ j := fun hij => h.1 (hij ▸ List.mem_map_of_mem hm)
      have hb : (i == j) = false := by simpa using hj
      simp only [List.lookup, hb]
      exact ih h.2 hm

/-- A CS read at a field's position returns the field (R141). -/
theorem csBit_of_mem (p : Params) (h : p.csBits.list.Nodup) (s : Spi) (x : Word) (i : Nat) (b : Bool)
    (hm : (i, b) ∈ csFields p s) : csBit p s x i = b := by
  rw [csBit, lookup_of_mem _ (csFields_fst p s ▸ h) i b hm, Option.getD_some]

/-- A position that a field has is a bit of the register. -/
theorem csFields_lt (p : Params) (s : Spi) (i : Nat) (b : Bool) (hm : (i, b) ∈ csFields p s) : i < 32 := by
  simp only [csFields, List.mem_cons, Prod.mk.injEq, List.not_mem_nil, or_false] at hm
  omega

/-- The value a CS read returns, at a field's position (R141). -/
theorem readReg_cs_getLsbD (s : State) (h : s.params.wf) (i : Nat) (b : Bool) (hm : (i, b) ∈ csFields s.params s.spi) :
    (s.readReg .cs).getLsbD i = b := by
  rw [readReg_getLsbD _ _ _ (csFields_lt _ _ _ _ hm)]
  exact csBit_of_mem _ h.2.2 _ _ _ _ hm

/-- The bits the waits and the loop tests look at (R160, R171). -/
theorem readBit_cs_ta (s : State) (h : s.params.wf) : s.readBit .cs s.params.csBits.ta = s.spi.ta :=
  csBit_of_mem _ h.2.2 _ _ _ _ (by simp [csFields])

theorem readBit_cs_done (s : State) (h : s.params.wf) : s.readBit .cs s.params.csBits.done = s.spi.done :=
  csBit_of_mem _ h.2.2 _ _ _ _ (by simp [csFields])

theorem readBit_cs_rxd (s : State) (h : s.params.wf) : s.readBit .cs s.params.csBits.rxd = s.spi.rxd :=
  csBit_of_mem _ h.2.2 _ _ _ _ (by simp [csFields])

theorem readBit_cs_txd (s : State) (h : s.params.wf) : s.readBit .cs s.params.csBits.txd = s.spi.txd s.params :=
  csBit_of_mem _ h.2.2 _ _ _ _ (by simp [csFields])

/-- A FIFO read's data byte is the front of the RX FIFO (R146). -/
theorem fifoBit_data (l : SpiLayout) (s : Spi) (x : Word) (b : Byte) (q : List Byte) (i : Nat) (hq : s.rxq = b :: q)
    (hi : i < 8) : fifoBit l s x (l.fifoData + i) = b.getLsbD i := by
  simp [fifoBit, hq, hi]

/-- The byte a FIFO read takes (R146). -/
theorem readByte_eq (s : State) (b : Byte) (q : List Byte) (hq : s.spi.rxq = b :: q) : s.readByte = b := by
  apply BitVec.eq_of_getLsbD_eq
  intro i hi
  rw [readByte_getLsbD s i hi]
  exact fifoBit_data _ _ _ b q i hq hi

/-- A CLK read's CDIV field is the divider (R149). -/
theorem clkBit_cdiv (l : SpiLayout) (s : Spi) (x : Word) (i : Nat) (hi : i < 16) :
    clkBit l s x (l.cdiv + i) = s.cdiv.getLsbD i := by
  simp [clkBit, hi]

/-- A value that fits between its place and bit 31 is read back from its place. -/
theorem extract_shiftLeft (w k : Nat) (v : BitVec w) (h : k + w ≤ 32) :
    ((v.setWidth 32 <<< k : Word)).extractLsb' k w = v := by
  apply BitVec.eq_of_getLsbD_eq
  intro i hi
  have h1 : k + i < 32 := by omega
  simp [hi, h1]

/-- The byte a FIFO write of `fifoData` pushes (R167). -/
@[simp] theorem fifoByte_fifoData (l : SpiLayout) (b : Byte) : fifoByte l (fifoData l b) = b :=
  extract_shiftLeft 8 l.fifoData b (by omega)

/-- What a CLK write of `clkData` stores (R164). -/
@[simp] theorem writeClk_clkData (l : SpiLayout) (d : Half) (s : Spi) : writeClk l (clkData l d) s = { s with cdiv := d } := by
  simp only [writeClk, clkData, extract_shiftLeft 16 l.cdiv d (by omega)]

end Sys2Proof.Laws
end

