-- ==== Sys2Proof/Laws/PerInstr.lean ====
section
/-! SUPPORT. The families of LAWS.json, one lemma per constructor of Instr. -/

namespace Sys2Proof.Laws.Encoding

/-- A well-formed instruction fits the image of R102, and its first word is `0x000000nn`. -/
def Statement (i : Instr) : Prop :=
  i.wellFormed = true → i.encodable = true ∧ ∀ p, ∃ op args, encode p i = op :: args ∧ op.toNat < 256

theorem ldGpfsel0 : Statement .ldGpfsel0 := fun _ => ⟨rfl, fun _ => ⟨_, _, rfl, by decide⟩⟩
theorem stGpfsel0 (data : Word) : Statement (.stGpfsel0 data) := fun _ => ⟨rfl, fun _ => ⟨_, _, rfl, by decide⟩⟩
theorem ldGpfsel1 : Statement .ldGpfsel1 := fun _ => ⟨rfl, fun _ => ⟨_, _, rfl, by decide⟩⟩
theorem stGpfsel1 (data : Word) : Statement (.stGpfsel1 data) := fun _ => ⟨rfl, fun _ => ⟨_, _, rfl, by decide⟩⟩
theorem ldGpfsel2 : Statement .ldGpfsel2 := fun _ => ⟨rfl, fun _ => ⟨_, _, rfl, by decide⟩⟩
theorem stGpfsel2 (data : Word) : Statement (.stGpfsel2 data) := fun _ => ⟨rfl, fun _ => ⟨_, _, rfl, by decide⟩⟩
theorem ldGpfsel3 : Statement .ldGpfsel3 := fun _ => ⟨rfl, fun _ => ⟨_, _, rfl, by decide⟩⟩
theorem stGpfsel3 (data : Word) : Statement (.stGpfsel3 data) := fun _ => ⟨rfl, fun _ => ⟨_, _, rfl, by decide⟩⟩
theorem ldGpfsel4 : Statement .ldGpfsel4 := fun _ => ⟨rfl, fun _ => ⟨_, _, rfl, by decide⟩⟩
theorem stGpfsel4 (data : Word) : Statement (.stGpfsel4 data) := fun _ => ⟨rfl, fun _ => ⟨_, _, rfl, by decide⟩⟩
theorem ldGpfsel5 : Statement .ldGpfsel5 := fun _ => ⟨rfl, fun _ => ⟨_, _, rfl, by decide⟩⟩
theorem stGpfsel5 (data : Word) : Statement (.stGpfsel5 data) := fun _ => ⟨rfl, fun _ => ⟨_, _, rfl, by decide⟩⟩
theorem stGpset0 (data : Word) : Statement (.stGpset0 data) := fun _ => ⟨rfl, fun _ => ⟨_, _, rfl, by decide⟩⟩
theorem stGpset1 (data : Word) : Statement (.stGpset1 data) := fun _ => ⟨rfl, fun _ => ⟨_, _, rfl, by decide⟩⟩
theorem stGpclr0 (data : Word) : Statement (.stGpclr0 data) := fun _ => ⟨rfl, fun _ => ⟨_, _, rfl, by decide⟩⟩
theorem stGpclr1 (data : Word) : Statement (.stGpclr1 data) := fun _ => ⟨rfl, fun _ => ⟨_, _, rfl, by decide⟩⟩
theorem ldGplev0 : Statement .ldGplev0 := fun _ => ⟨rfl, fun _ => ⟨_, _, rfl, by decide⟩⟩
theorem ldGplev1 : Statement .ldGplev1 := fun _ => ⟨rfl, fun _ => ⟨_, _, rfl, by decide⟩⟩
theorem ldGpeds0 : Statement .ldGpeds0 := fun _ => ⟨rfl, fun _ => ⟨_, _, rfl, by decide⟩⟩
theorem stGpeds0 (data : Word) : Statement (.stGpeds0 data) := fun _ => ⟨rfl, fun _ => ⟨_, _, rfl, by decide⟩⟩
theorem ldGpeds1 : Statement .ldGpeds1 := fun _ => ⟨rfl, fun _ => ⟨_, _, rfl, by decide⟩⟩
theorem stGpeds1 (data : Word) : Statement (.stGpeds1 data) := fun _ => ⟨rfl, fun _ => ⟨_, _, rfl, by decide⟩⟩
theorem ldGpren0 : Statement .ldGpren0 := fun _ => ⟨rfl, fun _ => ⟨_, _, rfl, by decide⟩⟩
theorem stGpren0 (data : Word) : Statement (.stGpren0 data) := fun _ => ⟨rfl, fun _ => ⟨_, _, rfl, by decide⟩⟩
theorem ldGpren1 : Statement .ldGpren1 := fun _ => ⟨rfl, fun _ => ⟨_, _, rfl, by decide⟩⟩
theorem stGpren1 (data : Word) : Statement (.stGpren1 data) := fun _ => ⟨rfl, fun _ => ⟨_, _, rfl, by decide⟩⟩
theorem ldGpfen0 : Statement .ldGpfen0 := fun _ => ⟨rfl, fun _ => ⟨_, _, rfl, by decide⟩⟩
theorem stGpfen0 (data : Word) : Statement (.stGpfen0 data) := fun _ => ⟨rfl, fun _ => ⟨_, _, rfl, by decide⟩⟩
theorem ldGpfen1 : Statement .ldGpfen1 := fun _ => ⟨rfl, fun _ => ⟨_, _, rfl, by decide⟩⟩
theorem stGpfen1 (data : Word) : Statement (.stGpfen1 data) := fun _ => ⟨rfl, fun _ => ⟨_, _, rfl, by decide⟩⟩
theorem ldSpiCs : Statement .ldSpiCs := fun _ => ⟨rfl, fun _ => ⟨_, _, rfl, by decide⟩⟩
theorem stSpiCs (data : Word) : Statement (.stSpiCs data) := fun _ => ⟨rfl, fun _ => ⟨_, _, rfl, by decide⟩⟩
theorem ldSpiFifo : Statement .ldSpiFifo := fun _ => ⟨rfl, fun _ => ⟨_, _, rfl, by decide⟩⟩
theorem stSpiFifo (data : Word) : Statement (.stSpiFifo data) := fun _ => ⟨rfl, fun _ => ⟨_, _, rfl, by decide⟩⟩
theorem ldSpiClk : Statement .ldSpiClk := fun _ => ⟨rfl, fun _ => ⟨_, _, rfl, by decide⟩⟩
theorem stSpiClk (data : Word) : Statement (.stSpiClk data) := fun _ => ⟨rfl, fun _ => ⟨_, _, rfl, by decide⟩⟩
theorem setPinMode (pin : Word) (mode : Word) : Statement (.setPinMode pin mode) := fun _ => ⟨rfl, fun _ => ⟨_, _, rfl, by decide⟩⟩
theorem writePin (pin : Word) (value : Word) : Statement (.writePin pin value) := fun _ => ⟨rfl, fun _ => ⟨_, _, rfl, by decide⟩⟩
theorem readPin (pin : Word) : Statement (.readPin pin) := fun _ => ⟨rfl, fun _ => ⟨_, _, rfl, by decide⟩⟩
theorem enableEdgeDetect (pin : Word) (edge : Edge) : Statement (.enableEdgeDetect pin edge) := fun _ => ⟨rfl, fun _ => ⟨_, _, rfl, by decide⟩⟩
theorem eventDetected (pin : Word) : Statement (.eventDetected pin) := fun _ => ⟨rfl, fun _ => ⟨_, _, rfl, by decide⟩⟩
theorem spiStart : Statement .spiStart := fun _ => ⟨rfl, fun _ => ⟨_, _, rfl, by decide⟩⟩
theorem spiEnd : Statement .spiEnd := fun _ => ⟨rfl, fun _ => ⟨_, _, rfl, by decide⟩⟩
theorem setClockDivider (d : Half) : Statement (.setClockDivider d) := fun _ => ⟨rfl, fun _ => ⟨_, _, rfl, by decide⟩⟩
theorem setChipSelect (cs : Word) : Statement (.setChipSelect cs) := fun _ => ⟨rfl, fun _ => ⟨_, _, rfl, by decide⟩⟩
theorem beginTransfer : Statement .beginTransfer := fun _ => ⟨rfl, fun _ => ⟨_, _, rfl, by decide⟩⟩
theorem send (byte : Byte) : Statement (.send byte) := fun _ => ⟨rfl, fun _ => ⟨_, _, rfl, by decide⟩⟩
theorem send16 (word : Half) : Statement (.send16 word) := fun _ => ⟨rfl, fun _ => ⟨_, _, rfl, by decide⟩⟩
theorem endTransfer : Statement .endTransfer := fun _ => ⟨rfl, fun _ => ⟨_, _, rfl, by decide⟩⟩
theorem transferByte (val : Byte) : Statement (.transferByte val) := fun _ => ⟨rfl, fun _ => ⟨_, _, rfl, by decide⟩⟩
theorem bufferTransfer (txBuf : List Byte) (n : Word) : Statement (.bufferTransfer txBuf n) := by
  intro h
  have hn : txBuf.length = n.toNat := of_decide_eq_true h
  exact ⟨decide_eq_true (hn ▸ n.isLt), fun _ => ⟨_, _, rfl, by decide⟩⟩
theorem qdecInitialize (encoder : Word) (pinA : Word) (pinB : Word) : Statement (.qdecInitialize encoder pinA pinB) := fun _ => ⟨rfl, fun _ => ⟨_, _, rfl, by decide⟩⟩
theorem qdecPoll (encoder : Word) : Statement (.qdecPoll encoder) := fun _ => ⟨rfl, fun _ => ⟨_, _, rfl, by decide⟩⟩

end Sys2Proof.Laws.Encoding
end

