-- ==== Sys2Proof/Tests/Slice0.lean ====
section
/-! SUPPORT. Tests: expected results are the spec's own words, tables and vectors (V-... of 95_test_vectors.md), never the
model's answers; then one witness for the hypotheses of each obligation that has any. -/

namespace Sys2Proof.Tests

open Sys2Proof Sys2Proof.Machine

/-! ## Small states -/

/-- The reset state with every drawn latch and pad at 0. -/
def zero : State :=
  { params := .defaults, pins := Vector.replicate 54 {}, spi := {}, encs := [], host := {}, stop := none, turn := .host, draws := 0 }

/-- `s` with pin `p` replaced. -/
def withPin (p : Nat) (pin : Pin) (s : State) : State := s.setPins (mapPins (fun q old => if q = p then pin else old) s.pins)

/-- `s` inside an item: `pos` transactions done, the last of them read `v`. -/
def inside (pos : Nat) (v : Word) (s : State) : State := (s.setPos pos).setLocals { s.host.locals with v }

/-- `s` with encoder 0 on pins 23 and 24. -/
def withEncoder (raw : BitVec 4) (count : BitVec 32) (s : State) : State :=
  { s with encs := [(0, { pinA := 23, pinB := 24, raw := some raw, count := some count })] }

/-- What `f` sees in the next state, if there is one. -/
def onNext {α : Type} (o : Outcome) (f : State → α) : Option α :=
  match o with
  | .next t => some (f t)
  | _ => none

/-- The fault an outcome is. -/
def faultOf (o : Outcome) : Option Fault :=
  match o with
  | .fault r => some r
  | _ => none

/-- The refusal an outcome is. -/
def refusalIn (o : Outcome) : Option Refusal :=
  match o with
  | .refused r => some r
  | _ => none

/-- An Output pin with its latch at `latch`. -/
def output (latch : Bool) : Pin := { fsel := 1, latch }

/-- The controller Active, with the given FIFOs. -/
def active (txq rxq : List Byte) : Spi := { renb := false, ta := true, txq, rxq }

/-! ## Well-formedness: each check refuses an ill-formed term -/

theorem test_wellFormed_setChipSelect :
    (Instr.setChipSelect 1).wellFormed = true ∧ (Instr.setChipSelect 2).wellFormed = false := by decide

/-- V-S43. -/
theorem test_wellFormed_bufferTransfer :
    (Instr.bufferTransfer [1, 2] 2).wellFormed = true ∧ (Instr.bufferTransfer [1, 2] 3).wellFormed = false := by decide

/-- A list longer than a 32-bit word can say is refused. -/
theorem test_encodable_bufferTransfer (bs : List Byte) (h : bs.length = 2 ^ 32) :
    (Instr.bufferTransfer bs 0).encodable = false := by simp [Instr.encodable, h]

/-- Decoding with the default register tables. -/
def read (ws : List Word) : Except DecodeError (Instr × List Word) := decode .defaults ws

/-! ## Decoding, from the tables of R88, R89 and R91 -/

theorem test_decode_gpfsel :
    [[0xB0, 0x3F200000], [0xB1, 0x3F200000, 7],
     [0xB0, 0x3F200004], [0xB1, 0x3F200004, 7],
     [0xB0, 0x3F200008], [0xB1, 0x3F200008, 7],
     [0xB0, 0x3F20000C], [0xB1, 0x3F20000C, 7],
     [0xB0, 0x3F200010], [0xB1, 0x3F200010, 7],
     [0xB0, 0x3F200014], [0xB1, 0x3F200014, 7]].map read
      = [.ok (.ldGpfsel0, []), .ok (.stGpfsel0 7, []),
         .ok (.ldGpfsel1, []), .ok (.stGpfsel1 7, []),
         .ok (.ldGpfsel2, []), .ok (.stGpfsel2 7, []),
         .ok (.ldGpfsel3, []), .ok (.stGpfsel3 7, []),
         .ok (.ldGpfsel4, []), .ok (.stGpfsel4 7, []),
         .ok (.ldGpfsel5, []), .ok (.stGpfsel5 7, [])] := by
  decide

theorem test_decode_set_clear_level :
    read [0xB1, 0x3F20001C, 7] = .ok (.stGpset0 7, []) ∧ read [0xB1, 0x3F200020, 7] = .ok (.stGpset1 7, [])
    ∧ read [0xB1, 0x3F200028, 7] = .ok (.stGpclr0 7, []) ∧ read [0xB1, 0x3F20002C, 7] = .ok (.stGpclr1 7, [])
    ∧ read [0xB0, 0x3F200034] = .ok (.ldGplev0, []) ∧ read [0xB0, 0x3F200038] = .ok (.ldGplev1, []) := by
  decide

theorem test_decode_edges :
    [[0xB0, 0x3F200040], [0xB1, 0x3F200040, 7],
     [0xB0, 0x3F200044], [0xB1, 0x3F200044, 7],
     [0xB0, 0x3F20004C], [0xB1, 0x3F20004C, 7],
     [0xB0, 0x3F200050], [0xB1, 0x3F200050, 7],
     [0xB0, 0x3F200058], [0xB1, 0x3F200058, 7],
     [0xB0, 0x3F20005C], [0xB1, 0x3F20005C, 7]].map read
      = [.ok (.ldGpeds0, []), .ok (.stGpeds0 7, []),
         .ok (.ldGpeds1, []), .ok (.stGpeds1 7, []),
         .ok (.ldGpren0, []), .ok (.stGpren0 7, []),
         .ok (.ldGpren1, []), .ok (.stGpren1 7, []),
         .ok (.ldGpfen0, []), .ok (.stGpfen0 7, []),
         .ok (.ldGpfen1, []), .ok (.stGpfen1 7, [])] := by
  decide

theorem test_decode_spi_registers :
    read [0xB0, 0x3F204000] = .ok (.ldSpiCs, []) ∧ read [0xB1, 0x3F204000, 7] = .ok (.stSpiCs 7, [])
    ∧ read [0xB0, 0x3F204004] = .ok (.ldSpiFifo, []) ∧ read [0xB1, 0x3F204004, 7] = .ok (.stSpiFifo 7, [])
    ∧ read [0xB0, 0x3F204008] = .ok (.ldSpiClk, []) ∧ read [0xB1, 0x3F204008, 7] = .ok (.stSpiClk 7, []) := by
  decide

theorem test_decode_gpio_operations :
    read [0x01, 17, 1] = .ok (.setPinMode 17 1, []) ∧ read [0x02, 40, 5] = .ok (.writePin 40 5, [])
    ∧ read [0x03, 54] = .ok (.readPin 54, []) ∧ read [0x04, 4, 0] = .ok (.enableEdgeDetect 4 .rising, [])
    ∧ read [0x04, 4, 1] = .ok (.enableEdgeDetect 4 .falling, [])
    ∧ read [0x04, 4, 2] = .ok (.enableEdgeDetect 4 .changing, [])
    ∧ read [0x04, 4, 3] = .ok (.enableEdgeDetect 4 .noEdge, []) ∧ read [0x05, 3] = .ok (.eventDetected 3, []) := by
  decide

theorem test_decode_spi_operations :
    [[0x10], [0x11],
     [0x12, 0xFFFF], [0x13, 2],
     [0x14], [0x15, 0xFF],
     [0x16, 0x1234], [0x17],
     [0x18, 0xAA], [0x19, 0, 0],
     [0x19, 2, 1, 2, 3]].map read
      = [.ok (.spiStart, []), .ok (.spiEnd, []),
         .ok (.setClockDivider 0xFFFF, []), .ok (.setChipSelect 2, []),
         .ok (.beginTransfer, []), .ok (.send 0xFF, []),
         .ok (.send16 0x1234, []), .ok (.endTransfer, []),
         .ok (.transferByte 0xAA, []), .ok (.bufferTransfer [] 0, []),
         .ok (.bufferTransfer [1, 2] 3, [])] := by
  decide

theorem test_decode_qdec :
    read [0x20, 1, 23, 24, 0x14] = .ok (.qdecInitialize 1 23 24, [0x14]) ∧ read [0x21, 1] = .ok (.qdecPoll 1, []) := by
  decide

/-- V-E15 to V-E20: no row. -/
theorem test_decode_refuses_unmapped :
    decodeAccess .defaults false 32 0x3F20001C none = .error (.unmapped false 32 0x3F20001C none)
    ∧ decodeAccess .defaults true 32 0x3F200034 (some 7) = .error (.unmapped true 32 0x3F200034 (some 7))
    ∧ decodeAccess .defaults false 32 0x3F200018 none = .error (.unmapped false 32 0x3F200018 none)
    ∧ decodeAccess .defaults false 32 0x3F20400C none = .error (.unmapped false 32 0x3F20400C none)
    ∧ decodeAccess .defaults false 8 0x3F200034 none = .error (.unmapped false 8 0x3F200034 none)
    ∧ decodeAccess .defaults false 32 0x3F200036 none = .error (.unmapped false 32 0x3F200036 none) := by
  decide

/-- R91, V-G40, V-S33: an argument outside its type; R102: an unknown first word, an image that ends inside an item. -/
theorem test_decode_refuses_arguments :
    read [0x04, 4, 4] = .error (.badArgument 0x04 4) ∧ read [0x12, 0x10000] = .error (.badArgument 0x12 0x10000)
    ∧ read [0x15, 0x100] = .error (.badArgument 0x15 0x100) ∧ read [0x16, 0x10000] = .error (.badArgument 0x16 0x10000)
    ∧ read [0x18, 0x100] = .error (.badArgument 0x18 0x100) ∧ read [0x19, 1, 0x100, 1] = .error (.badArgument 0x19 0x100)
    ∧ read [0x06] = .error (.unknownItem 0x06) ∧ read [0x01, 17] = .error (.truncated 0x01)
    ∧ read [0x19, 3, 1, 2] = .error (.truncated 0x19) := by
  decide

/-- V-E10 to V-E14: the selection key of a row, and the id of an operation row. -/
theorem test_decode_table_words :
    decodeTableWord 40 0x03F200004 = some .ldGpfsel1 ∧ decodeTableWord 40 0x13F20001C = some (.stGpset0 0)
    ∧ decodeTableWord 40 0x03F200038 = some .ldGplev1 ∧ decodeTableWord 40 0x13F204000 = some (.stSpiCs 0)
    ∧ decodeTableWord 40 0x03F204004 = some .ldSpiFifo ∧ decodeTableWord 40 0x03F20001C = none
    ∧ decodeTableWord 8 0x19 = some (.bufferTransfer [] 0) ∧ decodeTableWord 8 0x21 = some (.qdecPoll 0) := by
  decide

/-- R102 and the programs P1, P3 and P5 of 95_test_vectors.md. -/
theorem test_encode_examples :
    encode .defaults (.setPinMode 17 1) = [0x00000001, 0x00000011, 0x00000001]
    ∧ encode .defaults (.stGpset0 0x00020000) = [0x000000B1, 0x3F20001C, 0x00020000]
    ∧ encode .defaults .ldGpfsel1 = [0x000000B0, 0x3F200004]
    ∧ encode .defaults (.enableEdgeDetect 5 .falling) = [0x00000004, 0x00000005, 0x00000001]
    ∧ encode .defaults (.bufferTransfer [1, 2, 3] 3) = [0x00000019, 0x00000003, 0x00000001, 0x00000002, 0x00000003, 0x00000003]
    ∧ encode .defaults (.qdecInitialize 0 23 24) = [0x00000020, 0x00000000, 0x00000017, 0x00000018] := by
  decide

/-- V-E1 to V-E9: register, field, bank and bit of a pin. -/
theorem test_pin_routing :
    (fselReg 9, fselShift 9) = (0, 27) ∧ (fselReg 10, fselShift 10) = (1, 0) ∧ (fselReg 53, fselShift 53) = (5, 9)
    ∧ (bankOf 31, pinMask 31) = (0, 0x80000000) ∧ (bankOf 32, pinMask 32) = (1, 0x00000001)
    ∧ (bankOf 53, pinMask 53) = (1, 0x00200000) ∧ validPin 53 ∧ ¬ validPin 54 := by
  decide

/-! ## Other register tables: `GPIO_OFFSETS` and `SPI0_LAYOUT` are parameters (R9, D9) -/

/-- A block whose set and clear registers have changed places, whose FIFO stands at 0x0C, whose TA and CLEAR_TX bits have
changed places, whose chip-select field is bits 31:30 and whose data byte and CDIV are bits 31:24 and 31:16. -/
def otherChip : Params :=
  { Params.defaults with
    gpioOffsets := { gpioOffsetsDefault with gpset := #v[0x28, 0x2C], gpclr := #v[0x1C, 0x20] }
    spi0Layout := { spiLayoutDefault with
      fifoOffset := 0x0C, fifoData := 24, cdiv := 16
      csBits := { csPositionsDefault with cs := 30, ta := 4, clearTx := 7 } } }

/-- The small state of that block. -/
def otherZero : State := { zero with params := otherChip }

theorem test_other_decode :
    decode otherChip [0xB1, 0x3F20001C, 7] = .ok (.stGpclr0 7, []) ∧ decode otherChip [0xB1, 0x3F20002C, 7] = .ok (.stGpset1 7, [])
    ∧ decode otherChip [0xB0, 0x3F20400C] = .ok (.ldSpiFifo, [])
    ∧ decode otherChip [0xB0, 0x3F204004] = .error (.unmapped false 32 0x3F204004 none)
    ∧ encode otherChip (.stGpset0 7) = [0xB1, 0x3F200028, 7] := by decide

/-- R142 with the moved positions: chip select, TA, and the clear of the TX FIFO. -/
theorem test_other_cs_write :
    onNext (exec (.stSpiCs 0x80000010) otherZero) (fun t => (t.spi.cs, t.spi.ta)) = some (2, true)
    ∧ onNext (exec (.stSpiCs 0x00000080) (otherZero.setSpi { txq := [1], rxq := [2] })) (fun t => (t.spi.txq, t.spi.rxq))
      = some ([], [2])
    ∧ refusalIn (exec (.stSpiCs 0xC0000000) otherZero) = some (.outOfScopeField 0xC0000000) := by decide

/-- R141, R146, R149, R167 and R164 with the moved positions. -/
theorem test_other_fields :
    (List.range 32).filter (fun i => i ∉ [0, 1, 26, 27, 28, 29] && (otherZero.setSpi { cs := 3, ta := true }).readBit .cs i)
      = [4, 12, 16, 18, 30, 31]
    ∧ (otherZero.setSpi { rxq := [0x5A] }).readByte = 0x5A
    ∧ onNext (exec (.send 0x5A) (inside 1 0 (otherZero.setSpi (active [] [])))) (fun t => t.spi.txq) = some [0x5A]
    ∧ onNext (exec (.setClockDivider 0x1234) otherZero) (fun t => t.spi.cdiv) = some 0x1234
    ∧ onNext (exec (.stSpiClk 0x12345678) otherZero) (fun t => t.spi.cdiv) = some 0x1234 := by decide

/-- Each check of the tables refuses an ill-formed one: one address twice, an address that is no multiple of 4, one bit
in two fields (the chip-select field's upper bit is CPHA's). -/
theorem test_tables_wf :
    ¬ { Params.defaults with gpioOffsets := { gpioOffsetsDefault with gpset := #v[0x04, 0x20] } }.wf
    ∧ ¬ { Params.defaults with spi0Layout := { spiLayoutDefault with clkOffset := 0x0A } }.wf
    ∧ ¬ { Params.defaults with
          spi0Layout := { spiLayoutDefault with csBits := { csPositionsDefault with cs := 1 } } }.wf :=
  ⟨fun h => absurd h.1 (by decide), fun h => absurd h.2.1 (by decide),
    fun h => absurd h.2.2 (by decide)⟩

/-! ## Register transactions -/

/-- The example of R114. -/
theorem test_ld_gpfsel1 :
    ∀ i, i < 30 → (withPin 17 (output false) zero).readBit (.gpfsel 1) i = (0x00200000#32).getLsbD i := by decide

/-- V-G2. -/
theorem test_st_gpfsel0 :
    onNext (exec (.stGpfsel0 0x24800000) zero) (fun t => (List.range 11).map fun p => (t.pin p).fsel)
      = some [0, 0, 0, 0, 0, 0, 0, 4, 4, 4, 0] := by decide

/-- V-G5: bits 31:12 of GPFSEL5 belong to no pin. -/
theorem test_st_gpfsel5 :
    onNext (exec (.stGpfsel5 0xFFFFFFFF) zero) (fun t => ((t.pin 49).fsel, (t.pin 50).fsel, (t.pin 53).fsel))
      = some (0, 7, 7) := by decide

/-- V-G8, V-G17: the held latch drives the pin when it becomes an Output, and the edge is detected. -/
theorem test_st_gpfsel1_retroactive :
    onNext (exec (.stGpfsel1 0x00200000) (withPin 17 { latch := true, ren := true } zero))
      (fun t => ((t.pin 17).lev, (t.pin 17).eds)) = some (true, true) := by decide

/-- V-G7: a pin not in Output mode only has its latch changed. -/
theorem test_st_gpset0_input :
    onNext (exec (.stGpset0 0x00020000) (withPin 17 { ren := true } zero))
      (fun t => ((t.pin 17).latch, (t.pin 17).lev, (t.pin 17).eds)) = some (true, false, false) := by decide

/-- V-G11, V-G12: bank 1 bits 31:22 belong to no pin, bit 21 is pin 53. -/
theorem test_st_gpset1 :
    onNext (exec (.stGpset1 0xFFE00000) (withPin 53 (output false) zero)) (fun t => ((t.pin 53).lev, (t.pin 52).latch))
      = some (true, false) := by decide

/-- V-G9. -/
theorem test_st_gpclr0 :
    onNext (exec (.stGpclr0 0x00020000) (withPin 18 (output true) (withPin 17 (output true) zero)))
      (fun t => ((t.pin 17).lev, (t.pin 18).lev)) = some (false, true) := by decide

/-- The example of R117. -/
theorem test_st_gpclr1 :
    onNext (exec (.stGpclr1 0x00000001) (withPin 32 (output true) zero)) (fun t => (t.pin 32).latch) = some false := by
  decide

/-- The example of R118. -/
theorem test_ld_gplev1 : (withPin 40 (output true) zero).readBit (.gplev 1) 8 = true := by decide

/-- V-G18. -/
theorem test_ld_gpeds0 :
    ∀ i, i < 32 → (withPin 3 { eds := true } (withPin 5 { eds := true } zero)).readBit (.gpeds 0) i
      = (0x00000028#32).getLsbD i := by decide

/-- V-G19. -/
theorem test_st_gpeds0 :
    onNext (exec (.stGpeds0 0x00000008) (withPin 3 { eds := true } (withPin 5 { eds := true } zero)))
      (fun t => ((t.pin 3).eds, (t.pin 5).eds)) = some (false, true) := by decide

/-- The examples of R123 and R125. -/
theorem test_st_gpren0_gpfen1 :
    onNext (exec (.stGpren0 0x00000010) (withPin 5 { ren := true } zero)) (fun t => ((t.pin 4).ren, (t.pin 5).ren))
      = some (true, false)
    ∧ onNext (exec (.stGpfen1 0) (withPin 53 { fen := true } zero)) (fun t => (t.pin 53).fen) = some false := by decide

/-- V-G13, V-G14, V-G15: an edge on a pad sets the flag, which is sticky; a disabled edge does not. -/
theorem test_pad_edge :
    ((padStep 4 true (withPin 4 { ren := true } zero)).pin 4).eds = true
    ∧ ((padStep 4 false (withPin 4 { ren := true, ext := true, eds := true } zero)).pin 4).eds = true
    ∧ ((padStep 4 false (withPin 4 { ren := true, ext := true } zero)).pin 4).eds = false := by decide

/-- V-S1. -/
theorem test_ld_cs_reset : ∀ i, i < 26 → zero.readBit .cs i = (0x00041000#32).getLsbD i := by decide

/-- V-S18. -/
theorem test_ld_cs_full :
    ∀ i, i < 26 → (zero.setSpi (active [] (List.replicate 16 0))).readBit .cs i = (0x001F0080#32).getLsbD i := by decide

/-- V-S9. -/
theorem test_st_cs_stored :
    onNext (exec (.stSpiCs 0x00E0004C) zero) (fun t => (List.range 26).map (t.readBit .cs))
      = some ((List.range 26).map (0x00E4004C#32).getLsbD) := by decide

/-- V-S4, V-S5, V-S6: RF2. -/
theorem test_st_cs_refused :
    refusalIn (exec (.stSpiCs 0x00000003) zero) = some (.outOfScopeField 3)
    ∧ refusalIn (exec (.stSpiCs 0x00000100) zero) = some (.outOfScopeField 0x100)
    ∧ refusalIn (exec (.stSpiCs 0x00000200) zero) = some (.outOfScopeField 0x200) := by decide

/-- V-S14, V-S15: FT3, FT2. -/
theorem test_st_cs_faults :
    faultOf (exec (.stSpiCs 0x00000030) (zero.setSpi { active [] [] with shift := some (0xAA, 0) }))
      = some (.clearDuringShift 0x30 (some (0xAA, 0)))
    ∧ faultOf (exec (.stSpiCs 0) (zero.setSpi { active [] [] with shift := some (0xAA, 0) }))
      = some (.taClearedMidTransfer 0 0 (some (0xAA, 0))) := by decide

/-- V-S24. -/
theorem test_st_cs_clears :
    onNext (exec (.stSpiCs 0x000000B0) (zero.setSpi (active [1, 2] [3]))) (fun t => (t.spi.txq, t.spi.rxq, t.spi.ta))
      = some ([], [], true) := by decide

/-- V-S21, V-S22. -/
theorem test_ld_fifo :
    onNext (exec .ldSpiFifo (zero.setSpi { rxq := [0x5A, 1] })) (fun t => t.spi.rxq) = some [1]
    ∧ (zero.setSpi { rxq := [0x5A] }).readByte = 0x5A
    ∧ onNext (exec .ldSpiFifo zero) (fun t => t.spi.rxq) = some [] := by decide

/-- V-S10, V-S12, and the example of R147. -/
theorem test_st_fifo :
    refusalIn (exec (.stSpiFifo 0x55) zero) = some (.fifoWriteWhileIdle 0x55)
    ∧ faultOf (exec (.stSpiFifo 0x99) (zero.setSpi (active (List.replicate 16 0) []))) = some (.txOverflow 0x99)
    ∧ onNext (exec (.stSpiFifo 0x000000AA) (zero.setSpi (active [] []))) (fun t => t.spi.txq) = some [0xAA] := by decide

/-- V-S23. -/
theorem test_clk :
    onNext (exec (.stSpiClk 0x12345678) zero) (fun t => t.spi.cdiv) = some 0x5678
    ∧ ∀ i, i < 16 → (zero.setSpi { cdiv := 0x5678 }).readBit .clk i = (0x5678#16).getLsbD i := by decide

/-- V-S13, V-S16. -/
theorem test_engine_load_complete :
    ((engineStep 0x11 (zero.setSpi (active [0xAA] []))).spi.txq, (engineStep 0x11 (zero.setSpi (active [0xAA] []))).spi.shift)
      = ([], some (0xAA, 0))
    ∧ (engineSpi .defaults 0xAA { active [] [] with shift := some (0xAA, 2) }).wire = [(2, 0xAA, 0xAA)] := by decide

/-- V-S19, V-S20: a full RX FIFO stalls the engine; under `drop` the reply is discarded. -/
theorem test_engine_full :
    engineSpi .defaults 7 (active [1] (List.replicate 16 0)) = active [1] (List.replicate 16 0)
    ∧ (engineRun { Params.defaults with rxFullPolicy := .drop } [7, 7] (active [1] (List.replicate 16 0))).rxq = List.replicate 16 0
    ∧ (engineRun { Params.defaults with rxFullPolicy := .drop } [7, 7] (active [1] (List.replicate 16 0))).wire = [(0, 1, 7)] := by decide

/-! ## Operations, one transaction each -/

/-- V-G22: the write of `SetPinMode 10, Alt4` after it read 0x00200000. -/
theorem test_setPinMode_write :
    onNext (exec (.setPinMode 10 3) (inside 1 0x00200000 (withPin 17 (output false) zero)))
      (fun t => ((t.pin 10).fsel, (t.pin 17).fsel, (t.pin 11).fsel, t.host.ip)) = some (3, 1, 0, 1) := by decide

/-- V-G26, V-G27. -/
theorem test_setPinMode_no_op :
    onNext (exec (.setPinMode 54 1) zero) (fun t => (t.pins, t.host.ip)) = some (zero.pins, 1)
    ∧ onNext (exec (.setPinMode 5 8) zero) (fun t => (t.pins, t.host.ip)) = some (zero.pins, 1) := by decide

/-- V-G30, V-G32. -/
theorem test_writePin :
    onNext (exec (.writePin 31 1) zero) (fun t => ((t.pin 31).latch, (t.pin 32).latch)) = some (true, false)
    ∧ onNext (exec (.writePin 40 5) zero) (fun t => (t.pin 40).latch) = some true := by decide

/-- V-G28, V-G29, V-G41. -/
theorem test_invalid_pin :
    onNext (exec (.writePin 0xFFFFFFFF 1) zero) (fun t => t.pins) = some zero.pins
    ∧ onNext (exec (.readPin 54) zero) (fun t => t.host.result) = some (some (.bit false))
    ∧ onNext (exec (.eventDetected 54) zero) (fun t => t.host.result) = some (some (.flag false))
    ∧ onNext (exec (.enableEdgeDetect 60 .rising) zero) (fun t => t.pins) = some zero.pins := by decide

/-- V-G33, and the example of R129. -/
theorem test_readPin :
    onNext (exec (.readPin 17) (withPin 17 { ext := true } zero)) (fun t => t.host.result) = some (some (.bit true))
    ∧ onNext (exec (.readPin 5) (withPin 5 (output true) zero)) (fun t => t.host.result) = some (some (.bit true)) := by
  decide

/-- V-G38: `NoEdge` clears pin 4's enables and preserves pin 0's. -/
theorem test_enableEdgeDetect :
    onNext (exec (.enableEdgeDetect 4 .noEdge) (inside 1 0x11 (withPin 4 { ren := true, fen := true } zero)))
      (fun t => ((t.pin 0).ren, (t.pin 4).ren, (t.pin 4).fen)) = some (true, false, true)
    ∧ onNext (exec (.enableEdgeDetect 4 .noEdge) (inside 3 0x10 (withPin 4 { fen := true } zero)))
      (fun t => ((t.pin 4).fen, t.host.ip)) = some (false, 1) := by decide

/-- V-G42, V-G43, V-G45: the clearing writes. -/
theorem test_eventDetected :
    onNext (exec (.eventDetected 3) zero) (fun t => t.host.result) = some (some (.flag false))
    ∧ onNext (exec (.eventDetected 3) (inside 2 0x28 (withPin 3 { eds := true } (withPin 5 { eds := true } zero))))
      (fun t => ((t.pin 3).eds, (t.pin 5).eds, t.host.result)) = some (false, false, some (.flag true))
    ∧ onNext (exec (.eventDetected 3)
        { inside 1 0x28 (withPin 3 { eds := true } (withPin 5 { eds := true } zero)) with
          params := { Params.defaults with edsClearStyle := .directWrite } })
      (fun t => ((t.pin 3).eds, (t.pin 5).eds, t.host.result)) = some (false, true, some (.flag true)) := by decide

/-- R162 and program P2: Start's write for pin 9, and its three CS writes. -/
theorem test_start :
    onNext (exec .spiStart (inside 5 0x04800000 zero)) (fun t => (t.pin 9).fsel) = some 4
    ∧ onNext (exec .spiStart (inside 10 0 zero)) (fun t => (t.spi.renb, t.host.pos)) = some (false, 11)
    ∧ onNext (exec .spiStart (inside 12 0x00040000 (zero.setSpi { txq := [1], rxq := [2] }))) (fun t => (t.spi.txq, t.spi.rxq))
      = some ([], [])
    ∧ onNext (exec .spiStart (inside 14 0x00040001 zero)) (fun t => (t.spi.cs, t.host.ip)) = some (0, 1) := by decide

/-- V-S50: FT2 at Start's zeroing write. -/
theorem test_start_aborts :
    faultOf (exec .spiStart (inside 10 0 (zero.setSpi (active [1] [])))) = some (.taClearedMidTransfer 0 1 none) := by decide

/-- V-S51: End's last write. -/
theorem test_end :
    onNext (exec .spiEnd (inside 9 0x00000020 (withPin 11 { fsel := 4 } zero))) (fun t => ((t.pin 11).fsel, t.host.ip))
      = some (0, 1) := by decide

/-- V-S31: the write of `SetChipSelect 0`; V-S32. -/
theorem test_setChipSelect :
    onNext (exec (.setChipSelect 0) (inside 1 0x0005008D (zero.setSpi { active [] [] with cpol := true, cpha := true, cs := 1 })))
      (fun t => t.spi) = some { active [] [] with cpol := true, cpha := true }
    ∧ refusalIn (exec (.setChipSelect 2) zero) = some (.badArgument 0x13 2) := by decide

/-- The example of R164, and V-S34. -/
theorem test_setClockDivider :
    onNext (exec (.setClockDivider 1024) zero) (fun t => (t.spi.cdiv, t.host.ip)) = some (0x0400, 1)
    ∧ onNext (exec (.setClockDivider 0) (zero.setSpi { cdiv := 5 })) (fun t => t.spi.cdiv) = some 0 := by decide

/-- V-S35: BeginTransfer's two writes. -/
theorem test_beginTransfer :
    onNext (exec .beginTransfer (inside 1 0x00040000 (zero.setSpi { rxq := [1] }))) (fun t => (t.spi.rxq, t.spi.ta))
      = some ([], false)
    ∧ onNext (exec .beginTransfer (inside 3 0x00040000 zero)) (fun t => (t.spi.ta, t.spi.done, t.host.ip))
      = some (true, true, 1) := by decide

/-- The example of R167, V-S36, and V-S47: a wait does not advance. -/
theorem test_send :
    onNext (exec (.send 0x5A) (inside 1 0x00050080 (zero.setSpi (active [] [])))) (fun t => t.spi.txq) = some [0x5A]
    ∧ refusalIn (exec (.send 0x5A) (inside 1 0x00040000 zero)) = some (.fifoWriteWhileIdle 0x5A)
    ∧ onNext (exec (.send 0x5A) (zero.setSpi (active (List.replicate 16 0) []))) (fun t => (t.host.pos, t.host.ip))
      = some (0, 0) := by decide

/-- The example of R168, and V-S39. -/
theorem test_send16 :
    onNext (exec (.send16 0x1234) (inside 2 0 (zero.setSpi (active [0x12] [])))) (fun t => (t.spi.txq, t.host.ip))
      = some ([0x12, 0x34], 1)
    ∧ faultOf (exec (.send16 0xBEEF) (inside 2 0 (zero.setSpi (active (List.replicate 16 0) [])))) = some (.txOverflow 0xEF) := by
  decide

/-- The wait of R169, and V-S37's last write. -/
theorem test_endTransfer :
    onNext (exec .endTransfer (zero.setSpi (active [1] []))) (fun t => t.host.pos) = some 0
    ∧ onNext (exec .endTransfer zero) (fun t => t.host.pos) = some 1
    ∧ onNext (exec .endTransfer (inside 2 0x00070080 (zero.setSpi (active [] [0x5A])))) (fun t => (t.spi.ta, t.spi.rxq))
      = some (false, [0x5A]) := by decide

/-- V-S49, and program P2's FIFO read and return. -/
theorem test_transferByte :
    faultOf (exec (.transferByte 1) (inside 1 0x00040080 (zero.setSpi { active [] [] with shift := some (9, 0) })))
      = some (.clearDuringShift 0x000400B0 (some (9, 0)))
    ∧ onNext (exec (.transferByte 0xAA) (inside 7 0 (zero.setSpi (active [] [0xAA])))) (fun t => (t.host.locals.r, t.spi.rxq))
      = some (0xAA, []) := by decide

/-- V-S43, and V-S45: the stale byte is taken first. -/
theorem test_bufferTransfer :
    refusalIn (exec (.bufferTransfer [1, 2] 3) zero) = some (.badArgument 0x19 3)
    ∧ onNext (exec (.bufferTransfer [0x22] 1)
        { zero.setSpi (active [] [0x11, 0x22]) with host := { pos := 5, locals := { t := 1 } } })
      (fun t => (t.host.locals.rxBuf, t.spi.rxq, t.host.pos)) = some ([0x11], [0x22], 6) := by decide

/-- V-Q12 and R194: the last write of Initialize leaves raw 0 and count 0. -/
theorem test_qdecInitialize :
    onNext (exec (.qdecInitialize 0 23 24) (inside 3 0 (withEncoder 5 9 zero))) (fun t => (t.encs, t.host.ip))
      = some ([(0, { pinA := 23, pinB := 24, raw := some 0, count := some 0 })], 1) := by decide

/-- V-Q2's first poll (its B transaction), V-Q9, V-Q11. -/
theorem test_qdecPoll :
    onNext (exec (.qdecPoll 0) (inside 1 0 (withEncoder 0 0 (withPin 24 { ext := true } zero)))) (fun t => t.enc 0)
      = some { pinA := 23, pinB := 24, raw := some 1, count := some 1 }
    ∧ faultOf (exec (.qdecPoll 0)
        { withEncoder 1 0x7FFFFFFF (withPin 24 { ext := true } zero) with host := { pos := 1, locals := { a := true } } })
      = some (.countOverflow 0 7 0x7FFFFFFF 1)
    ∧ refusalIn (exec (.qdecPoll 0) zero) = some (.qdecUninitialised 0) := by decide

/-- V-Q13: the sample of an invalid pin is 0 and has no transaction. -/
theorem test_qdecPoll_invalid_pin :
    onNext (exec (.qdecPoll 0)
        { withPin 24 { ext := true } zero with encs := [(0, { pinA := 60, pinB := 24, raw := some 0, count := some 0 })] })
      (fun t => t.enc 0) = some { pinA := 60, pinB := 24, raw := some 1, count := some 1 } := by decide

/-- P6 and R208: RF3 is recorded with its data and `H.ip` stays. -/
theorem test_stop_recorded :
    (settle ((zero.loadProgram [0xB1, 0x3F204004, 0x55]))).stop = some (.refusal (.fifoWriteWhileIdle 0x55))
    ∧ (settle (zero.loadProgram [0xB1, 0x3F204004, 0x55])).host.ip = 0 := by decide

/-- R195, R142: what a raising step did before its stop is kept: `E.raw` at FT4, the emptied RX FIFO at FT2. -/
theorem test_stop_partial_effects :
    ((zero.recordStop (.fault (.countOverflow 0 7 5 1))).enc 0).raw = some 7
    ∧ ((zero.setSpi (active [1] [2])).recordStop (.fault (.taClearedMidTransfer 0x20 1 none))).spi.rxq = []
    ∧ ((zero.setSpi (active [1] [2])).recordStop (.fault (.taClearedMidTransfer 0x20 1 none))).spi.txq = [1] := by decide

/-! ## A witness for the hypotheses of each obligation -/

/-- A program of one item, the host to move. -/
def running (prog : List Word) (s : State) : State := s.loadProgram prog

/-- The step answers a next state in which something `f` sees differs. -/
def changes {α : Type} [DecidableEq α] (f : State → α) (s : State) : Bool :=
  match step s with
  | .next t => decide (f t ≠ f s)
  | _ => false

/-- BufferTransfer at transaction `pos`, having sent `t` bytes of `[7, 8]` and taken `rxBuf`. -/
def transferring (pos t : Nat) (rxBuf : List Byte) (spi : Spi) : State :=
  { (running [0x19, 2, 7, 8, 2] zero).setSpi spi with
    host := { prog := [0x19, 2, 7, 8, 2], pos, locals := { t, rxBuf } } }

/-- The small state with another controller. -/
def withSpi (spi : Spi) : State := zero.setSpi spi

/-- The controller Active with a byte in the shifter. -/
def shiftingWith (txq rxq : List Byte) : Spi := { active txq rxq with shift := some (9, 2) }

/-- The controller Active with a byte in the shifter and an empty RX FIFO. -/
def shifting (txq : List Byte) : Spi := shiftingWith txq []

/-- An encoder one of whose pins is invalid, the other at the level `b`. -/
def oneValid (raw : BitVec 4) (count : BitVec 32) (b : Bool) : State :=
  { withPin 24 { ext := b } zero with encs := [(0, { pinA := 54, pinB := 24, raw := some raw, count := some count })] }

theorem test_witness_ResetReadsAsTheTableSays : 11 < 30 ∧ 10 * 5 + 11 / 3 ≤ 53 ∧ 32 * 1 + 21 ≤ 53 := by decide

theorem test_witness_LaunchStatesMeetInvariant : Launch (zero.setSpi { rxq := [1], ta := true, cs := 2 }) := by
  constructor <;> decide

theorem test_witness_zero_invariant : MachineInv (withEncoder 1 2 zero) where
  spi := ⟨by decide, by decide, by decide, by decide, nofun, by decide, nofun⟩
  encs := by decide
  encsWhole := by decide

theorem test_witness_StepKeepsInvariant : MachineInv (running [0x14] zero) ∧ ∃ t, step (running [0x14] zero) = .next t :=
  ⟨⟨⟨by decide, by decide, by decide, by decide, nofun, by decide, nofun⟩, by decide, by decide⟩, _, rfl⟩

theorem test_witness_StepKeepsParametersAndProgram : ∃ t, step (running [0x14] zero) = .next t := ⟨_, rfl⟩

theorem test_witness_TransferActiveChangesOnlyByCsWrite :
    changes (fun t => t.spi.ta) (running [0xB1, 0x3F204000, 0x80] zero) = true := by decide

/-- A detected edge, and a clearing write. -/
theorem test_witness_EventFlagChangesOnlyByEdgeOrClear :
    changes (fun t => (t.pin 53).eds) ((withPin 53 { ren := true } zero).setTurn (.pad 53 true)) = true
    ∧ changes (fun t => (t.pin 53).eds) ((withPin 53 { fen := true, ext := true } zero).setTurn (.pad 53 false)) = true
    ∧ changes (fun t => (t.pin 32).eds) (running [0xB1, 0x3F200044, 1] (withPin 32 { eds := true } zero)) = true := by decide

theorem test_witness_ModeAndLatchChangeOnlyByTheirWrites :
    changes (fun t => (t.pin 53).fsel) (running [0xB1, 0x3F200014, 0x200] zero) = true
    ∧ changes (fun t => (t.pin 32).latch) (running [0xB1, 0x3F200020, 1] zero) = true
    ∧ changes (fun t => (t.pin 31).latch) (running [0xB1, 0x3F200028, 0x80000000] (withPin 31 (output true) zero)) = true := by
  decide

theorem test_witness_EncodersAndWireHaveOneWriter :
    changes (fun t => t.encs) (running [0x20, 0, 23, 24] zero) = true
    ∧ changes (fun t => t.spi.wire) ((zero.setSpi { shift := some (1, 0) }).setTurn (.engine 2)) = true := by decide

/-- A recorded stop; a refusal; each of the four faults. -/
theorem test_witness_StopIsTerminal :
    { zero with stop := some (.refusal (.qdecUninitialised 0)) }.stop = some (.refusal (.qdecUninitialised 0))
    ∧ refusalIn (step (running [0x21, 0] zero)) = some (.qdecUninitialised 0)
    ∧ faultOf (step (running [0xB1, 0x3F204004, 0x99] (withSpi (active (List.replicate 16 0) [])))) = some (.txOverflow 0x99)
    ∧ faultOf (step (running [0xB1, 0x3F204000, 0x20] (withSpi (active [1] [2])))) = some (.taClearedMidTransfer 0x20 1 none)
    ∧ faultOf (step (running [0xB1, 0x3F204000, 0x30] (zero.setSpi { shift := some (1, 0) })))
      = some (.clearDuringShift 0x30 (some (1, 0)))
    ∧ faultOf (step (running [0x21, 0] (oneValid 1 0x80000000 false))) = some (.countOverflow 0 4 0x80000000 (-1))
    ∧ encsWf 0 (running [0x21, 0] (oneValid 1 0x80000000 false)).encs = true := by decide

theorem test_witness_DecodeOfEncode : Params.defaults.wf ∧ (Instr.bufferTransfer [1, 2, 3] 3).encodable = true :=
  ⟨Laws.defaults_wf, by decide⟩

theorem test_witness_EncodeOfDecode : read [0x13, 1, 0x17] = .ok (.setChipSelect 1, [0x17]) := by decide

/-- Each side, in each direction. -/
theorem test_witness_AccessSelectsOneRegisterOrIsRefused :
    (Src.gpfen 1).addr .defaults = 0x3F20005C ∧ (Dst.gpset 1).addr .defaults = 0x3F200020
    ∧ (∀ r : Src, r.addr .defaults ≠ 0x3F200060) ∧ ∀ r : Dst, r.addr .defaults ≠ 0x3F200034 := by
  refine ⟨by decide, by decide, ?_, ?_⟩ <;> intro r <;> cases r <;> first | decide | (rename_i n; revert n; decide)

theorem test_witness_RegistersAnswerAtTheirAddresses :
    Params.defaults.wf ∧ (Src.gpeds 1).addr .defaults = (Src.gpeds 1).addr .defaults
    ∧ Dst.fifo.addr .defaults = Dst.fifo.addr .defaults := ⟨Laws.defaults_wf, rfl, rfl⟩

/-- The first item, and the end. -/
theorem test_witness_FetchReadsTheItemAtIp :
    Params.defaults.wf ∧ (∀ i ∈ [Instr.beginTransfer, .send 0x5A], i.encodable = true)
    ∧ (running [0x14, 0x15, 0x5A] zero).host.prog = [Instr.beginTransfer, .send 0x5A].flatMap (encode .defaults)
    ∧ (running [0x14, 0x15, 0x5A] zero).fetch = .item .beginTransfer
    ∧ (running [0x14, 0x15, 0x5A] zero |>.finish none |>.finish none).fetch = .ended :=
  ⟨Laws.defaults_wf, by decide, by decide, by decide, by decide⟩

theorem test_witness_HostStepRunsTheFetchedItem :
    (running [0x14] zero).stop = none ∧ (running [0x14] zero).turn = .host
    ∧ (running [0x14] zero).fetch = .item .beginTransfer
    ∧ decodeTableWordWith otherZero.params 40 0x13F20001C = some (.stGpclr0 0)
    ∧ zero.params.gpioOffsets = Params.defaults.gpioOffsets ∧ zero.params.spi0Layout = Params.defaults.spi0Layout
    ∧ decodeTableWord 8 0x14 = some .beginTransfer := by decide

/-- One address no read admits, one no write admits, each type's first value outside; a second item; the last of a list's
bytes. -/
theorem test_witness_UnadmittedItemsAreRefused :
    (∀ r : Src, r.addr .defaults ≠ 0x3F20001C) ∧ (∀ r : Dst, r.addr .defaults ≠ 0x3F200034)
    ∧ 3 < (4 : Word).toNat ∧ 0xFFFF < (0x10000 : Word).toNat ∧ 0xFF < (0x100 : Word).toNat ∧ Params.defaults.wf
    ∧ ((running [0x14, 0x15, 0x100] zero).stop = none ∧ (running [0x14, 0x15, 0x100] zero).turn = .host
      ∧ (running [0x14, 0x15, 0x100] zero |>.finish none).host.ip = [Instr.beginTransfer].length
      ∧ (running [0x14, 0x15, 0x100] zero).host.prog
        = [Instr.beginTransfer].flatMap (encode .defaults) ++ 0x15 :: 0x100 :: [])
    ∧ ((running [0x19, 2, 7, 0x100, 2] zero).host.prog
        = 0x19 :: 2 :: ([(7 : Byte)].map (·.setWidth 32) ++ 0x100 :: [2])
      ∧ [(7 : Byte)].length < (2 : Word).toNat ∧ (2 : Word).toNat ≤ [(7 : Byte)].length + [(2 : Word)].length) := by
  refine ⟨?_, ?_, by decide, by decide, by decide, Laws.defaults_wf, by decide, by decide⟩ <;> intro r <;> cases r <;>
    first | decide | (rename_i n; revert n; decide)

theorem test_witness_GpfselLoadReturnsModes :
    (Instr.ldGpfsel5, 5) ∈ [(Instr.ldGpfsel0, 0), (.ldGpfsel1, 1), (.ldGpfsel2, 2), (.ldGpfsel3, 3), (.ldGpfsel4, 4),
      (.ldGpfsel5, 5)] ∧ 3 < 10 ∧ 10 * 5 + 3 ≤ 53 := by decide

theorem test_witness_BankedLoadReturnsPinBits :
    Params.defaults.wf ∧ 31 < 32 ∧ 32 * 0 + 31 ≤ 53 ∧ 21 < 32 ∧ 32 * 1 + 21 ≤ 53 :=
  ⟨Laws.defaults_wf, by decide, by decide, by decide, by decide⟩

theorem test_witness_GpfselStoreSetsTenModes : 53 < 54 ∧ 53 / 10 = 5 ∧ 49 / 10 ≠ 5 := by decide

theorem test_witness_SetClearStoreActsOnOneBits :
    Params.defaults.wf ∧ (32 / 32 = 1 ∧ (1#32).getLsbD (32 % 32) = true)
    ∧ ¬ (31 / 32 = 1 ∧ (1#32).getLsbD (31 % 32) = true) := ⟨Laws.defaults_wf, by decide, by decide⟩

theorem test_witness_EventStatusStoreClearsOnOne : 53 < 54 ∧ 53 / 32 = 1 ∧ (0x200000#32).getLsbD (53 % 32) = true := by
  decide

theorem test_witness_EdgeEnableStoreWritesBank : 31 < 54 ∧ 31 / 32 = 0 ∧ 32 < 54 ∧ 32 / 32 = 1 := by decide

/-- Each flag at both values. -/
theorem test_witness_CsLoadReturnsFieldsAndFlags :
    zero.params.wf ∧ (active [] []).done = true ∧ (active [1] []).done = false ∧ (active [] [1]).rxd = true
    ∧ (active (List.replicate 16 0) []).txd .defaults = false ∧ (active [] (List.replicate 12 0)).rxr .defaults = true
    ∧ (active [] (List.replicate 11 0)).rxr .defaults = false ∧ (active [] (List.replicate 16 0)).rxf .defaults = true :=
  ⟨Laws.defaults_wf, by decide, by decide, by decide, by decide, by decide, by decide, by decide⟩

/-- Idle with every field written, and Active with a byte in the shifter. -/
theorem test_witness_CsStoreStoresFields :
    let c := zero.params.csBits
    ((0x00E010F6#32).extractLsb' c.cs 2 ≠ 3 ∧ (∀ i ∈ refusedBits c, (0x00E010F6#32).getLsbD i.val = false)
      ∧ (withSpi { txq := [1] }).spi.shift = none ∧ (withSpi { txq := [1] }).spi.ta = false)
    ∧ ((0x81#32).extractLsb' c.cs 2 ≠ 3 ∧ (∀ i ∈ refusedBits c, (0x81#32).getLsbD i.val = false)
      ∧ (0x81#32).getLsbD c.clearTx = false ∧ (0x81#32).getLsbD c.clearRx = false ∧ (0x81#32).getLsbD c.ta = true
      ∧ (withSpi (shifting [1])).spi.shift ≠ none ∧ (withSpi (shifting [1])).spi.ta = true) := by decide

/-- One word for each of the three stops. -/
theorem test_witness_CsStoreStopsInOrder :
    let c := zero.params.csBits
    (3#32).extractLsb' c.cs 2 = 3 ∧ (∃ i ∈ refusedBits c, (0x02000000#32).getLsbD i.val = true)
    ∧ ((0xA0#32).extractLsb' c.cs 2 ≠ 3 ∧ (∀ i ∈ refusedBits c, (0xA0#32).getLsbD i.val = false)
      ∧ (0xA0#32).getLsbD c.clearRx = true ∧ (withSpi (shifting [])).spi.shift ≠ none)
    ∧ ((0x20#32).extractLsb' c.cs 2 ≠ 3 ∧ (∀ i ∈ refusedBits c, (0x20#32).getLsbD i.val = false)
      ∧ (0x20#32).getLsbD c.clearTx = false ∧ (withSpi (active [1] [])).spi.shift = none ∧ (withSpi (active [1] [])).spi.ta = true
      ∧ (0x20#32).getLsbD c.ta = false ∧ (withSpi (active [1] [])).spi.txq ≠ []) := by decide

theorem test_witness_FifoLoadPopsFront :
    (withSpi (active [] [1, 2])).spi.rxq = 1 :: [2] ∧ (withSpi (active [] [])).spi.rxq = [] := by decide

theorem test_witness_FifoStorePushesByte :
    zero.spi.ta = false
    ∧ ((withSpi (active (List.replicate 16 0) [])).spi.ta = true
      ∧ (withSpi (active (List.replicate 16 0) [])).spi.txq.length = zero.params.fifoDepth)
    ∧ (withSpi (active (List.replicate 15 0) [])).spi.ta = true
    ∧ (withSpi (active (List.replicate 15 0) [])).spi.txq.length ≠ (withSpi (active (List.replicate 15 0) [])).params.fifoDepth := by
  decide

theorem test_witness_ClockDividerIsStoredAndRead : zero.host.pos = 0 := by decide

/-- The complete step, an enabled and a stalled load step, and nothing to do. -/
theorem test_witness_EngineTurnLoadsOrCompletes :
    (∀ spi ∈ [shifting [], active [1] (List.replicate 15 0), active [1] (List.replicate 16 0), active [] []],
      ((withSpi spi).setTurn (.engine 7)).stop = none ∧ ((withSpi spi).setTurn (.engine 7)).turn = .engine 7)
    ∧ ((withSpi (shifting [])).setTurn (.engine 7)).spi.shift = some (9, 2)
    ∧ loadEnabled .defaults (active [1] (List.replicate 15 0)) ∧ ¬ loadEnabled .defaults (active [1] (List.replicate 16 0))
    ∧ (active [1] (List.replicate 16 0)).txq = 1 :: [] ∧ (active [] []).txq = [] := by decide

theorem test_witness_PadTurnChangesOnePad :
    (zero.setTurn (.pad 53 true)).stop = none ∧ (zero.setTurn (.pad 53 true)).turn = .pad 53 true ∧ 0 < 54 ∧ 0 ≠ 53 := by decide

/-- Room for every reply, exactly; and `drop`. -/
theorem test_witness_EngineReachesDone :
    ((shiftingWith [1, 2] (List.replicate 13 0)).ta = true
      ∧ (shiftingWith [1, 2] (List.replicate 13 0)).rxq.length + (shiftingWith [1, 2] (List.replicate 13 0)).txq.length
        + (if (shiftingWith [1, 2] (List.replicate 13 0)).shift = none then 0 else 1) ≤ Params.defaults.fifoDepth
      ∧ 2 * (shiftingWith [1, 2] (List.replicate 13 0)).txq.length + 1 ≤ [(0 : Byte), 0, 0, 0, 0].length)
    ∧ { Params.defaults with rxFullPolicy := .drop }.rxFullPolicy = .drop := by decide

theorem test_witness_FullRxFifoStallsTheEngine :
    Params.defaults.rxFullPolicy = .stall ∧ (active [1] (List.replicate 16 0)).shift = none
    ∧ (active [1] (List.replicate 16 0)).rxq.length = Params.defaults.fifoDepth
    ∧ (active [1] (List.replicate 16 0)).txq ≠ [] := by decide

/-- The last pin and the last mode. -/
theorem test_witness_SetPinModeSetsOnePin : (53 : Word).toNat < 54 ∧ (7 : Word).toNat ≤ 7 ∧ zero.host.pos = 0 := by decide

theorem test_witness_SetPinModeWritesBackWhatItRead :
    (9 : Word).toNat < 54 ∧ (0 : Word).toNat ≤ 7 ∧ (inside 1 7 zero).host.pos = 1 ∧ 0 / 10 = (9 : Word).toNat / 10
    ∧ 10 / 10 ≠ (9 : Word).toNat / 10 := by decide

theorem test_witness_InvalidPinIsNoOp : 54 ≤ (54 : Word).toNat ∧ 8 ≤ (8 : Word).toNat := by decide

theorem test_witness_WritePinWritesOneLatch : (31 : Word).toNat < 54 ∧ zero.host.pos = 0 ∧ 32 ≠ (31 : Word).toNat := by decide

theorem test_witness_ReadPinReturnsLevel : (53 : Word).toNat < 54 := by decide

theorem test_witness_WrittenLevelIsRead :
    (40 : Word).toNat < 54 ∧ (withPin 40 (output false) zero).host.pos = 0
    ∧ ((withPin 40 (output false) zero).pin 40).fsel = 1 := by decide

theorem test_witness_EnableEdgeDetectSetsBothEnables : (32 : Word).toNat < 54 ∧ zero.host.pos = 0 := by decide

/-- No event; an event under each style. -/
theorem test_witness_EventDetectedConsumesTheEvent :
    (31 : Word).toNat < 54 ∧ zero.host.pos = 0 ∧ (zero.pin 31).eds = false
    ∧ ((withPin 31 { eds := true } zero).pin 31).eds = true
    ∧ (withPin 31 { eds := true } zero).params.edsClearStyle = .orRmw
    ∧ { zero with params := { Params.defaults with edsClearStyle := .directWrite } }.params.edsClearStyle = .directWrite := by decide

/-- Active with nothing to send, and Idle with a byte waiting; Active with a byte waiting; Idle with one in the shifter. -/
theorem test_witness_StartClaimsPinsAndResetsControl :
    zero.params.wf ∧ zero.params.spi0Pins = [7, 8, 9, 10, 11] ∧ zero.params.spi0PinMode = 4 ∧ zero.host.pos = 0
    ∧ NotBusy (withSpi (active [] [1])).spi ∧ NotBusy (withSpi { txq := [1] }).spi
    ∧ ((withSpi (active [1] [])).spi.ta = true ∧ (withSpi (active [1] [])).spi.txq ≠ [])
    ∧ ((withSpi { shift := some (9, 2) }).spi.ta = false ∧ (withSpi { shift := some (9, 2) }).spi.shift ≠ none) :=
  ⟨Laws.defaults_wf, by decide, by decide, by decide, ⟨by decide, by decide⟩, ⟨by decide, by decide⟩, by decide, by decide⟩

theorem test_witness_EndReleasesPins : zero.params.spi0Pins = [7, 8, 9, 10, 11] ∧ zero.host.pos = 0 := by decide

theorem test_witness_SetChipSelectChangesOnlyTheField :
    zero.params.wf ∧ 1 < (2 : Word).toNat ∧ (1 : Word).toNat ≤ 1 ∧ zero.host.pos = 0 :=
  ⟨Laws.defaults_wf, by decide, by decide, by decide⟩

theorem test_witness_BeginTransferClearsAndActivates :
    zero.params.wf
    ∧ (withSpi (active [1] [2])).host.pos = 0 ∧ (withSpi (active [1] [2])).spi.cs ≠ 3 ∧ (withSpi (active [1] [2])).spi.shift = none
    ∧ (withSpi (shifting [])).host.pos = 0 ∧ (withSpi (shifting [])).spi.cs ≠ 3 ∧ (withSpi (shifting [])).spi.shift ≠ none :=
  ⟨Laws.defaults_wf, by decide⟩

/-- A full FIFO; one entry free while Active; Idle. -/
theorem test_witness_SendWaitsThenPushes :
    zero.params.wf
    ∧ ((withSpi (active (List.replicate 16 0) [])).host.pos = 0
      ∧ zero.params.fifoDepth ≤ (withSpi (active (List.replicate 16 0) [])).spi.txq.length)
    ∧ ((withSpi (active (List.replicate 15 0) [])).host.pos = 0
      ∧ (withSpi (active (List.replicate 15 0) [])).spi.txq.length < zero.params.fifoDepth
      ∧ (withSpi (active (List.replicate 15 0) [])).spi.ta = true)
    ∧ zero.host.pos = 0 ∧ zero.spi.txq.length < zero.params.fifoDepth ∧ zero.spi.ta = false :=
  ⟨Laws.defaults_wf, by decide⟩

/-- A full FIFO; two entries free; one; Idle. -/
theorem test_witness_Send16PushesHighThenLow :
    zero.params.wf
    ∧ ((withSpi (active (List.replicate 16 0) [])).host.pos = 0
      ∧ zero.params.fifoDepth ≤ (withSpi (active (List.replicate 16 0) [])).spi.txq.length)
    ∧ ((withSpi (active (List.replicate 14 0) [])).spi.txq.length + 1 < zero.params.fifoDepth
      ∧ (withSpi (active (List.replicate 14 0) [])).spi.ta = true)
    ∧ ((withSpi (active (List.replicate 15 0) [])).spi.txq.length + 1 = zero.params.fifoDepth
      ∧ (withSpi (active (List.replicate 15 0) [])).spi.ta = true)
    ∧ zero.host.pos = 0 ∧ zero.spi.txq.length < zero.params.fifoDepth ∧ zero.spi.ta = false :=
  ⟨Laws.defaults_wf, by decide⟩

/-- A byte still waiting; Done; Idle. -/
theorem test_witness_EndTransferWaitsThenDeactivates :
    zero.params.wf
    ∧ ((withSpi (active [1] [])).host.pos = 0 ∧ (withSpi (active [1] [])).spi.cs ≠ 3 ∧ (withSpi (active [1] [])).spi.ta = true
      ∧ (withSpi (active [1] [])).spi.txq ≠ [])
    ∧ ((withSpi (active [] [1])).host.pos = 0 ∧ (withSpi (active [] [1])).spi.cs ≠ 3 ∧ (withSpi (active [] [1])).spi.txq = []
      ∧ (withSpi (active [] [1])).spi.shift = none)
    ∧ zero.host.pos = 0 ∧ zero.spi.cs ≠ 3 ∧ zero.spi.ta = false :=
  ⟨Laws.defaults_wf, by decide⟩

/-- An empty shifter; a byte in it. -/
theorem test_witness_TransferByteReturnsTheReply :
    zero.params.wf ∧ zero.host.pos = 0 ∧ zero.spi.cs ≠ 3 ∧ zero.spi.shift = none ∧ 0 < zero.params.fifoDepth
    ∧ (withSpi (shifting [])).host.pos = 0 ∧ (withSpi (shifting [])).spi.cs ≠ 3 ∧ (withSpi (shifting [])).spi.shift ≠ none :=
  ⟨Laws.defaults_wf, by decide, by decide, by decide, by decide, by decide, by decide, by decide⟩

theorem test_witness_BufferTransferMismatchAndEmpty :
    zero.params.wf ∧ [(1 : Byte), 2].length ≠ (3 : Word).toNat ∧ zero.host.pos = 0 ∧ zero.spi.cs ≠ 3 ∧ zero.spi.shift = none
    ∧ zero.spi.txq = [] :=
  ⟨Laws.defaults_wf, by decide⟩

/-- The last byte to send, into the last free entry; and the last byte to take. -/
theorem test_witness_BufferTransferMovesOneByte :
    [(7 : Byte), 8].length = (2 : Word).toNat
    ∧ ((transferring 3 1 [] (active (List.replicate 15 0) [])).host.pos = 3
      ∧ [(7 : Byte), 8][(transferring 3 1 [] (active (List.replicate 15 0) [])).host.locals.t]? = some 8
      ∧ (transferring 3 1 [] (active (List.replicate 15 0) [])).spi.ta = true
      ∧ (transferring 3 1 [] (active (List.replicate 15 0) [])).spi.txq.length < zero.params.fifoDepth)
    ∧ (transferring 5 2 [7] (active [] [8])).host.pos = 5 ∧ (transferring 5 2 [7] (active [] [8])).spi.rxq = 8 :: [] := by
  decide

theorem test_witness_BufferTransferEntersItsLoop :
    (running [0x19, 1, 7, 1] zero).params.wf ∧ (running [0x19, 1, 7, 1] zero).stop = none
    ∧ (running [0x19, 1, 7, 1] zero).fetch = .item (.bufferTransfer [7] 1)
    ∧ [(7 : Byte)].length = (1 : Word).toNat ∧ zero.params.rxFullPolicy = .stall ∧ SpiInv zero.params zero.spi
    ∧ (running [0x19, 1, 7, 1] zero).host.pos = 0 ∧ zero.spi.inFlight = [] :=
  ⟨Laws.defaults_wf, by decide, by decide, by decide, by decide,
    ⟨by decide, by decide, by decide, by decide, nofun, by decide, nofun⟩, by decide, by decide⟩

/-- At each place of the loop. -/
theorem test_witness_BufferTransferKeepsEveryByte :
    BufferLoop [7, 8] 2 (transferring 2 1 [] (active [7] [])) ∧ BufferLoop [7, 8] 2 (transferring 3 1 [] (active [7] []))
    ∧ BufferLoop [7, 8] 2 (transferring 4 2 [7] (active [8] [])) ∧ BufferLoop [7, 8] 2 (transferring 5 2 [7] (active [] [8]))
    ∧ BufferLoop [7, 8] 2 (transferring 6 2 [7, 8] (active [] [])) ∧ Loopback (transferring 2 1 [] (active [7] [])) := by
  refine ⟨?_, ?_, ?_, ?_, ?_, nofun⟩ <;>
    exact ⟨Laws.defaults_wf, by decide, by decide, by decide, by decide,
      ⟨by decide, by decide, by decide, by decide, nofun, by decide, nofun⟩, by decide, by decide, by decide, by decide⟩

theorem test_witness_BufferTransferReturnsRxBuf :
    zero.params.wf ∧ [(7 : Byte), 8].length = (2 : Word).toNat ∧ (transferring 7 2 [7, 8] (active [] [])).host.pos = 7
    ∧ (transferring 7 2 [7, 8] (active [] [])).spi.cs ≠ 3 ∧ (transferring 7 2 [7, 8] (active [] [])).spi.txq = []
    ∧ (transferring 7 2 [7, 8] (active [] [])).spi.shift = none :=
  ⟨Laws.defaults_wf, by decide⟩

theorem test_witness_TransitionTableIsTheSpecs : (0b1100#4).getLsbD 1 = false ∧ (0b1100#4).getLsbD 0 = false := by decide

/-- Two valid pins; a valid and an invalid one. -/
theorem test_witness_InitializeZeroesTheEncoder :
    zero.host.pos = 0 ∧ encsWf 0 zero.encs = true ∧ 53 = (53 : Word).toNat ∧ ¬ (54 : Word).toNat < 54 := by decide

/-- Both transactions; a sum inside and a sum outside the range. -/
theorem test_witness_PollSamplesShiftsAndCounts :
    encsWf 0 (withEncoder 1 0x7FFFFFFF zero).encs = true ∧ ((withEncoder 1 0x7FFFFFFF zero).enc 0).raw = some 1
    ∧ ((withEncoder 1 0x7FFFFFFF zero).enc 0).count = some 0x7FFFFFFF
    ∧ ((withEncoder 1 0x7FFFFFFF zero).enc 0).pinA.toNat < 54 ∧ ((withEncoder 1 0x7FFFFFFF zero).enc 0).pinB.toNat < 54
    ∧ (withEncoder 1 0x7FFFFFFF zero).host.pos = 0 ∧ (inside 1 0 (withEncoder 1 0x7FFFFFFF zero)).host.pos = 1
    ∧ (0x7FFFFFFF#32).toInt + transition 0b0101 ≤ 2 ^ 31 - 1 ∧ ¬ (0x7FFFFFFF#32).toInt + transition 0b0111 ≤ 2 ^ 31 - 1 := by
  decide

/-- An encoder with an invalid pin meets the hypotheses at every raw value and count. -/
theorem test_witness_oneValid (raw : BitVec 4) (count : BitVec 32) (b : Bool) :
    encsWf 0 (oneValid raw count b).encs = true ∧ (oneValid raw count b).host.pos = 0
    ∧ ((oneValid raw count b).enc 0).raw = some raw ∧ ((oneValid raw count b).enc 0).count = some count
    ∧ 54 ≤ ((oneValid raw count b).enc 0).pinA.toNat :=
  ⟨by simp [oneValid, encsWf, Encoder.uninit], rfl, rfl, rfl, (by decide : 54 ≤ (54 : Word).toNat)⟩

/-- Before Initialize; the least count kept and overflowing; the greatest count kept and overflowing. -/
theorem test_witness_PollWithInvalidPinOrUninitialised :
    (zero.enc 0).raw = none
    ∧ onNext (exec (.qdecPoll 0) (oneValid 0 0x80000000 false)) (fun t => (t.enc 0).count) = some (some 0x80000000)
    ∧ faultOf (exec (.qdecPoll 0) (oneValid 1 0x80000000 false)) = some (.countOverflow 0 4 0x80000000 (-1))
    ∧ onNext (exec (.qdecPoll 0) (oneValid 0 0x7FFFFFFF false)) (fun t => (t.enc 0).count) = some (some 0x7FFFFFFF)
    ∧ faultOf (exec (.qdecPoll 0) (oneValid 0 0x7FFFFFFF true)) = some (.countOverflow 0 1 0x7FFFFFFF 1) := by decide

/-- A poll that counts. -/
theorem test_witness_CountMovesByAtMostOne :
    encsWf 0 (withEncoder 0 5 zero).encs = true ∧ ((withEncoder 0 5 zero).enc 0).count = some 5
    ∧ changes (fun t => (t.enc 0).count)
        { running [0x21, 0] (withEncoder 0 5 (withPin 24 { ext := true } zero)) with host := { prog := [0x21, 0], pos := 1 } }
      = true := by decide

end Sys2Proof.Tests
end

section
/-! Proofs of the statements on the scope of the model (spec/00_scope.md): the parameters at reset, what a host step runs, and
what no step changes. -/

namespace Sys2Proof.Proofs

open Sys2Proof.Machine Sys2Proof.Laws

/-! ### The parameters at reset -/

/-- R88: the ten-pin mode registers, read and written at one address. -/
theorem gpfselAddr_defaults (n : Fin 6) :
    (Src.gpfsel n).addr .defaults = 0x3F200000 + BitVec.ofNat 32 (4 * n.val)
      ∧ (Dst.gpfsel n).addr .defaults = 0x3F200000 + BitVec.ofNat 32 (4 * n.val) := by
  revert n; decide

/-- R88: the banked registers of one direction: set and clear are written, the level is read. -/
theorem gpsetGpclrGplevAddr_defaults (n : Fin 2) :
    (Dst.gpset n).addr .defaults = 0x3F20001C + BitVec.ofNat 32 (4 * n.val)
      ∧ (Dst.gpclr n).addr .defaults = 0x3F200028 + BitVec.ofNat 32 (4 * n.val)
      ∧ (Src.gplev n).addr .defaults = 0x3F200034 + BitVec.ofNat 32 (4 * n.val) := by
  revert n; decide

/-- R88: the banked registers of events and edge enables, read and written at one address. -/
theorem eventAndEdgeAddr_defaults (n : Fin 2) :
    ∀ x ∈ [(Src.gpeds n, Dst.gpeds n, 0x3F200040#32), (.gpren n, .gpren n, 0x3F20004C), (.gpfen n, .gpfen n, 0x3F200058)],
      x.1.addr .defaults = x.2.2 + BitVec.ofNat 32 (4 * n.val)
        ∧ x.2.1.addr .defaults = x.2.2 + BitVec.ofNat 32 (4 * n.val) := by
  revert n; decide

/-- R89: the registers of SPI0, read and written at one address. -/
theorem spi0Addr_defaults :
    ∀ x ∈ [(Src.cs, Dst.cs, 0x3F204000#32), (.fifo, .fifo, 0x3F204004), (.clk, .clk, 0x3F204008)],
      x.1.addr .defaults = x.2.2 ∧ x.2.1.addr .defaults = x.2.2 := by
  decide

/-- Settles O60: `defaults_wf`, the addresses of R88 and R89, and the values of R9, R90 and R94 as `Params.defaults` holds
them. -/
theorem defaultParametersAreTheSpecs : Obligations.DefaultParametersAreTheSpecs := by
  unfold Obligations.DefaultParametersAreTheSpecs
  refine ⟨rfl, defaults_wf, gpfselAddr_defaults, fun n => ?_, spi0Addr_defaults, rfl, rfl, rfl, rfl, rfl, rfl, rfl, rfl, rfl⟩
  obtain ⟨hset, hclr, hlev⟩ := gpsetGpclrGplevAddr_defaults n
  exact ⟨hset, hclr, hlev, eventAndEdgeAddr_defaults n⟩

/-! ### What the host's turn runs -/

/-- With no stop recorded, a step is one agent's move and then the draw of the next turn (R17). -/
theorem step_of_running (s : State) (h : s.stop = none) : step s = andThen (moveStep s) fun t => .next t.redraw := by
  simp only [step, stepOf, h]

/-- On the host's turn the move is `exec` of the item at `H.ip` (R16, R65). -/
theorem moveStep_of_item (s : State) (i : Instr) (ht : s.turn = .host) (hf : s.fetch = .item i) : moveStep s = exec i s := by
  simp only [moveStep, ht, hostStep, hf]

/-- R16, R17: the host's turn as one equation. -/
theorem step_of_item (s : State) (i : Instr) (h : s.stop = none) (ht : s.turn = .host) (hf : s.fetch = .item i) :
    step s = andThen (exec i s) fun t => .next t.redraw := by
  rw [step_of_running s h, moveStep_of_item s i ht hf]

/-- After a load the host stands at the image's first item. -/
theorem fetch_loadProgram (s : State) (ws rest : List Word) (i : Instr) (h : decode s.params ws = .ok (i, rest)) :
    (s.loadProgram ws).fetch = .item i := by
  change itemAt s.params 0 ws = .item i
  cases ws with
  | nil => cases h
  | cons w ws => simp only [itemAt, h]

theorem decodeTableWordWith_eq_some (p : Params) (nbits w : Nat) (i : Instr) :
    decodeTableWordWith p nbits w = some i ↔ ∃ rest, decode p (tableWords nbits w) = .ok (i, rest) := by
  unfold decodeTableWordWith
  split <;> next hd => simp [hd]

/-- A placed table word is the item the host comes to, in any register tables. -/
theorem step_withFetchWord (s : State) (nbits w : Nat) (i : Instr) (h : decodeTableWordWith s.params nbits w = some i) :
    step (s.withFetchWord nbits w) = andThen (exec i (s.withFetchWord nbits w)) fun t => .next t.redraw := by
  obtain ⟨rest, hd⟩ := (decodeTableWordWith_eq_some _ _ _ _).1 h
  exact step_of_item (s.loadProgram (tableWords nbits w)) i rfl rfl (fetch_loadProgram s _ rest i hd)

/-- Decoding depends on the parameters through the two register tables alone (R85, R95). -/
theorem decode_congr (p q : Params) (hg : p.gpioOffsets = q.gpioOffsets) (hl : p.spi0Layout = q.spi0Layout) :
    decode p = decode q := by
  have hrows : busTable p = busTable q := by simp only [busTable, hg, hl]
  have haccess : decodeAccess p = decodeAccess q := by
    funext write width addr data
    simp only [decodeAccess, hrows]
  funext ws
  cases ws with
  | nil => rfl
  | cons op args => simp only [decode, haccess]

/-- Settles O16: the fetched item is run by `step_of_item`; a placed word is fetched; and a table word, written with the
default register tables, reads the same in every state that has those tables. -/
theorem hostStepRunsTheFetchedItem : Obligations.HostStepRunsTheFetchedItem := by
  unfold Obligations.HostStepRunsTheFetchedItem
  refine ⟨step_of_item, step_withFetchWord, fun s nbits w i hg hl h => step_withFetchWord s nbits w i ?_⟩
  simpa only [decodeTableWord, decodeTableWordWith, decode_congr s.params .defaults hg hl] using h

/-! ### What no step changes -/

/-- No agent's move changes the parameters, the program or the recorded stop (R9, R21, R40). -/
theorem moveStep_keeps (s t : State) (h : moveStep s = .next t) :
    t.params = s.params ∧ t.host.prog = s.host.prog ∧ t.stop = s.stop := by
  rcases moveStep_cases s t h with ⟨-, ⟨i, -, hexec⟩ | ⟨-, rfl⟩⟩ | ⟨miso, -, rfl⟩ | ⟨p, level, -, rfl⟩
  · have e := exec_effect i s t hexec
    exact ⟨e.params, e.prog, e.stop⟩
  · exact ⟨rfl, rfl, rfl⟩
  · exact ⟨rfl, rfl, rfl⟩
  · exact ⟨rfl, rfl, rfl⟩

/-- Settles O4: a step that answers is an agent's move from a running state, and the draw of the next turn. -/
theorem stepKeepsParametersAndProgram : Obligations.StepKeepsParametersAndProgram := by
  unfold Obligations.StepKeepsParametersAndProgram
  intro s t h
  obtain ⟨hrun, u, hmove, rfl⟩ := (step_eq_next s t).1 h
  obtain ⟨hparams, hprog, hstop⟩ := moveStep_keeps s u hmove
  exact ⟨hparams, hprog, hrun, hstop.trans hrun⟩

end Sys2Proof.Proofs
end

section
/-! Proofs of the statements on the state (spec/10_state.md): what `H.ip` finds in an image, and what one step can do to a
pin, to the encoders and to the wire trace. -/

namespace Sys2Proof.Proofs

open Sys2Proof.Machine Sys2Proof.Laws

/-! ### Decoding an encoded instruction (R102) -/

/-- An argument written as a word is read back (R91). -/
theorem narrow_setWidth (w : Nat) (hw : w ≤ 32) (v : BitVec w) : narrow w (v.setWidth 32) = some v := by
  have hlt : (v.setWidth 32).toNat < 2 ^ w := by
    rw [BitVec.toNat_setWidth_of_le hw]
    exact v.isLt
  rw [narrow, if_pos hlt, BitVec.setWidth_setWidth_of_le _ hw, BitVec.setWidth_eq]

theorem typed_setWidth (w : Nat) (hw : w ≤ 32) (op : Nat) (make : BitVec w → Instr) (v : BitVec w) :
    typed w op make (v.setWidth 32) = .ok (make v) := by
  simp only [typed, narrow_setWidth w hw v]

theorem narrowAll_map_setWidth (bs : List Byte) : narrowAll (bs.map (·.setWidth 32)) = .ok bs := by
  induction bs with
  | nil => rfl
  | cons b bs ih => simp only [List.map_cons, narrowAll, narrow_setWidth 8 (by decide) b, ih, Except.map]

/-- A list argument is read back if its length fits the word that says it (R102). -/
theorem bufferItem_encoded (op : Word) (bs : List Byte) (n : Word) (rest : List Word) (h : bs.length < 2 ^ 32) :
    bufferItem op (BitVec.ofNat 32 bs.length :: (bs.map (·.setWidth 32) ++ n :: rest))
      = .ok (.bufferTransfer bs n, rest) := by
  have hlen : (BitVec.ofNat 32 bs.length).toNat = (bs.map (·.setWidth 32 : Byte → Word)).length := by
    rw [BitVec.toNat_ofNat, Nat.mod_eq_of_lt h, List.length_map]
  have hroom : (bs.map (·.setWidth 32 : Byte → Word)).length < (bs.map (·.setWidth 32) ++ n :: rest).length := by
    simp
  simp only [bufferItem, hlen, if_pos hroom, List.take_left, List.drop_left, narrowAll_map_setWidth]

theorem edgeItem_code (pin : Word) (edge : Edge) : edgeItem pin edge.code = .ok (.enableEdgeDetect pin edge) := by
  cases edge <;> rfl

/-- A read's two words select its row (R95, R102). -/
theorem decode_load (p : Params) (hp : p.wf) (addr : Word) (i : Instr) (hr : ⟨false, addr, fun _ => i⟩ ∈ busTable p)
    (rest : List Word) : decode p ([0xB0, addr] ++ rest) = .ok (i, rest) := by
  change (decodeAccess p false 32 addr none).map (·, rest) = _
  rw [decodeAccess_of_mem p hp _ hr]
  rfl

/-- A write's three words select its row (R95, R102). -/
theorem decode_store (p : Params) (hp : p.wf) (addr d : Word) (make : Word → Instr)
    (hr : ⟨true, addr, make⟩ ∈ busTable p) (rest : List Word) :
    decode p ([0xB1, addr, d] ++ rest) = .ok (make d, rest) := by
  change (decodeAccess p true 32 addr (some d)).map (·, rest) = _
  rw [decodeAccess_of_mem p hp _ hr]
  rfl

/-- R102: whatever words follow, an instruction that the image can hold is read back from its encoding. -/
theorem decode_encode (p : Params) (hp : p.wf) (i : Instr) (hi : i.encodable = true) (rest : List Word) :
    decode p (encode p i ++ rest) = .ok (i, rest) := by
  cases i with
  | ldGpfsel0 | ldGpfsel1 | ldGpfsel2 | ldGpfsel3 | ldGpfsel4 | ldGpfsel5 | ldGplev0 | ldGplev1 | ldGpeds0 | ldGpeds1
  | ldGpren0 | ldGpren1 | ldGpfen0 | ldGpfen1 | ldSpiCs | ldSpiFifo | ldSpiClk =>
    exact decode_load p hp _ _ (by simp [busTable, gpioRowsA, gpioRowsB, spiRows]) rest
  | stGpfsel0 d | stGpfsel1 d | stGpfsel2 d | stGpfsel3 d | stGpfsel4 d | stGpfsel5 d | stGpset0 d | stGpset1 d
  | stGpclr0 d | stGpclr1 d | stGpeds0 d | stGpeds1 d | stGpren0 d | stGpren1 d | stGpfen0 d | stGpfen1 d | stSpiCs d
  | stSpiFifo d | stSpiClk d =>
    exact decode_store p hp _ d _ (by simp [busTable, gpioRowsA, gpioRowsB, spiRows]) rest
  | setPinMode | writePin | readPin | eventDetected | spiStart | spiEnd | setChipSelect | beginTransfer | endTransfer
  | qdecInitialize | qdecPoll => rfl
  | enableEdgeDetect pin edge => exact congrArg (Except.map (·, rest)) (edgeItem_code pin edge)
  | setClockDivider d => exact congrArg (Except.map (·, rest)) (typed_setWidth 16 (by decide) 0x12 .setClockDivider d)
  | send b => exact congrArg (Except.map (·, rest)) (typed_setWidth 8 (by decide) 0x15 .send b)
  | send16 w => exact congrArg (Except.map (·, rest)) (typed_setWidth 16 (by decide) 0x16 .send16 w)
  | transferByte b => exact congrArg (Except.map (·, rest)) (typed_setWidth 8 (by decide) 0x18 .transferByte b)
  | bufferTransfer bs n =>
    have h := bufferItem_encoded 0x19 bs n rest (of_decide_eq_true hi)
    simpa [encode, decode] using h

/-! ### The item at `H.ip` (R21, R234) -/

/-- `H.ip` counts items: 0 finds the head of the image. -/
theorem itemAt_zero_of_decode (p : Params) (ws rest : List Word) (i : Instr) (h : decode p ws = .ok (i, rest)) :
    itemAt p 0 ws = .item i := by
  cases ws with
  | nil => cases h
  | cons w ws => simp only [itemAt, h]

/-- Each further count skips one item. -/
theorem itemAt_succ_of_decode (p : Params) (ws rest : List Word) (i : Instr) (h : decode p ws = .ok (i, rest)) (ip : Nat) :
    itemAt p (ip + 1) ws = itemAt p ip rest := by
  cases ws with
  | nil => cases h
  | cons w ws => simp only [itemAt, h]

theorem itemAt_nil (p : Params) (ip : Nat) : itemAt p ip [] = .ended := by
  cases ip <;> rfl

/-- The image of a list of items holds, at each index, the item of that index. -/
theorem itemAt_flatMap_encode (p : Params) (hp : p.wf) (items : List Instr) (he : ∀ i ∈ items, i.encodable = true)
    (ip : Nat) : itemAt p ip (items.flatMap (encode p)) = (items[ip]?).elim .ended .item := by
  induction items generalizing ip with
  | nil => exact itemAt_nil p ip
  | cons i items ih =>
    obtain ⟨hi, hrest⟩ := List.forall_mem_cons.1 he
    have hd := decode_encode p hp i hi (items.flatMap (encode p))
    rw [List.flatMap_cons]
    cases ip with
    | zero => exact itemAt_zero_of_decode p _ _ i hd
    | succ ip => exact (itemAt_succ_of_decode p _ _ i hd ip).trans (ih hrest ip)

/-- Settles O15: `H.ip` skips one encoded item at a time, by `decode_encode` and induction over the items. -/
theorem fetchReadsTheItemAtIp : Obligations.FetchReadsTheItemAtIp := by
  unfold Obligations.FetchReadsTheItemAtIp
  intro items s hp he hprog
  rw [State.fetch, hprog, itemAt_flatMap_encode s.params hp items he]
  cases items[s.host.ip]? <;> rfl

/-! ### What one step can do to a pin -/

/-- What one agent's move from `s`, leaving these pins, did to pin `p`: nothing, a pad change, or one register write of the
host, named with its data where the statements ask for it. -/
inductive PinChange (s : State) (pins : Vector Pin 54) (p : Nat) : Pin → Prop
  | kept : PinChange s pins p (s.pin p)
  | pad (level : Bool) : PinChange s pins p (Pin.detect (s.pin p).lev { s.pin p with ext := level })
  | mode (n : Fin 6) (d : Word) (hn : n.val = p / 10) (host : s.turn = .host)
      (hw : writeReg (.gpfsel n) d s = .next (s.setPins pins)) :
      PinChange s pins p (Pin.detect (s.pin p).lev { s.pin p with fsel := d.extractLsb' (p % 10 * 3) 3 })
  | set (n : Fin 2) (d : Word) (hn : n.val = p / 32) (hd : d.getLsbD (p % 32) = true) (host : s.turn = .host)
      (hw : writeReg (.gpset n) d s = .next (s.setPins pins)) :
      PinChange s pins p (Pin.detect (s.pin p).lev { s.pin p with latch := true })
  | clear (n : Fin 2) (d : Word) (hn : n.val = p / 32) (hd : d.getLsbD (p % 32) = true) (host : s.turn = .host)
      (hw : writeReg (.gpclr n) d s = .next (s.setPins pins)) :
      PinChange s pins p (Pin.detect (s.pin p).lev { s.pin p with latch := false })
  | event (n : Fin 2) (d : Word) (hn : n.val = p / 32) (hd : d.getLsbD (p % 32) = true) (host : s.turn = .host)
      (hw : writeReg (.gpeds n) d s = .next (s.setPins pins)) : PinChange s pins p { s.pin p with eds := false }
  | rising (on : Bool) : PinChange s pins p { s.pin p with ren := on }
  | falling (on : Bool) : PinChange s pins p { s.pin p with fen := on }

/-- A banked write at one pin: its own bank's write acts by the bit of the data, another bank's leaves the pin (R93). -/
theorem writeBank_pin_cases (P : Pin → Prop) (f : Bool → Pin → Pin) (n : Fin 2) (d : Word) (s : State) (p : Nat)
    (hp : p < 54) (hkept : P (s.pin p)) (hown : n.val = p / 32 → P (f (d.getLsbD (p % 32)) (s.pin p))) :
    P ((s.setPins (writeBank f n d s.pins)).pin p) := by
  change P (pinAt (writeBank f n d s.pins) p)
  rw [pinAt_writeBank f n d s.pins p hp]
  split
  · next hn => exact hown hn.symm
  · exact hkept

/-- Where a 0 bit does nothing, only a 1 bit in the pin's own place changes the pin (R116, R117, R121). -/
theorem writeBank_pin_cases_of_one (P : Pin → Prop) (f : Bool → Pin → Pin) (n : Fin 2) (d : Word) (s : State) (p : Nat)
    (hp : p < 54) (hf : ∀ pin, f false pin = pin) (hkept : P (s.pin p))
    (hone : n.val = p / 32 → d.getLsbD (p % 32) = true → P (f true (s.pin p))) :
    P ((s.setPins (writeBank f n d s.pins)).pin p) := by
  refine writeBank_pin_cases P f n d s p hp hkept fun hn => ?_
  cases hd : d.getLsbD (p % 32) with
  | false => exact (hf _).symm ▸ hkept
  | true => exact hone hn hd

/-- What one register write of the host does to a pin (R115 to R117, R121, R123, R125). -/
theorem pinChange_of_writeReg (s u : State) (r : Dst) (d : Word) (host : s.turn = .host) (hw : writeReg r d s = .next u)
    (p : Nat) (hp : p < 54) : PinChange s u.pins p (u.pin p) := by
  cases r with
  | cs =>
    obtain ⟨-, -, -, rfl⟩ := (writeCs_eq_next d s u).1 hw
    exact .kept
  | fifo =>
    obtain ⟨-, -, rfl⟩ := (writeFifo_eq_next d s u).1 hw
    exact .kept
  | clk =>
    cases hw
    exact .kept
  | gpfsel n =>
    cases hw
    change PinChange s _ p (pinAt (writeGpfsel n d s.pins) p)
    rw [pinAt_writeGpfsel n d s.pins p hp]
    split
    · next hn => exact .mode n d hn.symm host rfl
    · exact .kept
  | gpset n =>
    cases hw
    exact writeBank_pin_cases_of_one _ setLatch n d s p hp (fun _ => rfl) .kept fun hn hd => .set n d hn hd host rfl
  | gpclr n =>
    cases hw
    exact writeBank_pin_cases_of_one _ clrLatch n d s p hp (fun _ => rfl) .kept fun hn hd => .clear n d hn hd host rfl
  | gpeds n =>
    cases hw
    exact writeBank_pin_cases_of_one _ clearEvent n d s p hp (fun _ => rfl) .kept fun hn hd => .event n d hn hd host rfl
  | gpren n =>
    cases hw
    exact writeBank_pin_cases _ setRen n d s p hp .kept fun _ => .rising _
  | gpfen n =>
    cases hw
    exact writeBank_pin_cases _ setFen n d s p hp .kept fun _ => .falling _

/-- A pad change at one pin (R113, R119). -/
theorem pinChange_of_padStep (q : Fin 54) (level : Bool) (s : State) (pins : Vector Pin 54) (p : Nat) (hp : p < 54) :
    PinChange s pins p ((padStep q level s).pin p) := by
  rw [pinAt_padStep q level s p hp]
  split
  · exact .pad level
  · exact .kept

/-- Everything one step can do to a pin. -/
theorem step_pinChange (s t : State) (h : step s = .next t) (p : Nat) (hp : p < 54) :
    PinChange s t.pins p (t.pin p) := by
  obtain ⟨-, u, hmove, rfl⟩ := (step_eq_next s t).1 h
  change PinChange s u.pins p (pinAt u.pins p)
  rcases moveStep_cases s u hmove with ⟨host, ⟨i, -, hexec⟩ | ⟨-, rfl⟩⟩ | ⟨miso, -, rfl⟩ | ⟨q, level, -, rfl⟩
  · rcases (exec_effect i s u hexec).block with ⟨hpins, -⟩ | ⟨hpins, -⟩ | ⟨r, d, w, hw, hpins, -⟩
    · rw [hpins]; exact .kept
    · rw [hpins]; exact .kept
    · rw [hpins]; exact pinChange_of_writeReg s w r d host hw p hp
  · exact .kept
  · exact .kept
  · exact pinChange_of_padStep q level s _ p hp

/-! ### The event flag, the mode and the latch -/

/-- Edge detection changes the event flag only to 1, and only at an enabled edge (R119). -/
theorem detect_eds_ne (before : Bool) (pin : Pin) (h : (Pin.detect before pin).eds ≠ pin.eds) :
    (Pin.detect before pin).eds = true
      ∧ ((before = false ∧ pin.lev = true ∧ pin.ren = true) ∨ (before = true ∧ pin.lev = false ∧ pin.fen = true)) := by
  have heds : pin.eds = false := by
    by_contra hset
    exact h (by simp [Pin.detect, hset])
  have hdet : (Pin.detect before pin).eds = true := by
    by_contra hclear
    exact h (by rw [heds]; exact Bool.eq_false_iff.2 hclear)
  refine ⟨hdet, ?_⟩
  simpa [Pin.detect, heds, and_assoc] using hdet

/-- Settles O6: of everything a step can do to a pin, the changes that detect an edge set the flag by `detect_eds_ne`, a
GPEDSn write clears it, and the enable writes leave it. -/
theorem eventFlagChangesOnlyByEdgeOrClear : Obligations.EventFlagChangesOnlyByEdgeOrClear := by
  unfold Obligations.EventFlagChangesOnlyByEdgeOrClear
  intro s t p hp h hne
  have hchange := step_pinChange s t h p hp
  generalize t.pin p = pin at hchange hne ⊢
  cases hchange with
  | kept => exact absurd rfl hne
  | pad level => exact .inl (detect_eds_ne _ _ hne)
  | mode n d hn host hw => exact .inl (detect_eds_ne _ _ hne)
  | set n d hn hd host hw => exact .inl (detect_eds_ne _ _ hne)
  | clear n d hn hd host hw => exact .inl (detect_eds_ne _ _ hne)
  | event n d hn hd host hw => exact .inr ⟨rfl, host, n, d, hn, hd, hw⟩
  | rising on => exact absurd rfl hne
  | falling on => exact absurd rfl hne

/-- Settles O7: of everything a step can do to a pin, only a GPFSELn write changes the mode, and only a GPSETn or GPCLRn
write with the pin's bit 1 the latch. -/
theorem modeAndLatchChangeOnlyByTheirWrites : Obligations.ModeAndLatchChangeOnlyByTheirWrites := by
  unfold Obligations.ModeAndLatchChangeOnlyByTheirWrites
  intro s t p hp h
  have hchange := step_pinChange s t h p hp
  generalize t.pin p = pin at hchange ⊢
  cases hchange with
  | mode n d hn host hw => exact ⟨fun _ => ⟨host, n, d, hn, rfl, hw⟩, fun hne => absurd rfl hne⟩
  | set n d hn hd host hw => exact ⟨fun hne => absurd rfl hne, fun _ => ⟨host, n, d, hn, hd, hw⟩⟩
  | clear n d hn hd host hw => exact ⟨fun hne => absurd rfl hne, fun _ => ⟨host, n, d, hn, hd, hw⟩⟩
  | kept | pad | event | rising | falling => exact ⟨fun hne => absurd rfl hne, fun hne => absurd rfl hne⟩

/-! ### The encoders and the wire trace -/

/-- No register write reaches the wire trace (R37). -/
theorem writeReg_wire (r : Dst) (d : Word) (s u : State) (h : writeReg r d s = .next u) : u.spi.wire = s.spi.wire := by
  cases r with
  | cs =>
    obtain ⟨-, -, -, rfl⟩ := (writeCs_eq_next d s u).1 h
    rfl
  | fifo =>
    obtain ⟨-, -, rfl⟩ := (writeFifo_eq_next d s u).1 h
    rfl
  | clk | gpfsel | gpset | gpclr | gpeds | gpren | gpfen =>
    cases h
    rfl

/-- No instruction reaches the wire trace (R37). -/
theorem exec_wire (i : Instr) (s t : State) (h : exec i s = .next t) : t.spi.wire = s.spi.wire := by
  rcases (exec_effect i s t h).block with ⟨-, hspi⟩ | ⟨-, hspi⟩ | ⟨r, d, u, hw, -, hspi⟩
  · rw [hspi]
  · rw [hspi]; rfl
  · rw [hspi, writeReg_wire r d s u hw]

/-- The engine's step records the exchange of the byte in the shifter, or leaves the wire trace alone (R150, R151). -/
theorem engineSpi_wire (p : Params) (miso : Byte) (s : Spi) :
    (engineSpi p miso s).wire = s.wire
      ∨ ∃ b c, s.shift = some (b, c) ∧ (engineSpi p miso s).wire = s.wire ++ [(c, b, miso)] := by
  unfold engineSpi
  split
  · next b c hshift => exact .inr ⟨b, c, hshift, rfl⟩
  · left
    split
    · unfold engineLoad
      split <;> rfl
    · rfl

/-- One move writes the encoders only as one of the host's two quadrature operations (R39). -/
theorem moveStep_encs (s t : State) (h : moveStep s = .next t) (hne : t.encs ≠ s.encs) :
    s.turn = .host ∧ ((∃ e a b, s.fetch = .item (.qdecInitialize e a b)) ∨ ∃ e, s.fetch = .item (.qdecPoll e)) := by
  rcases moveStep_cases s t h with ⟨host, ⟨i, hfetch, hexec⟩ | ⟨-, rfl⟩⟩ | ⟨miso, -, rfl⟩ | ⟨p, level, -, rfl⟩
  · rcases exec_encs i s t hexec with hsame | ⟨e, a, b, rfl⟩ | ⟨e, rfl⟩
    · exact absurd hsame hne
    · exact ⟨host, .inl ⟨e, a, b, hfetch⟩⟩
    · exact ⟨host, .inr ⟨e, hfetch⟩⟩
  · exact absurd rfl hne
  · exact absurd rfl hne
  · exact absurd rfl hne

/-- One move writes the wire trace only as the engine's complete step (R37, R151). -/
theorem moveStep_wire (s t : State) (h : moveStep s = .next t) (hne : t.spi.wire ≠ s.spi.wire) :
    ∃ miso b c, s.turn = .engine miso ∧ s.spi.shift = some (b, c) ∧ t.spi.wire = s.spi.wire ++ [(c, b, miso)] := by
  rcases moveStep_cases s t h with ⟨-, ⟨i, -, hexec⟩ | ⟨-, rfl⟩⟩ | ⟨miso, hturn, rfl⟩ | ⟨p, level, -, rfl⟩
  · exact absurd (exec_wire i s t hexec) hne
  · exact absurd rfl hne
  · rcases engineSpi_wire s.params miso s.spi with hsame | ⟨b, c, hshift, hwire⟩
    · exact absurd hsame hne
    · exact ⟨miso, b, c, hturn, hshift, hwire⟩
  · exact absurd rfl hne

/-- Settles O8: the draw of the next turn touches neither, and each has one writer among the agents' moves. -/
theorem encodersAndWireHaveOneWriter : Obligations.EncodersAndWireHaveOneWriter := by
  unfold Obligations.EncodersAndWireHaveOneWriter
  intro s t h
  obtain ⟨-, u, hmove, rfl⟩ := (step_eq_next s t).1 h
  exact ⟨moveStep_encs s u hmove, moveStep_wire s u hmove⟩

end Sys2Proof.Proofs
end

section
/-! Proofs of the statements on encoding (spec/30_encoding.md): decode and encode are inverse to each other, a bus transaction
selects one register or is refused, and the host stops at an item that no rule admits. -/

namespace Sys2Proof.Proofs

open Sys2Proof.Machine Sys2Proof.Laws

/-! ### Encoding and decoding are inverse (R102) -/

/-- Settles O10: `decode_encode`. -/
theorem decodeOfEncode : Obligations.DecodeOfEncode := by
  unfold Obligations.DecodeOfEncode
  exact fun p i rest hp hi => decode_encode p hp i hi rest

/-- Settles O14: each word list is the encoding of its item under the default tables, so `decode_encode` reads it back. -/
theorem specExampleWordsDecode : Obligations.SpecExampleWordsDecode := by
  unfold Obligations.SpecExampleWordsDecode
  have h := decode_encode .defaults defaults_wf
  exact ⟨h (.setPinMode 17 1) rfl [], h (.stGpset0 0x00020000) rfl [], h .ldSpiClk rfl [],
    h (.bufferTransfer [1, 2, 3] 3) rfl [], h (.qdecInitialize 0 23 24) rfl []⟩

/-- A reading that is mapped succeeds where the reading does. -/
theorem exists_of_map_eq_ok {ε α β : Type} (f : α → β) (x : Except ε α) (b : β) (h : x.map f = .ok b) :
    ∃ a, x = .ok a ∧ f a = b := by
  cases x with
  | error e => cases h
  | ok a => exact ⟨a, rfl, Except.ok.inj h⟩

/-- An argument that is in its type is written back as the word it was read from (R91). -/
theorem eq_setWidth_of_narrow (w : Nat) (arg : Word) (v : BitVec w) (h : narrow w arg = some v) : arg = v.setWidth 32 := by
  obtain ⟨hlt, rfl⟩ : arg.toNat < 2 ^ w ∧ arg.setWidth w = v := by simpa [narrow] using h
  apply BitVec.eq_of_toNat_eq
  rw [BitVec.toNat_setWidth, BitVec.toNat_setWidth, Nat.mod_eq_of_lt hlt, Nat.mod_eq_of_lt arg.isLt]

theorem typed_eq_ok (w : Nat) (op : Nat) (make : BitVec w → Instr) (arg : Word) (i : Instr)
    (h : typed w op make arg = .ok i) : ∃ v : BitVec w, arg = v.setWidth 32 ∧ i = make v := by
  unfold typed at h
  split at h
  next v hv => exact ⟨v, eq_setWidth_of_narrow w arg v hv, (Except.ok.inj h).symm⟩
  next => cases h

theorem eq_code_of_edgeOf (arg : Word) (e : Edge) (h : edgeOf arg = some e) : arg = e.code := by
  unfold edgeOf at h
  split at h <;> cases h <;> next hn => exact BitVec.eq_of_toNat_eq hn

theorem edgeItem_eq_ok (pin arg : Word) (i : Instr) (h : edgeItem pin arg = .ok i) :
    ∃ e : Edge, arg = e.code ∧ i = .enableEdgeDetect pin e := by
  unfold edgeItem at h
  split at h
  next e he => exact ⟨e, eq_code_of_edgeOf arg e he, (Except.ok.inj h).symm⟩
  next => cases h

theorem eq_map_setWidth_of_narrowAll (ws : List Word) (bs : List Byte) (h : narrowAll ws = .ok bs) :
    ws = bs.map (·.setWidth 32) := by
  induction ws generalizing bs with
  | nil => cases h; rfl
  | cons w ws ih =>
    unfold narrowAll at h
    split at h
    next => cases h
    next b hb =>
      obtain ⟨tail, hws, rfl⟩ := exists_of_map_eq_ok _ _ _ h
      rw [List.map_cons, ← eq_setWidth_of_narrow 8 w b hb, ← ih tail hws]

/-- A list argument is read from its length, its bytes and `n` (R102). -/
theorem bufferItem_eq_ok (op : Word) (args : List Word) (i : Instr) (rest : List Word)
    (h : bufferItem op args = .ok (i, rest)) :
    ∃ (bs : List Byte) (n : Word), args = BitVec.ofNat 32 bs.length :: (bs.map (·.setWidth 32) ++ n :: rest)
      ∧ i = .bufferTransfer bs n := by
  cases args with
  | nil => cases h
  | cons len ws =>
    simp only [bufferItem] at h
    split at h
    next hroom =>
      split at h
      next bs n rest' hbytes hdrop =>
        cases h
        have htake := eq_map_setWidth_of_narrowAll _ _ hbytes
        have hlen : bs.length = len.toNat := by
          have := congrArg List.length htake
          rw [List.length_take, List.length_map] at this
          omega
        refine ⟨bs, n, ?_, rfl⟩
        rw [hlen, BitVec.ofNat_toNat, BitVec.setWidth_eq, ← htake, ← hdrop, List.take_append_drop]
      next => cases h
      next => cases h
    next => cases h

/-- What an operation of one argument word is read from, if the argument's reading `k` ignores no bit. -/
theorem encode_of_item1 (p : Params) (op : Word) (args : List Word) (k : Word → Except DecodeError Instr) (i : Instr)
    (rest : List Word) (hk : ∀ a i, k a = .ok i → encode p i = [op, a]) (h : item1 op args k = .ok (i, rest)) :
    op :: args = encode p i ++ rest := by
  unfold item1 at h
  split at h
  next a rest' =>
    obtain ⟨i, hi, ⟨⟩⟩ := exists_of_map_eq_ok _ _ _ h
    rw [hk a i hi]
    rfl
  next => cases h

/-- What an operation of two argument words is read from, under the same condition. -/
theorem encode_of_item2 (p : Params) (op : Word) (args : List Word) (k : Word → Word → Except DecodeError Instr)
    (i : Instr) (rest : List Word) (hk : ∀ a b i, k a b = .ok i → encode p i = [op, a, b]) (h : item2 op args k = .ok (i, rest)) :
    op :: args = encode p i ++ rest := by
  unfold item2 at h
  split at h
  next a b rest' =>
    obtain ⟨i, hi, ⟨⟩⟩ := exists_of_map_eq_ok _ _ _ h
    rw [hk a b i hi]
    rfl
  next => cases h

/-- What an operation of three argument words is read from, under the same condition. -/
theorem encode_of_item3 (p : Params) (op : Word) (args : List Word) (k : Word → Word → Word → Except DecodeError Instr)
    (i : Instr) (rest : List Word) (hk : ∀ a b c i, k a b c = .ok i → encode p i = [op, a, b, c])
    (h : item3 op args k = .ok (i, rest)) : op :: args = encode p i ++ rest := by
  unfold item3 at h
  split at h
  next a b c rest' =>
    obtain ⟨i, hi, ⟨⟩⟩ := exists_of_map_eq_ok _ _ _ h
    rw [hk a b c i hi]
    rfl
  next => cases h

/-- One argument of a type of `w` bits ignores no bit. -/
theorem encode_of_typed (p : Params) (op : Word) (args : List Word) (w n : Nat) (make : BitVec w → Instr) (i : Instr)
    (rest : List Word) (hmake : ∀ v, encode p (make v) = [op, v.setWidth 32])
    (h : item1 op args (typed w n make) = .ok (i, rest)) : op :: args = encode p i ++ rest := by
  refine encode_of_item1 p op args _ i rest (fun a i ha => ?_) h
  obtain ⟨v, rfl, rfl⟩ := typed_eq_ok w n make a i ha
  exact hmake v

/-- The words of a row's instruction are its direction, its address and, for a write, the data (R102). -/
theorem encode_row (p : Params) (row : BusRow) (hr : row ∈ busTable p) (d : Word) :
    encode p (row.make d) = if row.write then [0xB1, row.addr, d] else [0xB0, row.addr] := by
  have htable : (busTable p).map (fun row => encode p (row.make d))
      = (busTable p).map (fun row => if row.write then [0xB1, row.addr, d] else [0xB0, row.addr]) := rfl
  exact List.map_inj_left.1 htable row hr

/-- What the decoder of a transaction can answer: the instruction of a row that fits, or that no row fits (R95, R97). -/
theorem decodeAccess_cases (p : Params) (write : Bool) (width : Nat) (addr : Word) (data : Option Word) :
    ((width = 32 ∧ addr.toNat % 4 = 0) ∧ ∃ row ∈ busTable p, row.write = write ∧ row.addr = addr
        ∧ decodeAccess p write width addr data = .ok (row.make (data.getD 0)))
      ∨ (((width = 32 ∧ addr.toNat % 4 = 0) → ∀ row ∈ busTable p, ¬ (row.write = write ∧ row.addr = addr))
        ∧ decodeAccess p write width addr data = .error (.unmapped write width addr data)) := by
  by_cases hw : width = 32 ∧ addr.toNat % 4 = 0
  · cases hf : (busTable p).find? (fun row => row.write == write && row.addr == addr) with
    | some row =>
      obtain ⟨hwrite, haddr⟩ : row.write = write ∧ row.addr = addr := by simpa using List.find?_some hf
      refine .inl ⟨hw, row, List.mem_of_find?_eq_some hf, hwrite, haddr, ?_⟩
      simp only [decodeAccess, if_pos hw, hf]
    | none =>
      have hno : ∀ row ∈ busTable p, ¬ (row.write = write ∧ row.addr = addr) := by
        simpa [List.find?_eq_none] using hf
      exact .inr ⟨fun _ => hno, decodeAccess_of_not_mem p write width addr data hno⟩
  · exact .inr ⟨fun h => absurd h hw, if_neg hw⟩

/-- The words of an admitted transaction are those of the instruction it selects (R102). -/
theorem encode_of_decodeAccess (p : Params) (write : Bool) (width : Nat) (addr : Word) (data : Option Word) (i : Instr)
    (h : decodeAccess p write width addr data = .ok i) :
    encode p i = if write then [0xB1, addr, data.getD 0] else [0xB0, addr] := by
  rcases decodeAccess_cases p write width addr data with ⟨-, row, hr, rfl, rfl, hok⟩ | ⟨-, herr⟩
  · cases hok.symm.trans h
    exact encode_row p row hr _
  · cases herr.symm.trans h

/-- Settles O11: along the branches of `decode`, each of which reads its argument words without ignoring a bit. -/
theorem encodeOfDecode : Obligations.EncodeOfDecode := by
  unfold Obligations.EncodeOfDecode
  intro p ws i rest h
  cases ws with
  | nil => cases h
  | cons op args =>
    simp only [decode] at h
    split at h
    next hop =>
      obtain rfl : op = 0xB0 := BitVec.eq_of_toNat_eq hop
      exact encode_of_item1 p _ args _ i rest (fun a i ha => encode_of_decodeAccess p false 32 a none i ha) h
    next hop =>
      obtain rfl : op = 0xB1 := BitVec.eq_of_toNat_eq hop
      exact encode_of_item2 p _ args _ i rest (fun a d i ha => encode_of_decodeAccess p true 32 a (some d) i ha) h
    next hop =>
      obtain rfl : op = 0x01 := BitVec.eq_of_toNat_eq hop
      exact encode_of_item2 p _ args _ i rest (by rintro pin mode _ ⟨⟩; rfl) h
    next hop =>
      obtain rfl : op = 0x02 := BitVec.eq_of_toNat_eq hop
      exact encode_of_item2 p _ args _ i rest (by rintro pin value _ ⟨⟩; rfl) h
    next hop =>
      obtain rfl : op = 0x03 := BitVec.eq_of_toNat_eq hop
      exact encode_of_item1 p _ args _ i rest (by rintro pin _ ⟨⟩; rfl) h
    next hop =>
      obtain rfl : op = 0x04 := BitVec.eq_of_toNat_eq hop
      refine encode_of_item2 p _ args _ i rest (fun pin arg i ha => ?_) h
      obtain ⟨e, rfl, rfl⟩ := edgeItem_eq_ok pin arg i ha
      rfl
    next hop =>
      obtain rfl : op = 0x05 := BitVec.eq_of_toNat_eq hop
      exact encode_of_item1 p _ args _ i rest (by rintro pin _ ⟨⟩; rfl) h
    next hop =>
      obtain rfl : op = 0x10 := BitVec.eq_of_toNat_eq hop
      cases h
      rfl
    next hop =>
      obtain rfl : op = 0x11 := BitVec.eq_of_toNat_eq hop
      cases h
      rfl
    next hop =>
      obtain rfl : op = 0x12 := BitVec.eq_of_toNat_eq hop
      exact encode_of_typed p _ args 16 0x12 _ i rest (fun _ => rfl) h
    next hop =>
      obtain rfl : op = 0x13 := BitVec.eq_of_toNat_eq hop
      exact encode_of_item1 p _ args _ i rest (by rintro cs _ ⟨⟩; rfl) h
    next hop =>
      obtain rfl : op = 0x14 := BitVec.eq_of_toNat_eq hop
      cases h
      rfl
    next hop =>
      obtain rfl : op = 0x15 := BitVec.eq_of_toNat_eq hop
      exact encode_of_typed p _ args 8 0x15 _ i rest (fun _ => rfl) h
    next hop =>
      obtain rfl : op = 0x16 := BitVec.eq_of_toNat_eq hop
      exact encode_of_typed p _ args 16 0x16 _ i rest (fun _ => rfl) h
    next hop =>
      obtain rfl : op = 0x17 := BitVec.eq_of_toNat_eq hop
      cases h
      rfl
    next hop =>
      obtain rfl : op = 0x18 := BitVec.eq_of_toNat_eq hop
      exact encode_of_typed p _ args 8 0x18 _ i rest (fun _ => rfl) h
    next hop =>
      obtain rfl : op = 0x19 := BitVec.eq_of_toNat_eq hop
      obtain ⟨bs, n, rfl, rfl⟩ := bufferItem_eq_ok _ args i rest h
      simp [encode]
    next hop =>
      obtain rfl : op = 0x20 := BitVec.eq_of_toNat_eq hop
      exact encode_of_item3 p _ args _ i rest (by rintro e pinA pinB _ ⟨⟩; rfl) h
    next hop =>
      obtain rfl : op = 0x21 := BitVec.eq_of_toNat_eq hop
      exact encode_of_item1 p _ args _ i rest (by rintro e _ ⟨⟩; rfl) h
    next => cases h

/-! ### One register for each transaction, or none (R88, R89, R95) -/

/-- The readable registers in the order of the tables, each with the transaction that reads it. -/
def loads : List (Src × Instr) :=
  [(.gpfsel 0, .ldGpfsel0), (.gpfsel 1, .ldGpfsel1), (.gpfsel 2, .ldGpfsel2), (.gpfsel 3, .ldGpfsel3),
   (.gpfsel 4, .ldGpfsel4), (.gpfsel 5, .ldGpfsel5), (.gplev 0, .ldGplev0), (.gplev 1, .ldGplev1), (.gpeds 0, .ldGpeds0),
   (.gpeds 1, .ldGpeds1), (.gpren 0, .ldGpren0), (.gpren 1, .ldGpren1), (.gpfen 0, .ldGpfen0), (.gpfen 1, .ldGpfen1),
   (.cs, .ldSpiCs), (.fifo, .ldSpiFifo), (.clk, .ldSpiClk)]

/-- The writable registers in the order of the tables, each with the transaction that writes it. -/
def stores : List (Dst × (Word → Instr)) :=
  [(.gpfsel 0, .stGpfsel0), (.gpfsel 1, .stGpfsel1), (.gpfsel 2, .stGpfsel2), (.gpfsel 3, .stGpfsel3),
   (.gpfsel 4, .stGpfsel4), (.gpfsel 5, .stGpfsel5), (.gpset 0, .stGpset0), (.gpset 1, .stGpset1), (.gpclr 0, .stGpclr0),
   (.gpclr 1, .stGpclr1), (.gpeds 0, .stGpeds0), (.gpeds 1, .stGpeds1), (.gpren 0, .stGpren0), (.gpren 1, .stGpren1),
   (.gpfen 0, .stGpfen0), (.gpfen 1, .stGpfen1), (.cs, .stSpiCs), (.fifo, .stSpiFifo), (.clk, .stSpiClk)]

theorem exists_mem_loads (r : Src) : ∃ i, (r, i) ∈ loads := by
  have h : r ∈ loads.map Prod.fst := by
    cases r with
    | gpfsel n | gplev n | gpeds n | gpren n | gpfen n => revert n; decide
    | cs | fifo | clk => decide
  simpa using h

theorem exists_mem_stores (r : Dst) : ∃ make, (r, make) ∈ stores := by
  have h : r ∈ stores.map Prod.fst := by
    cases r with
    | gpfsel n | gpset n | gpclr n | gpeds n | gpren n | gpfen n => revert n; decide
    | cs | fifo | clk => decide
  simpa using h

/-- The rows for reads are those of `loads`. -/
theorem load_row_mem (p : Params) (r : Src) (i : Instr) (h : (r, i) ∈ loads) :
    ⟨false, r.addr p, fun _ => i⟩ ∈ busTable p := by
  have hrows : loads.map (fun x => BusRow.mk false (x.1.addr p) fun _ => x.2) = (busTable p).filter (!·.write) := rfl
  exact List.mem_of_mem_filter (hrows ▸ List.mem_map_of_mem h)

/-- The rows for writes are those of `stores`. -/
theorem store_row_mem (p : Params) (r : Dst) (make : Word → Instr) (h : (r, make) ∈ stores) :
    ⟨true, r.addr p, make⟩ ∈ busTable p := by
  have hrows : stores.map (fun x => BusRow.mk true (x.1.addr p) x.2) = (busTable p).filter (·.write) := rfl
  exact List.mem_of_mem_filter (hrows ▸ List.mem_map_of_mem h)

theorem exec_of_mem_loads (r : Src) (i : Instr) (h : (r, i) ∈ loads) (s : State) : exec i s = loadItem r s := by
  have hexec : loads.map (fun x => exec x.2 s) = loads.map (fun x => loadItem x.1 s) := rfl
  exact List.map_inj_left.1 hexec (r, i) h

theorem exec_of_mem_stores (r : Dst) (make : Word → Instr) (h : (r, make) ∈ stores) (d : Word) (s : State) :
    exec (make d) s = storeItem r d s := by
  have hexec : stores.map (fun x => exec (x.2 d) s) = stores.map (fun x => storeItem x.1 d s) := rfl
  exact List.map_inj_left.1 hexec (r, make) h

/-- The addresses with a row for the direction are those of its registers. -/
theorem exists_register_iff_row (p : Params) (write : Bool) (addr : Word) :
    (if write then ∃ r : Dst, r.addr p = addr else ∃ r : Src, r.addr p = addr)
      ↔ ∃ row ∈ busTable p, row.write = write ∧ row.addr = addr := by
  constructor
  · cases write with
    | false =>
      rintro ⟨r, rfl⟩
      obtain ⟨i, hi⟩ := exists_mem_loads r
      exact ⟨_, load_row_mem p r i hi, rfl, rfl⟩
    | true =>
      rintro ⟨r, rfl⟩
      obtain ⟨make, hmake⟩ := exists_mem_stores r
      exact ⟨_, store_row_mem p r make hmake, rfl, rfl⟩
  · rintro ⟨row, hr, rfl, rfl⟩
    exact row_register p row hr

/-- A transaction at an address of no register of its direction is refused (R95). -/
theorem decodeAccess_of_no_register (p : Params) (write : Bool) (width : Nat) (addr : Word) (data : Option Word)
    (h : ¬ if write then ∃ r : Dst, r.addr p = addr else ∃ r : Src, r.addr p = addr) :
    decodeAccess p write width addr data = .error (.unmapped write width addr data) :=
  decodeAccess_of_not_mem p write width addr data fun row hr hrow =>
    h ((exists_register_iff_row p write addr).2 ⟨row, hr, hrow⟩)

/-- Settles O12: `decodeAccess_cases`, where a row fits exactly at a register's address. -/
theorem accessSelectsOneRegisterOrIsRefused : Obligations.AccessSelectsOneRegisterOrIsRefused := by
  unfold Obligations.AccessSelectsOneRegisterOrIsRefused
  intro p write width addr data
  rw [exists_register_iff_row]
  rcases decodeAccess_cases p write width addr data with
    ⟨⟨hwidth, haligned⟩, row, hr, hwrite, haddr, hok⟩ | ⟨hno, herr⟩
  · exact .inl ⟨hwidth, haligned, ⟨row, hr, hwrite, haddr⟩, _, hok⟩
  · refine .inr ⟨?_, herr⟩
    rintro ⟨hwidth, haligned, row, hr, hrow⟩
    exact hno ⟨hwidth, haligned⟩ row hr hrow

/-- A list with the middle left out. -/
theorem take_append_drop_sublist {α : Type} (l : List α) (j k : Nat) (h : j ≤ k) : (l.take j ++ l.drop k).Sublist l := by
  conv_rhs => rw [← List.take_append_drop j l]
  exact (List.drop_sublist_drop_left l h).append_left _

/-- Two readable registers never share an address: of all registers these are all but GPSET and GPCLR (R88). -/
theorem src_addr_injective (p : Params) (hp : p.wf) (r r' : Src) (h : r.addr p = r'.addr p) : r = r' := by
  have haddrs : (loads.map Prod.fst).map (Src.addr p) = (registerAddrs p).take 6 ++ (registerAddrs p).drop 10 := rfl
  have hnodup : ((loads.map Prod.fst).map (Src.addr p)).Nodup :=
    haddrs ▸ hp.1.sublist (take_append_drop_sublist _ 6 10 (by decide))
  obtain ⟨i, hi⟩ := exists_mem_loads r
  obtain ⟨i', hi'⟩ := exists_mem_loads r'
  exact List.inj_on_of_nodup_map hnodup (List.mem_map_of_mem hi) (List.mem_map_of_mem hi') h

/-- Two writable registers never share an address: of all registers these are all but GPLEV (R88). -/
theorem dst_addr_injective (p : Params) (hp : p.wf) (r r' : Dst) (h : r.addr p = r'.addr p) : r = r' := by
  have haddrs : (stores.map Prod.fst).map (Dst.addr p) = (registerAddrs p).take 10 ++ (registerAddrs p).drop 12 := rfl
  have hnodup : ((stores.map Prod.fst).map (Dst.addr p)).Nodup :=
    haddrs ▸ hp.1.sublist (take_append_drop_sublist _ 10 12 (by decide))
  obtain ⟨make, hmake⟩ := exists_mem_stores r
  obtain ⟨make', hmake'⟩ := exists_mem_stores r'
  exact List.inj_on_of_nodup_map hnodup (List.mem_map_of_mem hmake) (List.mem_map_of_mem hmake') h

/-- Settles O13: a register's row is selected at its address, and its instruction is the register's read or write. -/
theorem registersAnswerAtTheirAddresses : Obligations.RegistersAnswerAtTheirAddresses := by
  unfold Obligations.RegistersAnswerAtTheirAddresses
  refine fun p hp => ⟨fun r => ?_, fun r d => ?_, src_addr_injective p hp, dst_addr_injective p hp⟩
  · obtain ⟨i, hi⟩ := exists_mem_loads r
    exact ⟨i, decodeAccess_of_mem p hp _ (load_row_mem p r i hi) none, exec_of_mem_loads r i hi⟩
  · obtain ⟨make, hmake⟩ := exists_mem_stores r
    exact ⟨make d, decodeAccess_of_mem p hp _ (store_row_mem p r make hmake) (some d), exec_of_mem_stores r make hmake d⟩

/-! ### Items that are refused (R91, R95) -/

/-- `H.ip` skips the encoded items before it, whatever words stand there. -/
theorem itemAt_length_flatMap_encode (p : Params) (hp : p.wf) (before : List Instr)
    (he : ∀ i ∈ before, i.encodable = true) (words : List Word) :
    itemAt p before.length (before.flatMap (encode p) ++ words) = itemAt p 0 words := by
  induction before with
  | nil => rfl
  | cons i before ih =>
    obtain ⟨hi, hrest⟩ := List.forall_mem_cons.1 he
    have hd := decode_encode p hp i hi (before.flatMap (encode p) ++ words)
    rw [List.flatMap_cons, List.append_assoc]
    exact (itemAt_succ_of_decode p _ _ i hd before.length).trans (ih hrest)

/-- Words that decode to an error, after any number of encoded items (log 8, log 10). -/
theorem fetch_of_bad_words (s : State) (before : List Instr) (w : Word) (ws : List Word) (e : DecodeError)
    (hp : s.params.wf) (he : ∀ i ∈ before, i.encodable = true) (hip : s.host.ip = before.length)
    (hprog : s.host.prog = before.flatMap (encode s.params) ++ w :: ws) (hd : decode s.params (w :: ws) = .error e) :
    s.fetch = .bad e := by
  rw [State.fetch, hip, hprog, itemAt_length_flatMap_encode s.params hp before he]
  simp only [itemAt, hd]

/-- On the host's turn words that decode to an error are refused (R207). -/
theorem step_of_bad (s : State) (e : DecodeError) (h : s.stop = none) (ht : s.turn = .host) (hf : s.fetch = .bad e) :
    step s = .refused (refusalOf e) := by
  rw [step_of_running s h]
  simp only [moveStep, ht, hostStep, hf, andThen_refused]

/-- A word that is too large for the type is refused (R91). -/
theorem narrow_of_le (w : Nat) (arg : Word) (h : 2 ^ w ≤ arg.toNat) : narrow w arg = none :=
  if_neg (Nat.not_lt.2 h)

theorem typed_of_le (w op : Nat) (make : BitVec w → Instr) (arg : Word) (h : 2 ^ w ≤ arg.toNat) :
    typed w op make arg = .error (.badArgument op arg) := by
  simp only [typed, narrow_of_le w arg h]

theorem edgeItem_of_gt (pin arg : Word) (h : 3 < arg.toNat) : edgeItem pin arg = .error (.badArgument 0x04 arg) := by
  cases he : edgeOf arg with
  | none => simp only [edgeItem, he]
  | some e =>
    obtain rfl := eq_code_of_edgeOf arg e he
    exact absurd h (by cases e <;> decide)

/-- The first word above a byte is the one named (log 10). -/
theorem narrowAll_of_wide (bytes : List Byte) (d : Word) (ws : List Word) (h : 2 ^ 8 ≤ d.toNat) :
    narrowAll (bytes.map (·.setWidth 32) ++ d :: ws) = .error d := by
  induction bytes with
  | nil => simp only [List.map_nil, List.nil_append, narrowAll, narrow_of_le 8 d h]
  | cons b bytes ih =>
    simp only [List.map_cons, List.cons_append, narrowAll, narrow_setWidth 8 (by decide) b, ih, Except.map]

/-- BufferTransfer with a word above a byte in its list (R91). -/
theorem bufferItem_of_wide (op len d : Word) (bytes : List Byte) (rest : List Word) (hin : bytes.length < len.toNat)
    (hroom : len.toNat ≤ bytes.length + rest.length) (h : 2 ^ 8 ≤ d.toNat) :
    bufferItem op (len :: (bytes.map (·.setWidth 32) ++ d :: rest)) = .error (.badArgument 0x19 d) := by
  obtain ⟨k, hk⟩ : ∃ k, len.toNat = bytes.length + (k + 1) := ⟨len.toNat - bytes.length - 1, by omega⟩
  have hlist : (bytes.map (·.setWidth 32) ++ d :: rest).take len.toNat
      = bytes.map (·.setWidth 32) ++ d :: rest.take k := by
    simp [hk, List.take_append, List.take_of_length_le]
  have hbytes := narrowAll_of_wide bytes d (rest.take k) h
  have hwhole : len.toNat < (bytes.map (·.setWidth 32) ++ d :: rest).length := by simp; omega
  simp only [bufferItem, if_pos hwhole, hlist, hbytes]

/-- Settles O17: `H.ip` skips the items before, the words there decode to an error, and the step is the refusal it stands
for. -/
theorem unadmittedItemsAreRefused : Obligations.UnadmittedItemsAreRefused := by
  unfold Obligations.UnadmittedItemsAreRefused
  intro s before item hstop hturn hp he hip hprog a d rest
  have hrefuse (w : Word) (ws : List Word) (e : DecodeError) (hitem : item = w :: ws)
      (hd : decode s.params (w :: ws) = .error e) : step s = .refused (refusalOf e) :=
    step_of_bad s e hstop hturn (fetch_of_bad_words s before w ws e hp he hip (hitem ▸ hprog) hd)
  have hmap {e : DecodeError} {x : Except DecodeError Instr} (h : x = .error e) :
      x.map (·, rest) = .error e := congrArg (Except.map (·, rest)) h
  refine ⟨fun hitem hr => ?_, fun hitem hr => ?_, fun hitem hd => ?_, fun hitem hd => ?_, fun hitem hd => ?_,
    fun hitem hd => ?_, fun hitem hd => ?_, fun len bytes hitem hin hroom hd => ?_⟩
  · exact hrefuse _ _ _ hitem (hmap (decodeAccess_of_no_register s.params false 32 a none (by simpa using hr)))
  · exact hrefuse _ _ _ hitem (hmap (decodeAccess_of_no_register s.params true 32 a (some d) (by simpa using hr)))
  · exact hrefuse _ _ _ hitem (hmap (edgeItem_of_gt a d hd))
  · exact hrefuse _ _ _ hitem (hmap (typed_of_le 16 0x12 .setClockDivider d hd))
  · exact hrefuse _ _ _ hitem (hmap (typed_of_le 8 0x15 .send d hd))
  · exact hrefuse _ _ _ hitem (hmap (typed_of_le 16 0x16 .send16 d hd))
  · exact hrefuse _ _ _ hitem (hmap (typed_of_le 8 0x18 .transferByte d hd))
  · exact hrefuse _ _ _ hitem (bufferItem_of_wide 0x19 len d bytes rest hin hroom hd)

end Sys2Proof.Proofs
end

section
/-! Proofs of the statements on the GPIO (spec/40_gpio.md): what a register's read and write do to each pin, the
environment's turn, and the five driver operations left alone. -/

namespace Sys2Proof.Proofs

open Sys2Proof.Machine Sys2Proof.Laws

/-! ### Registers of one direction (R88, R95) -/

/-- A list without repetition: what stands in the middle stands nowhere else. -/
theorem not_mem_outside_of_mem_middle {α : Type} (l : List α) (hl : l.Nodup) (j k : Nat) (hjk : j ≤ k) (x : α)
    (hx : x ∈ (l.take k).drop j) : x ∉ l.take j ++ l.drop k := by
  rw [← List.take_append_drop k l, ← List.take_append_drop j (l.take k), List.take_take, min_eq_left hjk,
    List.nodup_append, List.nodup_append] at hl
  obtain ⟨⟨-, -, hfront⟩, -, hback⟩ := hl
  rw [List.mem_append]
  rintro (hin | hin)
  · exact hfront x hin x hx rfl
  · exact hback x (List.mem_append_right _ hx) x hin rfl

/-- The readable registers are all but GPSETn and GPCLRn. -/
theorem src_addr_mem (p : Params) (r : Src) : r.addr p ∈ (registerAddrs p).take 6 ++ (registerAddrs p).drop 10 := by
  have haddrs : (loads.map Prod.fst).map (Src.addr p) = (registerAddrs p).take 6 ++ (registerAddrs p).drop 10 := rfl
  obtain ⟨i, hi⟩ := exists_mem_loads r
  exact haddrs ▸ List.mem_map_of_mem (List.mem_map_of_mem hi)

/-- The writable registers are all but GPLEVn. -/
theorem dst_addr_mem (p : Params) (r : Dst) : r.addr p ∈ (registerAddrs p).take 10 ++ (registerAddrs p).drop 12 := by
  have haddrs : (stores.map Prod.fst).map (Dst.addr p) = (registerAddrs p).take 10 ++ (registerAddrs p).drop 12 := rfl
  obtain ⟨make, hmake⟩ := exists_mem_stores r
  exact haddrs ▸ List.mem_map_of_mem (List.mem_map_of_mem hmake)

/-- No writable register has the address of GPLEVn, so a write there is refused (R118). -/
theorem write_gplev_refused (p : Params) (hp : p.wf) (n : Fin 2) (d : Word) :
    decodeAccess p true 32 ((Src.gplev n).addr p) (some d)
      = .error (.unmapped true 32 ((Src.gplev n).addr p) (some d)) := by
  refine decodeAccess_of_no_register p true 32 _ _ ?_
  rintro ⟨r, hr⟩
  have hmid : ∀ n : Fin 2, (Src.gplev n).addr p ∈ ((registerAddrs p).take 12).drop 10 :=
    Fin.forall_fin_two.2 ⟨.head _, .tail _ (.head _)⟩
  exact not_mem_outside_of_mem_middle _ hp.1 10 12 (by decide) _ (hmid n) (hr ▸ dst_addr_mem p r)

/-- The set and clear registers stand together in the tables. -/
theorem gpset_gpclr_addr_mem (p : Params) (n : Fin 2) :
    (Dst.gpset n).addr p ∈ ((registerAddrs p).take 10).drop 6
      ∧ (Dst.gpclr n).addr p ∈ ((registerAddrs p).take 10).drop 6 := by
  revert n
  exact Fin.forall_fin_two.2 ⟨⟨.head _, .tail _ (.tail _ (.head _))⟩,
    .tail _ (.head _), .tail _ (.tail _ (.tail _ (.head _)))⟩

/-- No readable register has an address among those of GPSETn and GPCLRn, so a read there is refused (R116, R117). -/
theorem read_set_clear_refused (p : Params) (hp : p.wf) (addr : Word) (ha : addr ∈ ((registerAddrs p).take 10).drop 6) :
    decodeAccess p false 32 addr none = .error (.unmapped false 32 addr none) := by
  refine decodeAccess_of_no_register p false 32 _ _ ?_
  rintro ⟨r, hr⟩
  exact not_mem_outside_of_mem_middle _ hp.1 6 10 (by decide) _ ha (hr ▸ src_addr_mem p r)

/-! ### Register reads -/

/-- A program's read of a GPIO register returns its value and changes nothing. -/
theorem loadItem_reads (r : Src) (hr : r ≠ .fifo) (s : State) :
    ∃ t, loadItem r s = .next t ∧ Completed s t (some (.word (s.readReg r))) ∧ BlockSame s t := by
  refine ⟨_, rfl, ?_, ?_⟩
  · simp [Completed, State.finish]
  · simp [BlockSame, afterRead_spi, hr]

/-- Bit `p mod 32` of the value of a bank's read is the pin's own (R93). -/
theorem readReg_bank_pin (r : Src) (f : Pin → Bool) (n : Fin 2) (s : State)
    (hr : ∀ i, s.readBit r i = bankReadBit f n s.pins s.drawn i) (p : Nat) (hp : p < 54) (hn : p / 32 = n.val) :
    (s.readReg r).getLsbD (p % 32) = f (s.pin p) := by
  rw [readReg_getLsbD s r _ (Nat.mod_lt _ (by decide)), hr]
  exact bankReadBit_pin f n s.pins s.drawn p hp hn

/-- Settles O18: each field of the value read is the mode of its pin, by `readReg_gpfsel_field`. -/
theorem gpfselLoadReturnsModes : Obligations.GpfselLoadReturnsModes := by
  unfold Obligations.GpfselLoadReturnsModes
  intro s
  have hload (n : Fin 6) (i : Instr) (hi : exec i s = loadItem (.gpfsel n) s) :
      ∃ t v, exec i s = .next t ∧ Completed s t (some (.word v)) ∧ BlockSame s t
        ∧ ∀ k, k < 10 → 10 * n.val + k ≤ 53 → v.extractLsb' (3 * k) 3 = (s.pin (10 * n.val + k)).fsel := by
    obtain ⟨t, ht, hdone, hsame⟩ := loadItem_reads (.gpfsel n) nofun s
    refine ⟨t, _, hi.trans ht, hdone, hsame, fun k hk hpin => ?_⟩
    have hmod : (10 * n.val + k) % 10 * 3 = 3 * k := by omega
    simpa only [hmod] using readReg_gpfsel_field s n (10 * n.val + k) (by omega) (by omega)
  simp only [List.forall_mem_cons, List.not_mem_nil, false_implies, implies_true, and_true]
  exact ⟨hload 0 _ rfl, hload 1 _ rfl, hload 2 _ rfl, hload 3 _ rfl, hload 4 _ rfl, hload 5 _ rfl⟩

/-- Settles O19: each bit of the value read is its pin's, by `readReg_bank_pin`, and no writable register is at a GPLEVn
address. -/
theorem bankedLoadReturnsPinBits : Obligations.BankedLoadReturnsPinBits := by
  unfold Obligations.BankedLoadReturnsPinBits
  refine ⟨fun p n d hp => write_gplev_refused p hp n d, fun s => ?_⟩
  have hload (r : Src) (f : Pin → Bool) (n : Fin 2) (i : Instr) (hi : exec i s = loadItem r s) (hf : r ≠ .fifo)
      (hr : ∀ i, s.readBit r i = bankReadBit f n s.pins s.drawn i) :
      ∃ t v, exec i s = .next t ∧ Completed s t (some (.word v)) ∧ BlockSame s t
        ∧ ∀ b, b < 32 → 32 * n.val + b ≤ 53 → v.getLsbD b = f (s.pin (32 * n.val + b)) := by
    obtain ⟨t, ht, hdone, hsame⟩ := loadItem_reads r hf s
    refine ⟨t, _, hi.trans ht, hdone, hsame, fun b hb hpin => ?_⟩
    have hmod : (32 * n.val + b) % 32 = b := by omega
    simpa only [hmod] using readReg_bank_pin r f n s hr (32 * n.val + b) (by omega) (by omega)
  simp only [List.forall_mem_cons, List.not_mem_nil, false_implies, implies_true, and_true]
  exact ⟨hload (.gplev 0) _ 0 _ rfl nofun fun _ => rfl, hload (.gplev 1) _ 1 _ rfl nofun fun _ => rfl,
    hload (.gpeds 0) _ 0 _ rfl nofun fun _ => rfl, hload (.gpeds 1) _ 1 _ rfl nofun fun _ => rfl,
    hload (.gpren 0) _ 0 _ rfl nofun fun _ => rfl, hload (.gpren 1) _ 1 _ rfl nofun fun _ => rfl,
    hload (.gpfen 0) _ 0 _ rfl nofun fun _ => rfl, hload (.gpfen 1) _ 1 _ rfl nofun fun _ => rfl⟩

/-! ### Register writes -/

/-- A program's write that changes the pins alone completes its item. -/
theorem storeItem_of_setPins (r : Dst) (d : Word) (s : State) (pins : Vector Pin 54)
    (hw : writeReg r d s = .next (s.setPins pins)) :
    ∃ t, storeItem r d s = .next t ∧ Completed s t none ∧ OnlyPins s t ∧ t.draws = s.draws ∧ t.pins = pins :=
  ⟨(s.setPins pins).finish none, by rw [storeItem, hw, andThen_next], rfl, ⟨rfl, rfl, rfl, rfl, rfl⟩, rfl, rfl⟩

/-- R115 at each pin: the pin's field is its new mode, with edge detection. -/
theorem storeItem_gpfsel (n : Fin 6) (d : Word) (s : State) :
    ∃ t, storeItem (.gpfsel n) d s = .next t ∧ Completed s t none ∧ OnlyPins s t ∧ t.draws = s.draws
      ∧ ∀ p, p < 54 → t.pin p =
        if p / 10 = n.val then Pin.detect (s.pin p).lev { s.pin p with fsel := d.extractLsb' (3 * (p % 10)) 3 }
        else s.pin p := by
  obtain ⟨t, ht, hdone, honly, hdraws, hpins⟩ := storeItem_of_setPins (.gpfsel n) d s _ rfl
  refine ⟨t, ht, hdone, honly, hdraws, fun p hp => ?_⟩
  rw [State.pin, hpins, pinAt_writeGpfsel n d s.pins p hp, Nat.mul_comm]
  rfl

/-- A banked write at each pin: `f` acts by the pin's own bit (R93). -/
theorem storeItem_bank (r : Dst) (f : Bool → Pin → Pin) (n : Fin 2) (d : Word) (s : State)
    (hw : writeReg r d s = .next (s.setPins (writeBank f n d s.pins))) :
    ∃ t, storeItem r d s = .next t ∧ Completed s t none ∧ OnlyPins s t ∧ t.draws = s.draws
      ∧ ∀ p, p < 54 → t.pin p = if p / 32 = n.val then f (d.getLsbD (p % 32)) (s.pin p) else s.pin p := by
  obtain ⟨t, ht, hdone, honly, hdraws, hpins⟩ := storeItem_of_setPins r d s _ hw
  refine ⟨t, ht, hdone, honly, hdraws, fun p hp => ?_⟩
  rw [State.pin, hpins]
  exact pinAt_writeBank f n d s.pins p hp

/-- R116, R117 at each pin: GPSETn sets and GPCLRn clears the latches of the 1 bits, with edge detection. -/
theorem storeItem_latch (on : Bool) (n : Fin 2) (d : Word) (s : State) :
    ∃ t, storeItem (if on then .gpset n else .gpclr n) d s = .next t ∧ Completed s t none ∧ OnlyPins s t
      ∧ t.draws = s.draws ∧ ∀ p, p < 54 → t.pin p =
        if p / 32 = n.val ∧ d.getLsbD (p % 32) = true then Pin.detect (s.pin p).lev { s.pin p with latch := on }
        else s.pin p := by
  simp only [ite_and]
  cases on with
  | true => exact storeItem_bank (.gpset n) setLatch n d s rfl
  | false => exact storeItem_bank (.gpclr n) clrLatch n d s rfl

/-- Settles O20: `storeItem_gpfsel`. -/
theorem gpfselStoreSetsTenModes : Obligations.GpfselStoreSetsTenModes := by
  unfold Obligations.GpfselStoreSetsTenModes
  intro s d
  have hstore (n : Fin 6) (i : Instr) (hi : exec i s = storeItem (.gpfsel n) d s) :
      ∃ t, exec i s = .next t ∧ Completed s t none ∧ OnlyPins s t ∧ t.draws = s.draws
        ∧ ∀ p, p < 54 →
          (p / 10 = n.val → (t.pin p).fsel = d.extractLsb' (3 * (p % 10)) 3 ∧ (t.pin p).latch = (s.pin p).latch
            ∧ PadAndEnablesSame (s.pin p) (t.pin p) ∧ EventRule (s.pin p) (t.pin p))
          ∧ (p / 10 ≠ n.val → t.pin p = s.pin p) := by
    obtain ⟨t, ht, hdone, honly, hdraws, hpin⟩ := storeItem_gpfsel n d s
    refine ⟨t, hi.trans ht, hdone, honly, hdraws, fun p hp => ⟨fun hn => ?_, fun hn => ?_⟩⟩
    · rw [hpin p hp, if_pos hn]
      exact ⟨rfl, rfl, ⟨rfl, rfl, rfl⟩, rfl⟩
    · rw [hpin p hp, if_neg hn]
  simp only [List.forall_mem_cons, List.not_mem_nil, false_implies, implies_true, and_true]
  exact ⟨hstore 0 _ rfl, hstore 1 _ rfl, hstore 2 _ rfl, hstore 3 _ rfl, hstore 4 _ rfl, hstore 5 _ rfl⟩

/-- Settles O21: `storeItem_latch`, and no readable register is at an address of GPSETn or GPCLRn. -/
theorem setClearStoreActsOnOneBits : Obligations.SetClearStoreActsOnOneBits := by
  unfold Obligations.SetClearStoreActsOnOneBits
  refine ⟨fun p n hp => ?_, fun s d => ?_⟩
  · obtain ⟨hset, hclr⟩ := gpset_gpclr_addr_mem p n
    exact ⟨read_set_clear_refused p hp _ hset, read_set_clear_refused p hp _ hclr⟩
  have hstore (n : Fin 2) (on : Bool) (i : Instr) (hi : exec i s = storeItem (if on then .gpset n else .gpclr n) d s) :
      ∃ t, exec i s = .next t ∧ Completed s t none ∧ OnlyPins s t ∧ t.draws = s.draws
        ∧ ∀ p, p < 54 →
          (p / 32 = n.val ∧ d.getLsbD (p % 32) = true →
            (t.pin p).latch = on ∧ (t.pin p).fsel = (s.pin p).fsel ∧ PadAndEnablesSame (s.pin p) (t.pin p)
              ∧ EventRule (s.pin p) (t.pin p))
          ∧ (¬ (p / 32 = n.val ∧ d.getLsbD (p % 32) = true) → t.pin p = s.pin p) := by
    obtain ⟨t, ht, hdone, honly, hdraws, hpin⟩ := storeItem_latch on n d s
    refine ⟨t, hi.trans ht, hdone, honly, hdraws, fun p hp => ⟨fun hone => ?_, fun hzero => ?_⟩⟩
    · rw [hpin p hp, if_pos hone]
      exact ⟨rfl, rfl, ⟨rfl, rfl, rfl⟩, rfl⟩
    · rw [hpin p hp, if_neg hzero]
  simp only [List.forall_mem_cons, List.not_mem_nil, false_implies, implies_true, and_true]
  exact ⟨hstore 0 true _ rfl, hstore 1 true _ rfl, hstore 0 false _ rfl, hstore 1 false _ rfl⟩

/-- Settles O22: a banked write of `clearEvent`. -/
theorem eventStatusStoreClearsOnOne : Obligations.EventStatusStoreClearsOnOne := by
  unfold Obligations.EventStatusStoreClearsOnOne
  intro s d
  simp only [List.forall_mem_cons, List.not_mem_nil, false_implies, implies_true, and_true, ite_and]
  exact ⟨storeItem_bank (.gpeds 0) clearEvent 0 d s rfl, storeItem_bank (.gpeds 1) clearEvent 1 d s rfl⟩

/-- Settles O23: banked writes of `setRen` and of `setFen`. -/
theorem edgeEnableStoreWritesBank : Obligations.EdgeEnableStoreWritesBank := by
  unfold Obligations.EdgeEnableStoreWritesBank
  intro s d
  simp only [List.forall_mem_cons, List.not_mem_nil, false_implies, implies_true, and_true]
  exact ⟨storeItem_bank (.gpren 0) setRen 0 d s rfl, storeItem_bank (.gpren 1) setRen 1 d s rfl,
    storeItem_bank (.gpfen 0) setFen 0 d s rfl, storeItem_bank (.gpfen 1) setFen 1 d s rfl⟩

/-! ### The environment's turn -/

/-- Settles O31: the environment's move is `padStep`, which acts on one pin (`pinAt_padStep`). -/
theorem padTurnChangesOnePad : Obligations.PadTurnChangesOnePad := by
  unfold Obligations.PadTurnChangesOnePad
  intro s p level hstop hturn
  have hmove : moveStep s = .next (padStep p level s) := by simp only [moveStep, hturn]
  have hstep : step s = .next (padStep p level s).redraw := by rw [step_of_running s hstop, hmove, andThen_next]
  refine ⟨padStep p level s, hstep, ⟨rfl, rfl, rfl, rfl, rfl⟩, rfl, rfl, ?_⟩
  rw [pinAt_padStep p level s p p.isLt, if_pos rfl]
  refine ⟨rfl, rfl, rfl, rfl, rfl, rfl, fun q hq hne => ?_⟩
  rw [pinAt_padStep p level s q hq, if_neg hne]

/-! ### One transaction of an operation -/

/-- The last transaction of an operation, a write, does what the program's own write does (R126). -/
theorem runScript_last_store (acts : List Act) (s : State) (r : Dst) (d : Word)
    (ha : acts[s.host.pos]? = some (.store r d)) (hlast : acts.length = s.host.pos + 1) :
    runScript acts finishPlain s = storeItem r d s := by
  simp only [runScript, ha, doAct, storeItem]
  cases hw : writeReg r d s with
  | fault f => rfl
  | refused f => rfl
  | next t =>
    obtain ⟨-, -, hhost, -⟩ := writeReg_frame r d s t hw
    simp only [andThen_next, advance_pos, hhost, hlast, lt_irrefl, if_false]
    rfl

/-- The second half of a read-modify-write writes the merge with what was read (R99). -/
theorem runScript_last_modify (acts : List Act) (s : State) (r : Dst) (clr set : Word)
    (ha : acts[s.host.pos]? = some (.modify r clr set)) (hlast : acts.length = s.host.pos + 1) :
    runScript acts finishPlain s = storeItem r (merge s.host.locals.v clr set) s := by
  have hact : runScript acts finishPlain s
      = runScript (acts.set s.host.pos (.store r (merge s.host.locals.v clr set))) finishPlain s := by
    have hpos : s.host.pos < acts.length := by omega
    simp only [runScript, ha, List.getElem?_set_self hpos, List.length_set, doAct]
  rw [hact]
  exact runScript_last_store _ s r _ (List.getElem?_set_self (by omega)) (by rw [List.length_set, hlast])

/-- What an operation did to the pins alone, in two parts. -/
theorem onlyPins_trans (s u t : State) (hu : OnlyPins s u) (ht : OnlyPins u t) : OnlyPins s t := by
  obtain ⟨u1, u2, u3, u4, u5⟩ := hu
  obtain ⟨t1, t2, t3, t4, t5⟩ := ht
  exact ⟨t1.trans u1, t2.trans u2, t3.trans u3, t4.trans u4, t5.trans u5⟩

/-- An item that went on and then completed has completed (R21). -/
theorem completed_of_ongoing (s u t : State) (ret : Option Ret) (hu : Ongoing s u) (ht : Completed u t ret) :
    Completed s t ret := by
  obtain ⟨hip, hprog, -⟩ := hu
  simp only [Completed] at ht ⊢
  rw [ht, hip, hprog]

/-- An operation's transaction took `s` to `u` by reading `r` into the local variable, and changed nothing else. -/
structure Loaded (r : Src) (s u : State) : Prop where
  ongoing : Ongoing s u
  same : BlockSame s u
  pos : u.host.pos = s.host.pos + 1
  value : u.host.locals.v = s.readReg r

theorem loaded_readInto_advance (r : Src) (hr : r ≠ .fifo) (s : State) : Loaded r s (s.readInto r).advance where
  ongoing := by simp [Ongoing]
  same := by simp [BlockSame, hr]
  pos := by simp
  value := by simp

theorem Loaded.onlyPins {r : Src} {s u : State} (h : Loaded r s u) : OnlyPins s u := by
  obtain ⟨hparams, -, hspi, hencs, hstop, hturn⟩ := h.same
  exact ⟨hparams, hspi, hencs, hstop, hturn⟩

theorem Loaded.params {r : Src} {s u : State} (h : Loaded r s u) : u.params = s.params := by
  obtain ⟨hparams, -⟩ := h.same
  exact hparams

theorem Loaded.pins {r : Src} {s u : State} (h : Loaded r s u) : u.pins = s.pins := by
  obtain ⟨-, hpins, -⟩ := h.same
  exact hpins

theorem Loaded.pin {r : Src} {s u : State} (h : Loaded r s u) (p : Nat) : u.pin p = s.pin p :=
  congrArg (pinAt · p) h.pins

/-- A GPIO register's read in the middle of a script (R13). -/
theorem runScript_load (acts : List Act) (fin : State → Outcome) (s : State) (r : Src) (hr : r ≠ .fifo)
    (ha : acts[s.host.pos]? = some (.load r)) (hmid : s.host.pos + 1 < acts.length) :
    ∃ u, runScript acts fin s = .next u ∧ Loaded r s u := by
  have hu := loaded_readInto_advance r hr s
  exact ⟨_, runScript_mid acts fin s _ _ ha rfl (hu.pos ▸ hmid), hu⟩

/-! ### Invalid pins -/

/-- Settles O36: with no transaction to run, the script is empty and completes at once (R111). -/
theorem invalidPinIsNoOp : Obligations.InvalidPinIsNoOp := by
  unfold Obligations.InvalidPinIsNoOp
  intro s pin x edge
  refine ⟨fun h => ?_, fun h => ?_⟩
  · have hacts : setPinModeActs pin x = [] := if_neg (by unfold validPin; omega)
    simp only [exec, execSetPinMode, hacts, runScript_done [] finishPlain s (Nat.zero_le _), finishPlain_eq]
  · have hpin : ¬ validPin pin := Nat.not_lt.2 h
    have hwrite : writePinActs pin x = [] := if_neg hpin
    have hedge : enableEdgeActs pin edge = [] := if_neg hpin
    refine ⟨?_, if_neg hpin, ?_, if_neg hpin⟩
    · simp only [exec, execWritePin, hwrite, runScript_done [] finishPlain s (Nat.zero_le _), finishPlain_eq]
    · simp only [exec, execEnableEdgeDetect, hedge, runScript_done [] finishPlain s (Nat.zero_le _), finishPlain_eq]

/-! ### SetPinMode -/

theorem setPinModeActs_of_valid (pin mode : Word) (hpin : validPin pin) (hmode : mode.toNat ≤ 7) :
    setPinModeActs pin mode =
      [.load (.gpfsel (fselReg pin)), .modify (.gpfsel (fselReg pin)) (modeClear pin) (modeSet pin mode)] :=
  if_pos ⟨hpin, hmode⟩

/-- SetPinMode's first transaction reads the pin's register (R127). -/
theorem exec_setPinMode_read (s : State) (pin mode : Word) (hpin : validPin pin) (hmode : mode.toNat ≤ 7)
    (hpos : s.host.pos = 0) :
    ∃ u, exec (.setPinMode pin mode) s = .next u ∧ Loaded (.gpfsel (fselReg pin)) s u := by
  simp only [exec, execSetPinMode, setPinModeActs_of_valid pin mode hpin hmode]
  exact runScript_load _ _ s _ nofun (by rw [hpos]; rfl) (by simp [hpos])

/-- SetPinMode's second transaction, at each pin: the new mode for its own pin, what was read for the register's others
(R127, R239). -/
theorem exec_setPinMode_write (s : State) (pin mode : Word) (hpin : validPin pin) (hmode : mode.toNat ≤ 7)
    (hpos : s.host.pos = 1) :
    ∃ t, exec (.setPinMode pin mode) s = .next t ∧ Completed s t none ∧ OnlyPins s t ∧ t.draws = s.draws
      ∧ ∀ p, p < 54 → t.pin p =
        if p / 10 = pin.toNat / 10 then
          Pin.detect (s.pin p).lev { s.pin p with
            fsel := if p = pin.toNat then mode.setWidth 3 else s.host.locals.v.extractLsb' (3 * (p % 10)) 3 }
        else s.pin p := by
  obtain ⟨t, ht, hdone, honly, hdraws, hp⟩ :=
    storeItem_gpfsel (fselReg pin) (merge s.host.locals.v (modeClear pin) (modeSet pin mode)) s
  refine ⟨t, ?_, hdone, honly, hdraws, fun p hlt => ?_⟩
  · rw [← ht, exec, execSetPinMode, setPinModeActs_of_valid pin mode hpin hmode]
    exact runScript_last_modify _ s _ _ _ (by rw [hpos]; rfl) (by rw [hpos]; rfl)
  · rw [hp p hlt, fselReg_val pin hpin]
    refine if_ctx_congr Iff.rfl (fun hreg => ?_) fun _ => rfl
    have hown : p % 10 = pin.toNat % 10 ↔ p = pin.toNat := by omega
    rw [Nat.mul_comm 3, merge_mode_field _ pin mode (p % 10) hmode (Nat.mod_lt _ (by decide))]
    simp only [hown]

/-- Settles O35: `exec_setPinMode_write`. -/
theorem setPinModeWritesBackWhatItRead : Obligations.SetPinModeWritesBackWhatItRead := by
  unfold Obligations.SetPinModeWritesBackWhatItRead
  intro s pin mode hpin hmode hpos
  obtain ⟨t, ht, hdone, honly, hdraws, hp⟩ := exec_setPinMode_write s pin mode hpin hmode hpos
  refine ⟨t, ht, hdone, honly, hdraws, fun p hlt => ⟨fun hreg => ?_, fun hreg => ?_⟩⟩
  · rw [hp p hlt, if_pos hreg]
    exact ⟨rfl, rfl, ⟨rfl, rfl, rfl⟩, rfl⟩
  · rw [hp p hlt, if_neg hreg]

/-- Without a change of level edge detection finds nothing (R119). -/
theorem detect_lev_self (pin : Pin) : Pin.detect pin.lev pin = pin := by
  simp only [Pin.detect, Bool.not_and_self, Bool.and_not_self, Bool.false_and, Bool.or_false]

/-- SetPinMode left alone (R127, R132): the fields written back to the register's other pins are the modes they have. -/
theorem exec_setPinMode_alone (s : State) (pin mode : Word) (hpin : validPin pin) (hmode : mode.toNat ≤ 7)
    (hpos : s.host.pos = 0) :
    ∃ u t, exec (.setPinMode pin mode) s = .next u ∧ Ongoing s u ∧ BlockSame s u
      ∧ exec (.setPinMode pin mode) u = .next t ∧ Completed s t none ∧ OnlyPins s t
      ∧ ∀ p, p < 54 → t.pin p =
        if p = pin.toNat then Pin.detect (s.pin p).lev { s.pin p with fsel := mode.setWidth 3 } else s.pin p := by
  obtain ⟨u, hu, hload⟩ := exec_setPinMode_read s pin mode hpin hmode hpos
  obtain ⟨t, ht, hdone, honly, -, hp⟩ := exec_setPinMode_write u pin mode hpin hmode (by rw [hload.pos, hpos])
  refine ⟨u, t, hu, hload.ongoing, hload.same, ht, completed_of_ongoing s u t none hload.ongoing hdone,
    onlyPins_trans s u t hload.onlyPins honly, fun p hlt => ?_⟩
  rw [hp p hlt, hload.pin, hload.value]
  by_cases heq : p = pin.toNat
  · rw [if_pos heq, if_pos (heq ▸ rfl), if_pos heq]
  · rw [if_neg heq, if_neg heq]
    refine ite_eq_right_iff.2 fun hreg => ?_
    rw [Nat.mul_comm 3, readReg_gpfsel_field s (fselReg pin) p hlt (by rw [hreg, fselReg_val pin hpin])]
    exact detect_lev_self (s.pin p)

/-- Settles O34: `exec_setPinMode_alone`. -/
theorem setPinModeSetsOnePin : Obligations.SetPinModeSetsOnePin := by
  unfold Obligations.SetPinModeSetsOnePin
  intro s pin mode hpin hmode hpos
  obtain ⟨u, t, hu, hon, hsame, ht, hdone, honly, hp⟩ := exec_setPinMode_alone s pin mode hpin hmode hpos
  refine ⟨u, t, hu, hon, hsame, ht, hdone, honly, ?_⟩
  rw [hp _ hpin, if_pos rfl]
  exact ⟨rfl, rfl, ⟨rfl, rfl, rfl⟩, rfl, fun q hq hne => by rw [hp q hq, if_neg hne]⟩

/-! ### WritePin and ReadPin -/

/-- The one 1 bit of a pin's mask, in the pin's bank, is the pin's own (R93, R101). -/
theorem pinMask_bank_iff (pin : Word) (hpin : validPin pin) (p : Nat) :
    p / 32 = (bankOf pin).val ∧ (pinMask pin).getLsbD (p % 32) = true ↔ p = pin.toNat := by
  rw [bankOf_val pin hpin, getLsbD_pinMask pin _ (Nat.mod_lt _ (by decide)), decide_eq_true_eq, bankBit]
  omega

/-- WritePin at each pin (R128). -/
theorem exec_writePin (s : State) (pin value : Word) (hpin : validPin pin) (hpos : s.host.pos = 0) :
    ∃ t, exec (.writePin pin value) s = .next t ∧ Completed s t none ∧ OnlyPins s t ∧ t.draws = s.draws
      ∧ ∀ p, p < 54 → t.pin p =
        if p = pin.toNat then Pin.detect (s.pin p).lev { s.pin p with latch := decide (value ≠ 0) } else s.pin p := by
  obtain ⟨t, ht, hdone, honly, hdraws, hp⟩ := storeItem_latch (decide (value ≠ 0)) (bankOf pin) (pinMask pin) s
  refine ⟨t, ?_, hdone, honly, hdraws, fun p hlt => ?_⟩
  · have hacts : writePinActs pin value
        = [.store (if value ≠ 0 then .gpset (bankOf pin) else .gpclr (bankOf pin)) (pinMask pin)] := if_pos hpin
    simp only [decide_eq_true_eq] at ht
    rw [← ht, exec, execWritePin, hacts]
    exact runScript_last_store _ s _ _ (by rw [hpos]; rfl) (by rw [hpos]; rfl)
  · rw [hp p hlt]
    simp only [pinMask_bank_iff pin hpin]

/-- Settles O37: `exec_writePin`. -/
theorem writePinWritesOneLatch : Obligations.WritePinWritesOneLatch := by
  unfold Obligations.WritePinWritesOneLatch
  intro s pin value hpin hpos
  obtain ⟨t, ht, hdone, honly, hdraws, hp⟩ := exec_writePin s pin value hpin hpos
  refine ⟨t, ht, hdone, honly, hdraws, ?_⟩
  rw [hp _ hpin, if_pos rfl]
  exact ⟨rfl, rfl, ⟨rfl, rfl, rfl⟩, rfl, fun q hq hne => by rw [hp q hq, if_neg hne]⟩

/-- ReadPin returns the pin's level and changes nothing (R129). -/
theorem exec_readPin (s : State) (pin : Word) (hpin : validPin pin) :
    ∃ t, exec (.readPin pin) s = .next t ∧ BlockSame s t ∧ Completed s t (some (.bit (s.pin pin.toNat).lev)) := by
  have hlevel : s.readPinLevel pin = (s.pin pin.toNat).lev :=
    bankReadBit_pin Pin.lev (bankOf pin) s.pins s.drawn pin.toNat hpin (bankOf_val pin hpin).symm
  refine ⟨_, if_pos hpin, ⟨rfl, rfl, rfl, rfl, rfl, rfl⟩, ?_⟩
  rw [hlevel]
  rfl

/-- Settles O38: `exec_readPin`, with the level as R26 defines it. -/
theorem readPinReturnsLevel : Obligations.ReadPinReturnsLevel := by
  unfold Obligations.ReadPinReturnsLevel
  exact fun s pin hpin => exec_readPin s pin hpin

/-- An Output pin drives its latch (R26). -/
theorem lev_of_output (pin : Pin) (h : pin.fsel = modeOutput) : pin.lev = pin.latch := if_pos h

/-- Settles O39: WritePin sets the latch, and an Output pin's level is its latch, whether it was an Output before or
SetPinMode makes it one after. -/
theorem writtenLevelIsRead : Obligations.WrittenLevelIsRead := by
  unfold Obligations.WrittenLevelIsRead
  intro s pin value hpin hpos
  obtain ⟨t, ht, hdone, -, -, hp⟩ := exec_writePin s pin value hpin hpos
  have hlatch : t.pin pin.toNat
      = Pin.detect (s.pin pin.toNat).lev { s.pin pin.toNat with latch := decide (value ≠ 0) } := by
    rw [hp _ hpin, if_pos rfl]
  refine ⟨t, ht, fun hout => ?_, ?_⟩
  · obtain ⟨u, hu, -, hread⟩ := exec_readPin t pin hpin
    have hlev : (t.pin pin.toNat).lev = decide (value ≠ 0) := by
      rw [hlatch, detect_lev]
      exact lev_of_output _ hout
    exact ⟨u, hu, by rw [hread, hlev]⟩
  · obtain ⟨w, u, hw, -, -, hu, -, -, hmode⟩ :=
      exec_setPinMode_alone t pin 1 hpin (by decide) (by rw [hdone])
    have hdriven : (u.pin pin.toNat).lev = (t.pin pin.toNat).latch := by
      rw [hmode _ hpin, if_pos rfl, detect_lev, lev_of_output _ rfl]
    exact ⟨w, u, hw, hu, by rw [hdriven, hlatch, detect_latch]⟩

/-! ### EnableEdgeDetect -/

/-- The word EnableEdgeDetect writes back: `v | m` or `v & ~m` (R130). -/
def enableData (on : Bool) (v m : Word) : Word := if on then merge v 0 m else merge v m 0

theorem doAct_enableAct (r : Dst) (on : Bool) (m : Word) (s : State) :
    doAct (enableAct r on m) s = andThen (writeReg r (enableData on s.host.locals.v m) s) fun t => .next t.advance := by
  cases on <;> rfl

/-- The pin's own bit is the one asked for, every other is as it was read. -/
theorem getLsbD_enableData (on : Bool) (v pin : Word) (i : Nat) (hi : i < 32) :
    (enableData on v (pinMask pin)).getLsbD i = if i = bankBit pin then on else v.getLsbD i := by
  have hzero : (0 : Word).getLsbD i = false := BitVec.getLsbD_zero
  cases on with
  | true =>
    change (merge v 0 (pinMask pin)).getLsbD i = _
    rw [getLsbD_merge, getLsbD_pinMask pin i hi, hzero, decide_eq_true hi]
    split <;> simp [*]
  | false =>
    change (merge v (pinMask pin) 0).getLsbD i = _
    rw [getLsbD_merge, getLsbD_pinMask pin i hi, hzero, decide_eq_true hi]
    split <;> simp [*]

/-- Both halves of a read-modify-write of an enable register at each pin: `set` acts on the operation's own pin, and
writes every other its own value back. -/
theorem pinAt_enable (s : State) (r : Src) (f : Pin → Bool) (set : Bool → Pin → Pin) (pin : Word) (on : Bool)
    (hpin : validPin pin) (hr : ∀ i, s.readBit r i = bankReadBit f (bankOf pin) s.pins s.drawn i)
    (hset : ∀ q, set (f q) q = q) (p : Nat) (hp : p < 54) :
    pinAt (writeBank set (bankOf pin) (enableData on (s.readReg r) (pinMask pin)) s.pins) p
      = if p = pin.toNat then set on (s.pin p) else s.pin p := by
  rw [pinAt_writeBank _ _ _ _ _ hp, bankOf_val pin hpin, getLsbD_enableData _ _ _ _ (Nat.mod_lt _ (by decide))]
  by_cases hbank : p / 32 = pin.toNat / 32
  · have hown : p % 32 = bankBit pin ↔ p = pin.toNat := by rw [bankBit]; omega
    rw [if_pos hbank, readReg_bank_pin r f _ s hr p hp (by rw [hbank, bankOf_val pin hpin])]
    simp only [hown]
    split
    · rfl
    · exact hset (s.pin p)
  · have hne : p ≠ pin.toNat := fun h => hbank (h ▸ rfl)
    rw [if_neg hbank, if_neg hne]
    rfl

/-- The write half of an enable register's read-modify-write, at the end of a script (R130). -/
theorem runScript_last_enable (acts : List Act) (s : State) (r : Dst) (on : Bool) (m : Word)
    (ha : acts[s.host.pos]? = some (enableAct r on m)) (hlast : acts.length = s.host.pos + 1) :
    runScript acts finishPlain s = storeItem r (enableData on s.host.locals.v m) s := by
  cases on with
  | true => exact runScript_last_modify acts s r 0 m ha hlast
  | false => exact runScript_last_modify acts s r m 0 ha hlast

theorem enableEdgeActs_of_valid (pin : Word) (edge : Edge) (hpin : validPin pin) :
    enableEdgeActs pin edge =
      [.load (.gpren (bankOf pin)), enableAct (.gpren (bankOf pin)) (edgeRises edge) (pinMask pin),
       .load (.gpfen (bankOf pin)), enableAct (.gpfen (bankOf pin)) (edgeFalls edge) (pinMask pin)] :=
  if_pos hpin

/-- Transactions 0 and 1: the rising enable (R130). -/
theorem exec_enableEdgeDetect_rising (s : State) (pin : Word) (edge : Edge) (hpin : validPin pin)
    (hpos : s.host.pos = 0) :
    ∃ u w, exec (.enableEdgeDetect pin edge) s = .next u ∧ Ongoing s u ∧ BlockSame s u
      ∧ exec (.enableEdgeDetect pin edge) u = .next w ∧ Ongoing s w ∧ OnlyPins s w ∧ w.host.pos = 2
      ∧ ∀ p, p < 54 → w.pin p = if p = pin.toNat then { s.pin p with ren := edgeRises edge } else s.pin p := by
  have hacts := enableEdgeActs_of_valid pin edge hpin
  obtain ⟨u, hu, hload⟩ := runScript_load (enableEdgeActs pin edge) finishPlain s (.gpren (bankOf pin)) nofun
    (by rw [hacts, hpos]; rfl) (by simp [hacts, hpos])
  have hupos : u.host.pos = 1 := by rw [hload.pos, hpos]
  have hwrite : doAct (enableAct (.gpren (bankOf pin)) (edgeRises edge) (pinMask pin)) u = .next (u.setPins
      (writeBank setRen (bankOf pin) (enableData (edgeRises edge) u.host.locals.v (pinMask pin)) u.pins)).advance :=
    doAct_enableAct _ _ _ u
  have hw := runScript_mid (enableEdgeActs pin edge) finishPlain u _ _ (by rw [hacts, hupos]; rfl) hwrite
    (by simp [hacts, hupos])
  refine ⟨u, _, hu, hload.ongoing, hload.same, hw, hload.ongoing, hload.onlyPins, by simp [hupos], fun p hp => ?_⟩
  change pinAt (writeBank setRen _ _ u.pins) p = _
  rw [hload.value, hload.pins]
  exact pinAt_enable s (.gpren (bankOf pin)) Pin.ren setRen pin _ hpin (fun _ => rfl) (fun _ => rfl) p hp

/-- Transactions 2 and 3: the falling enable, and the operation completes (R130). -/
theorem exec_enableEdgeDetect_falling (s : State) (pin : Word) (edge : Edge) (hpin : validPin pin)
    (hpos : s.host.pos = 2) :
    ∃ u t, exec (.enableEdgeDetect pin edge) s = .next u ∧ exec (.enableEdgeDetect pin edge) u = .next t
      ∧ Completed s t none ∧ OnlyPins s t
      ∧ ∀ p, p < 54 → t.pin p = if p = pin.toNat then { s.pin p with fen := edgeFalls edge } else s.pin p := by
  have hacts := enableEdgeActs_of_valid pin edge hpin
  obtain ⟨u, hu, hload⟩ := runScript_load (enableEdgeActs pin edge) finishPlain s (.gpfen (bankOf pin)) nofun
    (by rw [hacts, hpos]; rfl) (by simp [hacts, hpos])
  have hupos : u.host.pos = 3 := by rw [hload.pos, hpos]
  obtain ⟨t, ht, hdone, honly, -, hpins⟩ := storeItem_of_setPins (.gpfen (bankOf pin))
    (enableData (edgeFalls edge) u.host.locals.v (pinMask pin)) u _ rfl
  rw [← runScript_last_enable (enableEdgeActs pin edge) u _ _ _ (by rw [hacts, hupos]; rfl)
    (by rw [hacts, hupos]; rfl)] at ht
  refine ⟨u, t, hu, ht, completed_of_ongoing s u t none hload.ongoing hdone,
    onlyPins_trans s u t hload.onlyPins honly, fun p hp => ?_⟩
  rw [State.pin, hpins, hload.value, hload.pins]
  exact pinAt_enable s (.gpfen (bankOf pin)) Pin.fen setFen pin _ hpin (fun _ => rfl) (fun _ => rfl) p hp

theorem edgeRises_eq (edge : Edge) : edgeRises edge = decide (edge = .rising ∨ edge = .changing) := by
  cases edge <;> rfl

theorem edgeFalls_eq (edge : Edge) : edgeFalls edge = decide (edge = .falling ∨ edge = .changing) := by
  cases edge <;> rfl

/-- Settles O40: the rising enable in the first two transactions, the falling enable in the last two. -/
theorem enableEdgeDetectSetsBothEnables : Obligations.EnableEdgeDetectSetsBothEnables := by
  unfold Obligations.EnableEdgeDetectSetsBothEnables
  intro s pin edge hpin hpos
  obtain ⟨u, w, hu, huon, hsame, hw, hwon, hwonly, hwpos, hwp⟩ := exec_enableEdgeDetect_rising s pin edge hpin hpos
  obtain ⟨x, t, hx, ht, hdone, honly, hp⟩ := exec_enableEdgeDetect_falling w pin edge hpin hwpos
  refine ⟨u, t, hu, huon, hsame, ?_, completed_of_ongoing s w t none hwon hdone, onlyPins_trans s w t hwonly honly, ?_,
    fun q hq hne => ?_⟩
  · simp only [execN_succ, execN_zero, hw, hx, ht, andThen_next]
  · rw [hp _ hpin, if_pos rfl, hwp _ hpin, if_pos rfl, edgeRises_eq, edgeFalls_eq]
  · rw [hp q hq, if_neg hne, hwp q hq, if_neg hne]

/-! ### EventDetected -/

/-- The pin's event flag in a read of its bank (R120). -/
theorem readBit_gpeds_pin (s : State) (pin : Word) (hpin : validPin pin) :
    s.readBit (.gpeds (bankOf pin)) (bankBit pin) = (s.pin pin.toNat).eds :=
  bankReadBit_pin Pin.eds (bankOf pin) s.pins s.drawn pin.toNat hpin (bankOf_val pin hpin).symm

/-- EventDetected's first transaction reads the bank's events, and returns false if the pin has none (R131). -/
theorem exec_eventDetected_none (s : State) (pin : Word) (hpin : validPin pin) (hpos : s.host.pos = 0)
    (hflag : (s.pin pin.toNat).eds = false) :
    ∃ t, exec (.eventDetected pin) s = .next t ∧ Completed s t (some (.flag false)) ∧ BlockSame s t := by
  have hread := readBit_gpeds_pin s pin hpin
  simp only [exec, execEventDetected, if_pos hpin, hpos, hread, hflag, finishFlag]
  exact ⟨_, rfl, rfl, rfl, rfl, rfl, rfl, rfl, rfl⟩

/-- With an event for the pin it goes on (R131). -/
theorem exec_eventDetected_event (s : State) (pin : Word) (hpin : validPin pin) (hpos : s.host.pos = 0)
    (hflag : (s.pin pin.toNat).eds = true) :
    ∃ u, exec (.eventDetected pin) s = .next u ∧ Loaded (.gpeds (bankOf pin)) s u := by
  have hread := readBit_gpeds_pin s pin hpin
  simp only [exec, execEventDetected, if_pos hpin, hpos, hread, hflag, if_true]
  exact ⟨_, rfl, loaded_readInto_advance (.gpeds (bankOf pin)) nofun s⟩

/-- Under `or_rmw` the bank's events are read again (R131). -/
theorem exec_eventDetected_reread (s : State) (pin : Word) (hpin : validPin pin) (hpos : s.host.pos = 1)
    (hstyle : s.params.edsClearStyle = .orRmw) :
    ∃ u, exec (.eventDetected pin) s = .next u ∧ Loaded (.gpeds (bankOf pin)) s u := by
  simp only [exec, execEventDetected, if_pos hpin, hpos, hstyle]
  exact ⟨_, rfl, loaded_readInto_advance (.gpeds (bankOf pin)) nofun s⟩

/-- Under `direct_write` the pin's mask is written (R131). -/
theorem exec_eventDetected_directWrite (s : State) (pin : Word) (hpin : validPin pin) (hpos : s.host.pos = 1)
    (hstyle : s.params.edsClearStyle = .directWrite) :
    exec (.eventDetected pin) s = eventClear pin (pinMask pin) s := by
  simp only [exec, execEventDetected, if_pos hpin, hpos, hstyle]

/-- Under `or_rmw` what was read, with the pin's bit set, is written back (R131). -/
theorem exec_eventDetected_writeBack (s : State) (pin : Word) (hpin : validPin pin) (hpos : s.host.pos = 2) :
    exec (.eventDetected pin) s = eventClear pin (s.host.locals.v ||| pinMask pin) s := by
  simp only [exec, execEventDetected, if_pos hpin, hpos]

/-- The clearing write at each pin, after which EventDetected returns true (R121, R131). -/
theorem eventClear_pins (pin d : Word) (hpin : validPin pin) (s : State) :
    ∃ t, eventClear pin d s = .next t ∧ Completed s t (some (.flag true)) ∧ OnlyPins s t
      ∧ ∀ p, p < 54 → t.pin p =
        if p / 32 = pin.toNat / 32 ∧ d.getLsbD (p % 32) = true then { s.pin p with eds := false } else s.pin p := by
  refine ⟨_, rfl, rfl, ⟨rfl, rfl, rfl, rfl, rfl⟩, fun p hp => ?_⟩
  simp only [ite_and, ← bankOf_val pin hpin]
  exact pinAt_writeBank clearEvent (bankOf pin) d s.pins p hp

/-- Clearing a flag that is 0 changes nothing. -/
theorem clear_eds_of_eds_eq_false (pin : Pin) (h : pin.eds = false) : { pin with eds := false } = pin := by
  rw [← h]

/-- Writing a bank's events back to it, with any further bits, clears all of them (R121, R135). -/
theorem writeBack_clears_bank (s : State) (n : Fin 2) (m : Word) (p : Nat) (hp : p < 54) :
    (if p / 32 = n.val ∧ (s.readReg (.gpeds n) ||| m).getLsbD (p % 32) = true then { s.pin p with eds := false }
      else s.pin p) = if p / 32 = n.val then { s.pin p with eds := false } else s.pin p := by
  rw [ite_and]
  refine if_ctx_congr Iff.rfl (fun hn => ?_) fun _ => rfl
  rw [BitVec.getLsbD_or, readReg_bank_pin (.gpeds n) Pin.eds n s (fun _ => rfl) p hp hn]
  refine ite_eq_left_iff.2 fun hbit => (clear_eds_of_eds_eq_false _ ?_).symm
  rw [Bool.not_eq_true, Bool.or_eq_false_iff] at hbit
  exact hbit.1

/-- Settles O41: no event ends at the first read; the clear of an event is `eventClear_pins`, with the word read back
(`writeBack_clears_bank`) or the pin's mask (`pinMask_bank_iff`). -/
theorem eventDetectedConsumesTheEvent : Obligations.EventDetectedConsumesTheEvent := by
  unfold Obligations.EventDetectedConsumesTheEvent
  intro s pin hpin hpos
  refine ⟨exec_eventDetected_none s pin hpin hpos, fun hflag hstyle => ?_, fun hflag hstyle => ?_⟩
  · obtain ⟨u, hu, hload⟩ := exec_eventDetected_event s pin hpin hpos hflag
    have hustyle : u.params.edsClearStyle = .orRmw := by rw [hload.params, hstyle]
    obtain ⟨w, hw, hreload⟩ := exec_eventDetected_reread u pin hpin (by rw [hload.pos, hpos]) hustyle
    obtain ⟨t, ht, hdone, honly, hp⟩ := eventClear_pins pin (w.host.locals.v ||| pinMask pin) hpin w
    rw [← exec_eventDetected_writeBack w pin hpin (by rw [hreload.pos, hload.pos, hpos])] at ht
    refine ⟨u, t, hu, hload.ongoing, hload.same, by simp only [execN_succ, execN_zero, hw, ht, andThen_next],
      completed_of_ongoing s u t _ hload.ongoing (completed_of_ongoing u w t _ hreload.ongoing hdone),
      onlyPins_trans s u t hload.onlyPins (onlyPins_trans u w t hreload.onlyPins honly), fun p hlt => ?_⟩
    rw [hp p hlt, hreload.value, hreload.pin, ← bankOf_val pin hpin, writeBack_clears_bank u _ _ p hlt, hload.pin]
  · obtain ⟨u, hu, hload⟩ := exec_eventDetected_event s pin hpin hpos hflag
    have hustyle : u.params.edsClearStyle = .directWrite := by rw [hload.params, hstyle]
    obtain ⟨t, ht, hdone, honly, hp⟩ := eventClear_pins pin (pinMask pin) hpin u
    rw [← exec_eventDetected_directWrite u pin hpin (by rw [hload.pos, hpos]) hustyle] at ht
    refine ⟨u, t, hu, hload.ongoing, hload.same, ht, completed_of_ongoing s u t _ hload.ongoing hdone,
      onlyPins_trans s u t hload.onlyPins honly, fun p hlt => ?_⟩
    rw [hp p hlt, hload.pin, ← bankOf_val pin hpin]
    simp only [pinMask_bank_iff pin hpin]

end Sys2Proof.Proofs
end

section
/-! Proofs of the statements on SPI0 (spec/41_spi0.md), the whole-machine rules: what one turn of the engine does, the
invariant every step keeps, and the one writer of Transfer Active. -/

namespace Sys2Proof.Proofs

open Sys2Proof.Machine Sys2Proof.Laws

/-! ### The status flags (R35) -/

theorem done_iff (s : Spi) : s.done = true ↔ s.ta = true ∧ s.txq = [] ∧ s.shift = none := by
  simp only [Spi.done, Bool.and_eq_true, List.isEmpty_iff, Option.isNone_iff_eq_none, and_assoc]

theorem rxd_iff (s : Spi) : s.rxd = true ↔ s.rxq ≠ [] := by
  simp only [Spi.rxd, Bool.not_eq_true', List.isEmpty_eq_false_iff]

theorem txd_iff (p : Params) (s : Spi) : s.txd p = true ↔ s.txq.length < p.fifoDepth := decide_eq_true_iff

theorem rxf_iff (p : Params) (s : Spi) : s.rxf p = true ↔ s.rxq.length = p.fifoDepth := decide_eq_true_iff

theorem rxr_iff (p : Params) (s : Spi) : s.rxr p = true ↔ s.ta = true ∧ p.rxrThreshold ≤ s.rxq.length := by
  simp only [Spi.rxr, Bool.and_eq_true, decide_eq_true_eq]

/-! ### The engine's turn (R150, R151) -/

theorem engineSpi_of_shift (p : Params) (miso : Byte) (s : Spi) (b : Byte) (c : BitVec 2)
    (hshift : s.shift = some (b, c)) : engineSpi p miso s = engineComplete p b c miso s := by
  simp only [engineSpi, hshift]

theorem engineSpi_of_load (p : Params) (miso : Byte) (s : Spi) (b : Byte) (q : List Byte) (hload : loadEnabled p s)
    (htxq : s.txq = b :: q) : engineSpi p miso s = { s with txq := q, shift := some (b, s.cs) } := by
  have ⟨_, hshift, _, _⟩ := hload
  simp only [engineSpi, hshift, if_pos hload, engineLoad, htxq]

theorem engineSpi_of_idle (p : Params) (miso : Byte) (s : Spi) (hshift : s.shift = none) (hload : ¬ loadEnabled p s) :
    engineSpi p miso s = s := by
  simp only [engineSpi, hshift, if_neg hload]

/-- The engine's turn is a complete step, a load step, or nothing. -/
theorem engineSpi_cases (p : Params) (miso : Byte) (s : Spi) :
    (∃ b c, s.shift = some (b, c) ∧ engineSpi p miso s = engineComplete p b c miso s)
      ∨ (∃ b q, s.shift = none ∧ s.txq = b :: q ∧ loadEnabled p s
          ∧ engineSpi p miso s = { s with txq := q, shift := some (b, s.cs) })
      ∨ (s.shift = none ∧ ¬ loadEnabled p s ∧ engineSpi p miso s = s) := by
  cases hshift : s.shift with
  | some x => exact .inl ⟨x.1, x.2, rfl, engineSpi_of_shift p miso s x.1 x.2 hshift⟩
  | none =>
    by_cases hload : loadEnabled p s
    · have ⟨_, _, hne, _⟩ := hload
      obtain ⟨b, q, htxq⟩ := List.exists_cons_of_ne_nil hne
      exact .inr (.inl ⟨b, q, rfl, htxq, hload, engineSpi_of_load p miso s b q hload htxq⟩)
    · exact .inr (.inr ⟨rfl, hload, engineSpi_of_idle p miso s hshift hload⟩)

/-- With an empty shifter and a byte waiting, what the load step still asks for (R150). -/
theorem loadEnabled_iff (p : Params) (s : Spi) (hshift : s.shift = none) (htxq : s.txq ≠ []) :
    loadEnabled p s ↔ s.ta = true ∧ (p.rxFullPolicy = .stall → s.rxq.length < p.fifoDepth) := by
  simp only [loadEnabled, hshift, htxq, ne_eq, not_false_eq_true, true_and]

theorem not_loadEnabled_of_empty (p : Params) (s : Spi) (htxq : s.txq = []) : ¬ loadEnabled p s :=
  fun ⟨_, _, hne, _⟩ => hne htxq

theorem engineSpi_ta (p : Params) (miso : Byte) (s : Spi) : (engineSpi p miso s).ta = s.ta := by
  rcases engineSpi_cases p miso s with ⟨b, c, -, h⟩ | ⟨b, q, -, -, -, h⟩ | ⟨-, -, h⟩ <;> rw [h]
  rfl

/-- Settles O30: the engine's move is `engineSpi` on the controller, and its three cases are those of the statement. -/
theorem engineTurnLoadsOrCompletes : Obligations.EngineTurnLoadsOrCompletes := by
  unfold Obligations.EngineTurnLoadsOrCompletes
  intro s miso hstop hturn
  have hmove : moveStep s = .next (engineStep miso s) := by simp only [moveStep, hturn]
  refine ⟨engineStep miso s, by rw [step_of_running s hstop, hmove, andThen_next], ⟨rfl, rfl, rfl, rfl, rfl⟩, rfl, rfl,
    fun b c hshift => engineSpi_of_shift _ _ _ b c hshift, fun b q hshift htxq => ?_, fun hshift htxq => ?_⟩
  · simp only [← loadEnabled_iff s.params s.spi hshift (htxq ▸ List.cons_ne_nil b q)]
    split
    · next hload => exact engineSpi_of_load _ _ _ b q hload htxq
    · next hload => exact engineSpi_of_idle _ _ _ hshift hload
  · exact engineSpi_of_idle _ _ _ hshift (not_loadEnabled_of_empty _ _ htxq)

/-! ### What every step keeps -/

/-- An encoder whose listed values are set together has them set together, listed or not (R39). -/
theorem encLookup_whole (k : Nat) (l : List (Nat × Encoder)) (h : ∀ x ∈ l, x.2.raw.isSome = x.2.count.isSome) :
    (encLookup k l).raw.isSome = (encLookup k l).count.isSome := by
  induction l with
  | nil => rfl
  | cons x l ih =>
    obtain ⟨hx, hl⟩ := List.forall_mem_cons.1 h
    simp only [encLookup]
    split
    · exact hx
    · exact ih hl

/-- The writes of a host step keep the encoder table canonical and whole (R39, log 12). -/
theorem encChange_keeps (l m : List (Nat × Encoder)) (h : EncChange l m) (hwf : encsWf 0 l = true)
    (hwhole : ∀ x ∈ l, x.2.raw.isSome = x.2.count.isSome) :
    encsWf 0 m = true ∧ ∀ x ∈ m, x.2.raw.isSome = x.2.count.isSome := by
  induction h with
  | same => exact ⟨hwf, hwhole⟩
  | insert k e m hm he ih =>
    obtain ⟨ihwf, ihwhole⟩ := ih
    refine ⟨encsWf_insert k 0 e m ihwf (Nat.zero_le k), fun x hx => ?_⟩
    rcases mem_encInsert k e m x hx with rfl | hx
    · exact he (encLookup_whole k m ihwhole)
    · exact ihwhole x hx

/-- A FIFO that is emptied or left alone does not grow. -/
theorem length_ite_nil_le (clear : Bool) (q : List Byte) (n : Nat) (h : q.length ≤ n) :
    (if clear then [] else q).length ≤ n := by
  cases clear with
  | true => exact Nat.zero_le n
  | false => exact h

/-- A CS write that no stop turns away keeps the controller's invariant: the chip select it stores is not 3, and a byte in
the shifter keeps its room because no CLEAR bit adds to the RX FIFO (R142, R145). -/
theorem spiInv_storeCs (p : Params) (c : CsPositions) (d : Word) (s : Spi) (h : SpiInv p s) (hok : ¬ csRefused c d) :
    SpiInv p (storeCs c d (csCleared c d s)) where
  txRoom := length_ite_nil_le _ _ _ h.txRoom
  rxRoom := length_ite_nil_le _ _ _ h.rxRoom
  refusedZero := h.refusedZero
  csLegal := fun hcs => hok (.inl hcs)
  shiftLegal := h.shiftLegal
  shiftRoom := fun hstall hshift => by
    have hroom := h.shiftRoom hstall hshift
    have hle := length_ite_nil_le (d.getLsbD c.clearRx) s.rxq _ le_rfl
    exact lt_of_le_of_lt hle hroom
  wireLegal := h.wireLegal

/-- A FIFO write pushes one byte where there is room (R147). -/
theorem spiInv_pushTx (p : Params) (b : Byte) (s : Spi) (h : SpiInv p s) (hroom : s.txq.length ≠ p.fifoDepth) :
    SpiInv p { s with txq := s.txq ++ [b] } where
  txRoom := by
    have hle := h.txRoom
    simp only [List.length_append, List.length_singleton]
    omega
  rxRoom := h.rxRoom
  refusedZero := h.refusedZero
  csLegal := h.csLegal
  shiftLegal := h.shiftLegal
  shiftRoom := h.shiftRoom
  wireLegal := h.wireLegal

/-- A FIFO read makes room (R146). -/
theorem spiInv_popRx (p : Params) (s : Spi) (h : SpiInv p s) : SpiInv p (popRx s) where
  txRoom := h.txRoom
  rxRoom := (List.tail_sublist s.rxq).length_le.trans h.rxRoom
  refusedZero := h.refusedZero
  csLegal := h.csLegal
  shiftLegal := h.shiftLegal
  shiftRoom := fun hstall hshift => lt_of_le_of_lt (List.tail_sublist s.rxq).length_le (h.shiftRoom hstall hshift)
  wireLegal := h.wireLegal

/-- The complete step: the reply is received where there is room, and the exchange carries the byte's own chip select
(R151, R155). -/
theorem spiInv_engineComplete (p : Params) (b : Byte) (c : BitVec 2) (miso : Byte) (s : Spi) (h : SpiInv p s)
    (hshift : s.shift = some (b, c)) : SpiInv p (engineComplete p b c miso s) where
  txRoom := h.txRoom
  rxRoom := by
    have hle := h.rxRoom
    simp only [engineComplete]
    split
    · rw [List.length_append, List.length_singleton]; omega
    · exact hle
  refusedZero := h.refusedZero
  csLegal := h.csLegal
  shiftLegal := nofun
  shiftRoom := fun _ hne => absurd rfl hne
  wireLegal := by
    simp only [engineComplete, List.forall_mem_append, List.forall_mem_singleton]
    exact ⟨h.wireLegal, h.shiftLegal b c hshift⟩

/-- The load step: the byte takes the chip select in force, and under `stall` has room for its reply (R150, R155). -/
theorem spiInv_engineLoad (p : Params) (b : Byte) (q : List Byte) (s : Spi) (h : SpiInv p s) (htxq : s.txq = b :: q)
    (hload : loadEnabled p s) : SpiInv p { s with txq := q, shift := some (b, s.cs) } where
  txRoom := by
    have hle := h.txRoom
    rw [htxq, List.length_cons] at hle
    exact Nat.le_of_succ_le hle
  rxRoom := h.rxRoom
  refusedZero := h.refusedZero
  csLegal := h.csLegal
  shiftLegal := by
    rintro b' c' hshift
    cases hshift
    exact h.csLegal
  shiftRoom := fun hstall _ => by
    obtain ⟨-, -, -, hroom⟩ := hload
    exact hroom hstall
  wireLegal := h.wireLegal

theorem spiInv_engineSpi (p : Params) (miso : Byte) (s : Spi) (h : SpiInv p s) : SpiInv p (engineSpi p miso s) := by
  rcases engineSpi_cases p miso s with ⟨b, c, hshift, heq⟩ | ⟨b, q, -, htxq, hload, heq⟩ | ⟨-, -, heq⟩ <;> rw [heq]
  · exact spiInv_engineComplete p b c miso s h hshift
  · exact spiInv_engineLoad p b q s h htxq hload
  · exact h

/-- No register write of the host breaks the controller's invariant. -/
theorem spiInv_writeReg (r : Dst) (d : Word) (s u : State) (h : SpiInv s.params s.spi) (hw : writeReg r d s = .next u) :
    SpiInv s.params u.spi := by
  cases r with
  | cs =>
    obtain ⟨hok, -, -, rfl⟩ := (writeCs_eq_next d s u).1 hw
    exact spiInv_storeCs _ _ d _ h hok
  | fifo =>
    obtain ⟨-, hroom, rfl⟩ := (writeFifo_eq_next d s u).1 hw
    exact spiInv_pushTx _ _ _ h hroom
  | clk =>
    cases hw
    exact ⟨h.txRoom, h.rxRoom, h.refusedZero, h.csLegal, h.shiftLegal, h.shiftRoom, h.wireLegal⟩
  | gpfsel | gpset | gpclr | gpeds | gpren | gpfen =>
    cases hw
    exact h

/-- No instruction breaks the invariant: its one effect on the block is a FIFO read or a register write. -/
theorem machineInv_exec (i : Instr) (s t : State) (h : MachineInv s) (hexec : exec i s = .next t) : MachineInv t := by
  have e := exec_effect i s t hexec
  obtain ⟨hwf, hwhole⟩ := encChange_keeps _ _ e.encs h.encs h.encsWhole
  refine ⟨?_, hwf, hwhole⟩
  rw [e.params]
  rcases e.block with ⟨-, hspi⟩ | ⟨-, hspi⟩ | ⟨r, d, u, hw, -, hspi⟩ <;> rw [hspi]
  · exact h.spi
  · exact spiInv_popRx _ _ h.spi
  · exact spiInv_writeReg r d s u h.spi hw

/-- Settles O3: the host by `machineInv_exec`, the engine by `spiInv_engineSpi`; a pad change and an ended program leave
the controller and the encoders alone. -/
theorem stepKeepsInvariant : Obligations.StepKeepsInvariant := by
  unfold Obligations.StepKeepsInvariant
  intro s t h hstep
  obtain ⟨-, u, hmove, rfl⟩ := (step_eq_next s t).1 hstep
  suffices hu : MachineInv u from ⟨hu.spi, hu.encs, hu.encsWhole⟩
  rcases moveStep_cases s u hmove with ⟨-, ⟨i, -, hexec⟩ | ⟨-, rfl⟩⟩ | ⟨miso, -, rfl⟩ | ⟨p, level, -, rfl⟩
  · exact machineInv_exec i s u h hexec
  · exact h
  · exact ⟨spiInv_engineSpi _ miso _ h.spi, h.encs, h.encsWhole⟩
  · exact ⟨h.spi, h.encs, h.encsWhole⟩

/-! ### Transfer Active -/

/-- Of the register writes only that of CS changes Transfer Active, to the TA bit of its data (R142, R144). -/
theorem writeReg_ta (r : Dst) (d : Word) (s u : State) (hw : writeReg r d s = .next u) (hne : u.spi.ta ≠ s.spi.ta) :
    r = .cs ∧ u.pins = s.pins ∧ u.spi.ta = d.getLsbD s.params.csBits.ta := by
  cases r with
  | cs =>
    obtain ⟨-, -, -, rfl⟩ := (writeCs_eq_next d s u).1 hw
    exact ⟨rfl, rfl, rfl⟩
  | fifo =>
    obtain ⟨-, -, rfl⟩ := (writeFifo_eq_next d s u).1 hw
    exact absurd rfl hne
  | clk | gpfsel | gpset | gpclr | gpeds | gpren | gpfen =>
    cases hw
    exact absurd rfl hne

/-- SetPinMode's transactions reach the pins alone (R127). -/
theorem doAct_setPinMode_spi (pin mode : Word) (a : Act) (ha : a ∈ setPinModeActs pin mode) (s u : State)
    (h : doAct a s = .next u) : u.spi = s.spi := by
  simp only [setPinModeActs] at ha
  split at ha
  · rcases List.mem_pair.1 ha with rfl | rfl
    · cases h; simp
    · cases h; rfl
  · cases ha

/-- Initialize leaves the controller alone: its transactions are those of SetPinMode (R194). -/
theorem execQdecInitialize_spi (e pinA pinB : Word) (s t : State) (h : execQdecInitialize e pinA pinB s = .next t) :
    t.spi = s.spi := by
  have hrun : ∀ w : State, runScript (setPinModeActs pinA modeInput ++ setPinModeActs pinB modeInput)
      (finishInit e pinA pinB) w = .next t → t.spi = w.spi := by
    intro w hw
    have hfin : ∀ u : State, finishInit e pinA pinB u = .next t → t.spi = u.spi := by
      rintro u hu
      cases hu
      rfl
    simp only [runScript] at hw
    split at hw
    · exact hfin w hw
    · next a ha =>
      obtain ⟨u, hu, ht⟩ := andThen_eq_next _ _ _ hw
      have hspi : u.spi = w.spi := by
        rcases List.mem_append.1 (List.mem_of_getElem? ha) with ha | ha <;> exact doAct_setPinMode_spi _ _ a ha w u hu
      rw [← hspi]
      split at ht
      · cases ht; rfl
      · exact hfin u ht
  simp only [execQdecInitialize] at h
  rw [hrun _ h]
  split <;> rfl

theorem afterSample_spi (pin : Word) (s : State) : (s.afterSample pin).spi = s.spi := by
  simp only [State.afterSample]
  split
  · simp [afterRead_spi]
  · rfl

theorem finishPoll_spi (e : Word) (raw : BitVec 4) (count : BitVec 32) (a b : Bool) (s t : State)
    (h : finishPoll e raw count a b s = .next t) : t.spi = s.spi := by
  simp only [finishPoll] at h
  split at h
  · cases h
  · cases h; rfl

/-- Poll leaves the controller alone (R195). -/
theorem execQdecPoll_spi (e : Word) (s t : State) (h : execQdecPoll e s = .next t) : t.spi = s.spi := by
  simp only [execQdecPoll] at h
  split at h
  · split at h
    · split at h
      · cases h
        exact afterSample_spi _ s
      · rw [finishPoll_spi _ _ _ _ _ _ t h, afterSample_spi, afterSample_spi]
    · rw [finishPoll_spi _ _ _ _ _ _ t h, afterSample_spi]
  · cases h

/-- An instruction that changes the controller leaves the encoders alone (R39). -/
theorem exec_encs_of_spi_ne (i : Instr) (s t : State) (h : exec i s = .next t) (hne : t.spi ≠ s.spi) :
    t.encs = s.encs := by
  rcases exec_encs i s t h with hsame | ⟨e, a, b, rfl⟩ | ⟨e, rfl⟩
  · exact hsame
  · exact absurd (execQdecInitialize_spi e a b s t h) hne
  · exact absurd (execQdecPoll_spi e s t h) hne

/-- Settles O5: of the agents' moves only an instruction's register write reaches Transfer Active (`writeReg_ta`). -/
theorem transferActiveChangesOnlyByCsWrite : Obligations.TransferActiveChangesOnlyByCsWrite := by
  unfold Obligations.TransferActiveChangesOnlyByCsWrite
  intro s t hstep hne
  obtain ⟨-, u, hmove, rfl⟩ := (step_eq_next s t).1 hstep
  change u.spi.ta ≠ s.spi.ta at hne
  rcases moveStep_cases s u hmove with ⟨hturn, ⟨i, -, hexec⟩ | ⟨-, rfl⟩⟩ | ⟨miso, -, rfl⟩ | ⟨p, level, -, rfl⟩
  · have hencs := exec_encs_of_spi_ne i s u hexec fun hspi => hne (congrArg Spi.ta hspi)
    rcases (exec_effect i s u hexec).block with ⟨-, hspi⟩ | ⟨-, hspi⟩ | ⟨r, d, w, hw, hpins, hspi⟩
    · exact absurd (congrArg Spi.ta hspi) hne
    · exact absurd (congrArg Spi.ta hspi) hne
    · rw [hspi] at hne
      obtain ⟨rfl, hwpins, hta⟩ := writeReg_ta r d s w hw hne
      exact ⟨hturn, hpins.trans hwpins, hencs, d, w, hw, hspi, (congrArg Spi.ta hspi).trans hta⟩
  · exact absurd rfl hne
  · exact absurd (engineSpi_ta s.params miso s.spi) hne
  · exact absurd rfl hne

/-! ### The engine left alone (R153, R154) -/

/-- The engine turns that are left to DONE: two for a waiting byte, one for the byte in the shifter. -/
def turnsLeft (s : Spi) : Nat := 2 * s.txq.length + if s.shift = none then 0 else 1

/-- Every byte waiting or shifting finds room for its reply, or the policy is `drop`. -/
def RoomForReplies (p : Params) (s : Spi) : Prop :=
  p.rxFullPolicy = .drop ∨ s.rxq.length + s.txq.length + (if s.shift = none then 0 else 1) ≤ p.fifoDepth

theorem done_of_turnsLeft_eq_zero (s : Spi) (hta : s.ta = true) (h : turnsLeft s = 0) : s.done = true := by
  obtain ⟨htxq, hshift⟩ := Nat.add_eq_zero_iff.1 h
  have hnil : s.txq = [] := List.length_eq_zero_iff.1 (by omega)
  have hnone : s.shift = none := by
    by_contra hne
    rw [if_neg hne] at hshift
    cases hshift
  exact (done_iff s).2 ⟨hta, hnil, hnone⟩

/-- With room for the replies every turn brings the engine nearer to DONE, and leaves room for the replies (R154). -/
theorem engineSpi_progress (p : Params) (miso : Byte) (s : Spi) (hta : s.ta = true) (hroom : RoomForReplies p s) :
    RoomForReplies p (engineSpi p miso s) ∧ turnsLeft (engineSpi p miso s) = turnsLeft s - 1 := by
  rcases engineSpi_cases p miso s with ⟨b, c, hshift, heq⟩ | ⟨b, q, hshift, htxq, -, heq⟩ | ⟨hshift, hload, heq⟩ <;>
    rw [heq]
  · refine ⟨hroom.imp_right fun hle => ?_, ?_⟩
    · simp only [hshift, reduceCtorEq, if_false] at hle
      simp only [engineComplete, if_true]
      split
      · rw [List.length_append, List.length_singleton]; omega
      · omega
    · simp [turnsLeft, engineComplete, hshift]
  · refine ⟨hroom.imp_right fun hle => ?_, ?_⟩
    · simp only [hshift, htxq, List.length_cons, if_true] at hle
      simp only [reduceCtorEq, if_false]
      omega
    · simp only [turnsLeft, hshift, htxq, List.length_cons, reduceCtorEq, if_true, if_false]
      omega
  · have hnil : s.txq = [] := by
      by_contra hne
      refine hload ((loadEnabled_iff p s hshift hne).2 ⟨hta, fun hstall => ?_⟩)
      have hpos := List.length_pos_iff.2 hne
      rcases hroom with hdrop | hle
      · rw [hdrop] at hstall; cases hstall
      · omega
    exact ⟨hroom, by simp [turnsLeft, hnil, hshift]⟩

/-- Settles O32: by induction over the engine's turns, each of which is progress (`engineSpi_progress`). -/
theorem engineReachesDone : Obligations.EngineReachesDone := by
  unfold Obligations.EngineReachesDone
  intro p s rs hta hroom hturns
  change RoomForReplies p s at hroom
  change turnsLeft s ≤ rs.length at hturns
  induction rs generalizing s with
  | nil => exact done_of_turnsLeft_eq_zero s hta (Nat.le_zero.1 hturns)
  | cons r rs ih =>
    obtain ⟨hroom', hleft⟩ := engineSpi_progress p r s hta hroom
    exact ih (engineSpi p r s) ((engineSpi_ta p r s).trans hta) hroom' (by rw [hleft]; exact Nat.sub_le_of_le_add hturns)

/-- Settles O33: under `stall` a full RX FIFO disables the load step, so every turn leaves the controller as it is. -/
theorem fullRxFifoStallsTheEngine : Obligations.FullRxFifoStallsTheEngine := by
  unfold Obligations.FullRxFifoStallsTheEngine
  intro p s rs hstall hshift hfull htxq
  have hload : ¬ loadEnabled p s := fun ⟨_, _, _, hroom⟩ => absurd (hroom hstall) (by omega)
  have hstill : engineRun p rs s = s := by
    induction rs with
    | nil => rfl
    | cons r rs ih => rw [engineRun, engineSpi_of_idle p r s hshift hload, ih]
  rw [hstill]
  refine ⟨rfl, Bool.eq_false_iff.2 fun hdone => ?_⟩
  obtain ⟨-, hempty, -⟩ := (done_iff s).1 hdone
  exact htxq hempty

end Sys2Proof.Proofs
end

section
/-! Proofs of the statements on SPI0 (spec/41_spi0.md), the registers: what a read of CS returns, what a write of CS asks
for, and the transactions on CS, FIFO and CLK. -/

namespace Sys2Proof.Proofs

open Sys2Proof.Machine Sys2Proof.Laws

/-! ### Reading CS (R141) -/

/-- `v` is a value that a CS read returns while the controller is `x`: every field is at its position. -/
def CsRead (p : Params) (x : Spi) (v : Word) : Prop := ∀ f ∈ csFields p x, v.getLsbD f.1 = f.2

theorem csRead_readReg (s : State) (hp : s.params.wf) : CsRead s.params s.spi (s.readReg .cs) :=
  fun f hf => readReg_cs_getLsbD s hp f.1 f.2 hf

/-- A field of two bits side by side (R90). -/
theorem extractLsb'_two_eq_iff (v : Word) (k : Nat) (x : BitVec 2) :
    v.extractLsb' k 2 = x ↔ v.getLsbD k = x.getLsbD 0 ∧ v.getLsbD (k + 1) = x.getLsbD 1 := by
  constructor
  · rintro rfl
    simp
  · rintro ⟨h0, h1⟩
    refine BitVec.eq_of_getLsbD_eq fun i hi => ?_
    match i, hi with
    | 0, _ => simpa using h0
    | 1, _ => simpa using h1

/-- Settles O24: a CS read returns its fields at their positions (`csRead_readReg`), the flags as R35 defines them. -/
theorem csLoadReturnsFieldsAndFlags : Obligations.CsLoadReturnsFieldsAndFlags := by
  unfold Obligations.CsLoadReturnsFieldsAndFlags
  intro s hp
  obtain ⟨t, ht, hcompleted, hsame⟩ := loadItem_reads .cs nofun s
  refine ⟨t, s.readReg .cs, ht, hcompleted, hsame, ?_⟩
  rintro c rfl
  have hread := csRead_readReg s hp
  simp only [CsRead, csFields, List.forall_mem_cons, List.not_mem_nil, false_implies, implies_true, and_true] at hread
  obtain ⟨hcs0, hcs1, hcpha, hcpol, htx, hrx, hcspol, hta, hdmaen, hintd, hintr, hadcs, hrenb, hlen, hlmono, hteEn, hdone,
    hrxd, htxd, hrxr, hrxf, hcspol0, hcspol1, hcspol2, hdmaLen, hlenLong⟩ := hread
  refine ⟨(extractLsb'_two_eq_iff _ _ _).2 ⟨hcs0, hcs1⟩, hcpha, hcpol, hcspol, hta, hrenb, hcspol0, hcspol1, hcspol2, htx,
    hrx, ?_, hdone ▸ done_iff _, hrxd ▸ rxd_iff _, htxd ▸ txd_iff _ _, hrxr ▸ rxr_iff _ _, hrxf ▸ rxf_iff _ _⟩
  simp only [List.forall_mem_cons, List.not_mem_nil, false_implies, implies_true, and_true]
  exact ⟨hdmaen, hintd, hintr, hadcs, hlen, hlmono, hteEn, hdmaLen, hlenLong⟩

/-! ### Writing CS (R142) -/

/-- The data of a CS write asks for the stored fields of `x` and for these FIFO clears, and for no refused field. -/
structure CsRequest (c : CsPositions) (d : Word) (x : Spi) (tx rx : Bool) : Prop where
  stored : storeCs c d x = x
  refused : ((refusedBits c).any fun i => d.getLsbD i) = false
  clearTx : d.getLsbD c.clearTx = tx
  clearRx : d.getLsbD c.clearRx = rx

theorem CsRequest.cs {c : CsPositions} {d : Word} {x : Spi} {tx rx : Bool} (h : CsRequest c d x tx rx) :
    d.extractLsb' c.cs 2 = x.cs := congrArg Spi.cs h.stored

theorem CsRequest.ta {c : CsPositions} {d : Word} {x : Spi} {tx rx : Bool} (h : CsRequest c d x tx rx) :
    d.getLsbD c.ta = x.ta := congrArg Spi.ta h.stored

theorem CsRequest.not_refused {c : CsPositions} {d : Word} {x : Spi} {tx rx : Bool} (h : CsRequest c d x tx rx)
    (hcs : x.cs ≠ 3) : ¬ csRefused c d := by
  rw [csRefused, h.cs, h.refused]
  exact fun hor => hor.elim hcs nofun

theorem refusedBits_any_eq_false (c : CsPositions) (d : Word) :
    ((refusedBits c).any fun i => d.getLsbD i) = false ↔ ∀ i ∈ refusedBits c, d.getLsbD i.val = false := by
  simp only [List.any_eq_false, Bool.not_eq_true]

/-- A request that no stop turns away is granted: the controller has the fields asked for, and the FIFOs named are empty
(R142, R143).  `x` is the controller with other stored fields. -/
theorem writeCs_of_request (d : Word) (s : State) (x : Spi) (tx rx : Bool)
    (hreq : CsRequest s.params.csBits d x tx rx) (hx : storeCs s.params.csBits d s.spi = storeCs s.params.csBits d x)
    (hcs : x.cs ≠ 3) (hclear : tx = true ∨ rx = true → s.spi.shift = none)
    (hta : s.spi.ta = true → x.ta = false → (tx = true ∨ s.spi.txq = []) ∧ s.spi.shift = none) :
    writeCs d s = .next (s.setSpi (clearFifos tx rx x)) := by
  refine (writeCs_eq_next d s _).2 ⟨hreq.not_refused hcs, ?_, ?_, ?_⟩
  · rintro ⟨hor, hshift⟩
    rw [hreq.clearTx, hreq.clearRx] at hor
    exact hshift (hclear hor)
  · rintro ⟨hactive, hoff, hwait⟩
    rw [hreq.ta] at hoff
    obtain ⟨htxq, hshift⟩ := hta hactive hoff
    rcases hwait with hwait | hwait
    · refine hwait (ite_eq_left_iff.2 fun hkeep => ?_)
      rw [hreq.clearTx] at hkeep
      exact htxq.resolve_left hkeep
    · exact hwait hshift
  · have hswap : storeCs s.params.csBits d (csCleared s.params.csBits d s.spi)
        = csCleared s.params.csBits d (storeCs s.params.csBits d s.spi) := rfl
    rw [hswap, hx, hreq.stored, csCleared, hreq.clearTx, hreq.clearRx]

/-- A CLEAR bit while a byte is in the shifter (R142). -/
theorem writeCs_clearDuringShift (d : Word) (s : State) (hok : ¬ csRefused s.params.csBits d)
    (hclear : csClearsShift s.params.csBits d s.spi) : writeCs d s = .fault (.clearDuringShift d s.spi.shift) := by
  rw [writeCs, if_neg hok, if_pos hclear]

/-- Without a TX clear, Transfer Active off while a byte waits (R142). -/
theorem writeCs_taCleared (d : Word) (s : State) (hok : ¬ csRefused s.params.csBits d)
    (htx : d.getLsbD s.params.csBits.clearTx = false)
    (hrx : d.getLsbD s.params.csBits.clearRx = false ∨ s.spi.shift = none) (hactive : s.spi.ta = true)
    (hoff : d.getLsbD s.params.csBits.ta = false) (hwait : s.spi.txq ≠ [] ∨ s.spi.shift ≠ none) :
    writeCs d s = .fault (.taClearedMidTransfer d s.spi.txq.length s.spi.shift) := by
  have hclear : ¬ csClearsShift s.params.csBits d s.spi := by
    rintro ⟨hor, hshift⟩
    rw [htx] at hor
    rcases hrx with hrx | hrx
    · rw [hrx] at hor; simp at hor
    · exact hshift hrx
  have htxq : (csCleared s.params.csBits d s.spi).txq = s.spi.txq := by
    simp only [csCleared, clearFifos, htx, Bool.false_eq_true, if_false]
  have habort : csAborts s.params.csBits d (csCleared s.params.csBits d s.spi) :=
    ⟨hactive, hoff, by rw [htxq]; exact hwait⟩
  rw [writeCs, if_neg hok, if_neg hclear, if_pos habort, htxq]
  rfl

/-- A program's write that changes the controller alone completes its item. -/
theorem storeItem_of_setSpi (r : Dst) (d : Word) (s : State) (x : Spi) (hw : writeReg r d s = .next (s.setSpi x)) :
    ∃ t, storeItem r d s = .next t ∧ Completed s t none ∧ OnlySpi s t ∧ t.draws = s.draws ∧ t.spi = x :=
  ⟨(s.setSpi x).finish none, by rw [storeItem, hw, andThen_next], rfl, ⟨rfl, rfl, rfl, rfl, rfl⟩, rfl, rfl⟩

/-- Settles O25: data that no stop turns away asks for its own fields (`writeCs_of_request`). -/
theorem csStoreStoresFields : Obligations.CsStoreStoresFields := by
  unfold Obligations.CsStoreStoresFields
  rintro s d c rfl hcs hrefused hshift htxq
  refine storeItem_of_setSpi .cs d s _ (writeCs_of_request d s (storeCs s.params.csBits d s.spi) _ _
    ⟨rfl, (refusedBits_any_eq_false _ d).2 hrefused, rfl, rfl⟩ rfl hcs (fun hclear => ?_) fun hta hoff => ?_)
  · rcases hshift with hnone | ⟨htx, hrx, -⟩
    · exact hnone
    · rw [htx, hrx] at hclear; simp at hclear
  · change d.getLsbD s.params.csBits.ta = false at hoff
    refine ⟨?_, hshift.resolve_right ?_⟩
    · cases htx : d.getLsbD s.params.csBits.clearTx with
      | true => exact .inl rfl
      | false => exact .inr (htxq hta hoff htx)
    · rintro ⟨-, -, hon⟩
      rw [hon hta] at hoff
      cases hoff

/-- Settles O26: the three tests of `writeCs` in their order. -/
theorem csStoreStopsInOrder : Obligations.CsStoreStopsInOrder := by
  unfold Obligations.CsStoreStopsInOrder
  rintro s d c rfl
  have hexec : exec (.stSpiCs d) s = andThen (writeCs d s) fun t => .next (t.finish none) := rfl
  simp only [hexec]
  refine ⟨fun hrefused => ?_, ?_⟩
  · have hbad : csRefused s.params.csBits d := by
      refine hrefused.imp_right fun ⟨i, hi, hd⟩ => List.any_eq_true.2 ⟨i, hi, hd⟩
    rw [writeCs, if_pos hbad, andThen_refused]
  · rintro ⟨hcs, hrefused⟩
    have hok : ¬ csRefused s.params.csBits d := by
      rw [csRefused, (refusedBits_any_eq_false _ d).2 hrefused]
      exact fun hor => hor.elim hcs nofun
    refine ⟨fun hclear => ?_, ?_⟩
    · rw [writeCs_clearDuringShift d s hok hclear, andThen_fault]
    · rintro ⟨htx, hrx, hactive, hoff, hwait⟩
      rw [writeCs_taCleared d s hok htx hrx hactive hoff hwait, andThen_fault]

/-! ### FIFO and CLK (R146 to R149) -/

/-- A FIFO read's value has the front of the RX FIFO at the place of the data byte (R146). -/
theorem readReg_fifo_data (s : State) (b : Byte) (q : List Byte) (hrxq : s.spi.rxq = b :: q) :
    (s.readReg .fifo).extractLsb' s.params.spi0Layout.fifoData 8 = b := by
  refine BitVec.eq_of_getLsbD_eq fun i hi => ?_
  have hlt : s.params.spi0Layout.fifoData + i < 32 := by omega
  rw [BitVec.getLsbD_extractLsb', decide_eq_true hi, Bool.true_and, readReg_getLsbD s _ _ hlt]
  exact fifoBit_data _ _ _ b q i hrxq hi

/-- A CLK read's value has the divider at its place (R149). -/
theorem readReg_clk_cdiv (s : State) : (s.readReg .clk).extractLsb' s.params.spi0Layout.cdiv 16 = s.spi.cdiv := by
  refine BitVec.eq_of_getLsbD_eq fun i hi => ?_
  have hlt : s.params.spi0Layout.cdiv + i < 32 := by omega
  rw [BitVec.getLsbD_extractLsb', decide_eq_true hi, Bool.true_and, readReg_getLsbD s _ _ hlt]
  exact clkBit_cdiv _ _ _ i hi

/-- Settles O27: the value by `readReg_fifo_data`, the controller by `popRx`. -/
theorem fifoLoadPopsFront : Obligations.FifoLoadPopsFront := by
  unfold Obligations.FifoLoadPopsFront
  refine fun s => ⟨_, s.readReg .fifo, rfl, rfl, ⟨rfl, rfl, rfl, rfl, rfl⟩, fun b q hrxq => ⟨?_, ?_⟩, fun hnil => ?_⟩
  · exact readReg_fifo_data s b q hrxq
  · change popRx s.spi = _
    rw [popRx, hrxq, List.tail_cons]
  · change popRx s.spi = _
    rw [popRx, hnil, List.tail_nil, ← hnil]

/-- A FIFO write with TA = 1 and room (R147). -/
theorem writeFifo_push (d : Word) (s : State) (hta : s.spi.ta = true) (hroom : s.spi.txq.length ≠ s.params.fifoDepth) :
    writeFifo d s = .next (s.setSpi { s.spi with txq := s.spi.txq ++ [fifoByte s.params.spi0Layout d] }) :=
  (writeFifo_eq_next d s _).2 ⟨hta, hroom, rfl⟩

theorem writeFifo_idle (d : Word) (s : State) (hta : s.spi.ta = false) :
    writeFifo d s = .refused (.fifoWriteWhileIdle d) := by
  rw [writeFifo, if_pos hta]

theorem writeFifo_full (d : Word) (s : State) (hta : s.spi.ta = true) (hfull : s.spi.txq.length = s.params.fifoDepth) :
    writeFifo d s = .fault (.txOverflow (fifoByte s.params.spi0Layout d)) := by
  rw [writeFifo, hta, if_neg nofun, if_pos hfull]

/-- Settles O28: the three cases of a FIFO write. -/
theorem fifoStorePushesByte : Obligations.FifoStorePushesByte := by
  unfold Obligations.FifoStorePushesByte
  intro s d
  have hexec : exec (.stSpiFifo d) s = andThen (writeFifo d s) fun t => .next (t.finish none) := rfl
  refine ⟨fun hta => ?_, fun hta hfull => ?_, fun hta hroom => ?_⟩
  · rw [hexec, writeFifo_idle d s hta, andThen_refused]
  · rw [hexec, writeFifo_full d s hta hfull, andThen_fault]
    rfl
  · exact storeItem_of_setSpi .fifo d s _ (writeFifo_push d s hta hroom)

/-- Settles O29: a CLK write stores its field, SetClockDivider is one such write of its argument (`writeClk_clkData`), and
a CLK read returns the divider (`readReg_clk_cdiv`). -/
theorem clockDividerIsStoredAndRead : Obligations.ClockDividerIsStoredAndRead := by
  unfold Obligations.ClockDividerIsStoredAndRead
  intro s d div
  refine ⟨storeItem_of_setSpi .clk d s _ rfl, ?_, fun hpos => ?_⟩
  · obtain ⟨t, ht, hdone, hsame⟩ := loadItem_reads .clk nofun s
    exact ⟨t, _, ht, hdone, hsame, readReg_clk_cdiv s⟩
  · have hexec : exec (.setClockDivider div) s = storeItem .clk (clkData s.params.spi0Layout div) s :=
      runScript_last_store _ s _ _ (by rw [hpos]; rfl) (by rw [hpos]; rfl)
    rw [hexec]
    refine storeItem_of_setSpi .clk _ s _ ?_
    rw [writeReg, writeClk_clkData]

end Sys2Proof.Proofs
end

section
/-! Proofs of the statements on SPI0 (spec/41_spi0.md), read-modify-writes of CS: the fields that `CS | m` and `CS & ~m`
ask for, and what granting them does. -/

namespace Sys2Proof.Proofs

open Sys2Proof.Machine Sys2Proof.Laws

/-! ### The masks of R90 at the positions of the fields -/

/-- Of the bits that the fields of CS take up, in the order of `CsPositions.list`, the word `m` has exactly these. -/
def CsMask (c : CsPositions) (m : Word) (js : List Nat) : Prop :=
  ∀ j i, c.list[j]? = some i → m.getLsbD i = js.contains j

theorem wf_csPositions (p : Params) (hp : p.wf) : p.csBits.list.Nodup := by
  obtain ⟨-, -, hnodup⟩ := hp
  exact hnodup

theorem csPositions_lt (c : CsPositions) : ∀ i ∈ c.list, i < 32 := by
  simp only [CsPositions.list, List.forall_mem_cons, List.not_mem_nil, false_implies, implies_true, and_true]
  omega

theorem csMask_zero (c : CsPositions) : CsMask c 0 [] := fun _ _ _ => BitVec.getLsbD_zero

/-- In a well-formed layout the mask of one bit of a field has that bit alone. -/
theorem csMask_bit (c : CsPositions) (hc : c.list.Nodup) (k b : Nat) (hk : c.list[k]? = some b) :
    CsMask c (1#32 <<< b) [k] := by
  intro j i hj
  obtain ⟨hlt, rfl⟩ := List.getElem?_eq_some_iff.1 hj
  obtain ⟨hlt', rfl⟩ := List.getElem?_eq_some_iff.1 hk
  have hbit : (1#32 <<< c.list[k]).getLsbD c.list[j] = (decide (c.list[k] < 32) && decide (c.list[k] = c.list[j])) :=
    BitVec.getLsbD_twoPow _ _
  rw [hbit, decide_eq_true (csPositions_lt c _ (List.getElem_mem hlt')), Bool.true_and]
  simp only [hc.getElem_inj_iff, List.contains_cons, List.contains_nil, Bool.or_false]
  exact Bool.decide_congr eq_comm

theorem csMask_or (c : CsPositions) (m m' : Word) (js js' : List Nat) (h : CsMask c m js) (h' : CsMask c m' js') :
    CsMask c (m ||| m') (js ++ js') := by
  intro j i hj
  rw [BitVec.getLsbD_or, h j i hj, h' j i hj, List.contains_append]

theorem csMask_taBit (c : CsPositions) (hc : c.list.Nodup) : CsMask c (taBit c) [7] := csMask_bit c hc 7 c.ta rfl

theorem csMask_clearBoth (c : CsPositions) (hc : c.list.Nodup) : CsMask c (clearBoth c) [4, 5] :=
  csMask_or c _ _ [4] [5] (csMask_bit c hc 4 c.clearTx rfl) (csMask_bit c hc 5 c.clearRx rfl)

theorem csMask_csMask (c : CsPositions) (hc : c.list.Nodup) : CsMask c (csMask c) [0, 1] := by
  have hboth : csMask c = 1#32 <<< c.cs.val ||| 1#32 <<< (c.cs.val + 1) := by
    rw [Nat.add_comm, BitVec.shiftLeft_add, ← BitVec.shiftLeft_or_distrib]
    rfl
  rw [hboth]
  exact csMask_or c _ _ [0] [1] (csMask_bit c hc 0 c.cs rfl) (csMask_bit c hc 1 (c.cs + 1) rfl)

/-- The chip selects that SetChipSelect admits, in the field's place (R165). -/
theorem csMask_csField_zero (c : CsPositions) : CsMask c (csField c 0) [] := by
  have hzero : csField c 0 = 0 := BitVec.zero_shiftLeft _
  rw [hzero]
  exact csMask_zero c

theorem csMask_csField_one (c : CsPositions) (hc : c.list.Nodup) : CsMask c (csField c 1) [0] :=
  csMask_bit c hc 0 c.cs rfl

/-! ### What the merged word asks for -/

/-- The bits of a CS write that asks for the stored fields of `y` and these FIFO clears, in the order of
`CsPositions.list`; the status bits, which a write ignores, as `x` has them. -/
def csRequestBits (p : Params) (x y : Spi) (tx rx : Bool) : List Bool :=
  [y.cs.getLsbD 0, y.cs.getLsbD 1, y.cpha, y.cpol, tx, rx, y.cspol, y.ta, false, false, false, false, y.renb,
   false, false, false, x.done, x.rxd, x.txd p, x.rxr p, x.rxf p, y.cspol0, y.cspol1, y.cspol2, false, false]

theorem csRequest_of_bits (p : Params) (x y : Spi) (tx rx : Bool) (d : Word)
    (h : p.csBits.list.map d.getLsbD = csRequestBits p x y tx rx) : CsRequest p.csBits d y tx rx := by
  simp only [CsPositions.list, csRequestBits, List.map_cons, List.map_nil, List.cons.injEq, and_true] at h
  obtain ⟨hcs0, hcs1, hcpha, hcpol, htx, hrx, hcspol, hta, hdmaen, hintd, hintr, hadcs, hrenb, hlen, hlmono, hteEn, -,
    -, -, -, -, hcspol0, hcspol1, hcspol2, hdmaLen, hlenLong⟩ := h
  refine ⟨?_, ?_, htx, hrx⟩
  · rw [storeCs, (extractLsb'_two_eq_iff d _ y.cs).2 ⟨hcs0, hcs1⟩, hcpha, hcpol, hcspol, hta, hrenb, hcspol0, hcspol1,
      hcspol2]
  · rw [refusedBits_any_eq_false]
    simp only [refusedBits, List.forall_mem_cons, List.not_mem_nil, false_implies, implies_true, and_true]
    exact ⟨hdmaen, hintd, hintr, hadcs, hlen, hlmono, hteEn, hdmaLen, hlenLong⟩

/-- The fields of a CS read `(v & ~clr) | set` (R99): those of the masks set or cleared, the others as read. -/
theorem csRequest_merge (p : Params) (x y : Spi) (v clr set : Word) (js ks : List Nat) (tx rx : Bool)
    (hv : CsRead p x v) (hclr : CsMask p.csBits clr js) (hset : CsMask p.csBits set ks)
    (h : ((csFields p x).zipIdx.map fun f => ks.contains f.2 || (!js.contains f.2 && f.1.2))
      = csRequestBits p x y tx rx) : CsRequest p.csBits (merge v clr set) y tx rx := by
  refine csRequest_of_bits p x y tx rx _ (Eq.trans ?_ h)
  refine List.ext_getElem? fun j => ?_
  rw [← csFields_fst p x, List.getElem?_map, List.getElem?_map, List.getElem?_map, List.getElem?_zipIdx]
  cases hf : (csFields p x)[j]? with
  | none => rfl
  | some f =>
    have hpos : p.csBits.list[j]? = some f.1 := by rw [← csFields_fst p x, List.getElem?_map, hf, Option.map_some]
    simp only [Option.map_some, getLsbD_merge, hv f (List.mem_of_getElem? hf), hclr j _ hpos, hset j _ hpos,
      csPositions_lt _ _ (List.mem_of_getElem? hpos), decide_true, Bool.true_and, Nat.zero_add, Bool.or_comm,
      Bool.and_comm]

/-- `CS | CLEAR_BOTH` (R90, R166). -/
theorem csRequest_clearBoth (p : Params) (hp : p.wf) (x : Spi) (v : Word) (hv : CsRead p x v) :
    CsRequest p.csBits (merge v 0 (clearBoth p.csBits)) x true true :=
  csRequest_merge p x x v _ _ [] [4, 5] true true hv (csMask_zero _) (csMask_clearBoth _ (wf_csPositions _ hp)) rfl

/-- `CS | TA_BIT` (R90, R166). -/
theorem csRequest_setTa (p : Params) (hp : p.wf) (x : Spi) (v : Word) (hv : CsRead p x v) :
    CsRequest p.csBits (merge v 0 (taBit p.csBits)) { x with ta := true } false false :=
  csRequest_merge p x _ v _ _ [] [7] false false hv (csMask_zero _) (csMask_taBit _ (wf_csPositions _ hp)) rfl

/-- `CS & ~TA_BIT` (R90, R169). -/
theorem csRequest_clearTa (p : Params) (hp : p.wf) (x : Spi) (v : Word) (hv : CsRead p x v) :
    CsRequest p.csBits (merge v (taBit p.csBits) 0) { x with ta := false } false false :=
  csRequest_merge p x _ v _ _ [7] [] false false hv (csMask_taBit _ (wf_csPositions _ hp)) (csMask_zero _) rfl

/-- `(CS & ~CS_MASK) | cs` (R90, R165). -/
theorem csRequest_select (p : Params) (hp : p.wf) (x : Spi) (v cs : Word) (hcs : cs = 0 ∨ cs = 1) (hv : CsRead p x v) :
    CsRequest p.csBits (merge v (csMask p.csBits) (csField p.csBits cs)) { x with cs := cs.setWidth 2 } false false := by
  have hmask := csMask_csMask _ (wf_csPositions _ hp)
  rcases hcs with rfl | rfl
  · exact csRequest_merge p x _ v _ _ [0, 1] [] false false hv hmask (csMask_csField_zero _)
      (by simp [csFields, csRequestBits])
  · exact csRequest_merge p x _ v _ _ [0, 1] [0] false false hv hmask (csMask_csField_one _ (wf_csPositions _ hp))
      (by simp [csFields, csRequestBits])

/-! ### What granting them does -/

/-- R166: `CS | CLEAR_BOTH` empties both FIFOs, with an empty shifter. -/
theorem writeCs_clearBoth (s : State) (v : Word) (hp : s.params.wf) (hv : CsRead s.params s.spi v) (hcs : s.spi.cs ≠ 3)
    (hshift : s.spi.shift = none) :
    writeCs (merge v 0 (clearBoth s.params.csBits)) s = .next (s.setSpi { s.spi with txq := [], rxq := [] }) :=
  writeCs_of_request _ s s.spi true true (csRequest_clearBoth _ hp _ v hv) rfl hcs (fun _ => hshift)
    fun _ _ => ⟨.inl rfl, hshift⟩

/-- R237: with a byte in the shifter it stops. -/
theorem writeCs_clearBoth_shifting (s : State) (v : Word) (hp : s.params.wf) (hv : CsRead s.params s.spi v)
    (hcs : s.spi.cs ≠ 3) (hshift : s.spi.shift ≠ none) :
    writeCs (merge v 0 (clearBoth s.params.csBits)) s
      = .fault (.clearDuringShift (merge v 0 (clearBoth s.params.csBits)) s.spi.shift) := by
  have hreq := csRequest_clearBoth _ hp _ v hv
  exact writeCs_clearDuringShift _ s (hreq.not_refused hcs) ⟨.inl hreq.clearTx, hshift⟩

/-- R166, R171: `CS | TA_BIT` asserts Transfer Active. -/
theorem writeCs_setTa (s : State) (v : Word) (hp : s.params.wf) (hv : CsRead s.params s.spi v) (hcs : s.spi.cs ≠ 3) :
    writeCs (merge v 0 (taBit s.params.csBits)) s = .next (s.setSpi { s.spi with ta := true }) :=
  writeCs_of_request _ s _ false false (csRequest_setTa _ hp _ v hv) rfl hcs nofun nofun

/-- R169, R171: `CS & ~TA_BIT` clears Transfer Active, while Idle or Done. -/
theorem writeCs_clearTa (s : State) (v : Word) (hp : s.params.wf) (hv : CsRead s.params s.spi v) (hcs : s.spi.cs ≠ 3)
    (hidle : s.spi.ta = true → s.spi.txq = [] ∧ s.spi.shift = none) :
    writeCs (merge v (taBit s.params.csBits) 0) s = .next (s.setSpi { s.spi with ta := false }) :=
  writeCs_of_request _ s _ false false (csRequest_clearTa _ hp _ v hv) rfl hcs nofun
    fun hta _ => (hidle hta).imp_left .inr

/-- R165: the chip-select field alone changes, whether or not a transfer is active (R172). -/
theorem writeCs_select (s : State) (v cs : Word) (hp : s.params.wf) (hv : CsRead s.params s.spi v)
    (hcs : cs = 0 ∨ cs = 1) :
    writeCs (merge v (csMask s.params.csBits) (csField s.params.csBits cs)) s
      = .next (s.setSpi { s.spi with cs := cs.setWidth 2 }) := by
  refine writeCs_of_request _ s _ false false (csRequest_select _ hp _ v cs hcs hv) rfl ?_ nofun fun hta hoff => ?_
  · change cs.setWidth 2 ≠ 3
    rcases hcs with rfl | rfl <;> decide
  · change s.spi.ta = false at hoff
    rw [hta] at hoff
    cases hoff

end Sys2Proof.Proofs
end

section
/-! Proofs of the statements on SPI0 (spec/41_spi0.md), the scripted operations left alone: which transactions run, and
what each operation leaves of the controller. -/

namespace Sys2Proof.Proofs

open Sys2Proof.Machine Sys2Proof.Laws

/-! ### Running a script -/

/-- The transactions `acts`, each of which the operation gets past, took `s` to `t`. -/
inductive Ran : List Act → State → State → Prop
  | nil (s : State) : Ran [] s s
  | cons (a : Act) (as : List Act) (s u t : State) (hact : doAct a s = .next u) (hpos : u.host.pos = s.host.pos + 1)
      (hrest : Ran as u t) : Ran (a :: as) s t

theorem Ran.append {as bs : List Act} {s u t : State} (h : Ran as s u) (h' : Ran bs u t) : Ran (as ++ bs) s t := by
  induction h with
  | nil => exact h'
  | cons a as s w u hact hpos _ ih => exact .cons a _ s w t hact hpos (ih h')

/-- A transaction leaves the item going on (R21). -/
theorem doAct_ongoing (a : Act) (s u : State) (h : doAct a s = .next u) : Ongoing s u := by
  have hwrite (r : Dst) (d : Word) (h : andThen (writeReg r d s) (fun w => .next w.advance) = .next u) : Ongoing s u := by
    obtain ⟨w, hw, hu⟩ := andThen_eq_next _ _ _ h
    obtain ⟨-, -, hhost, -⟩ := writeReg_frame r d s w hw
    cases hu
    simp [Ongoing, hhost]
  cases a with
  | load r => cases h; simp [Ongoing]
  | modify r clr set => exact hwrite r _ h
  | store r d => exact hwrite r d h
  | wait c =>
    simp only [doAct] at h
    split at h <;> cases h <;> simp [Ongoing]
  | take => cases h; simp [Ongoing]

theorem ongoing_trans (s u t : State) (hu : Ongoing s u) (ht : Ongoing u t) : Ongoing s t := by
  obtain ⟨u1, u2, u3⟩ := hu
  obtain ⟨t1, t2, t3⟩ := ht
  exact ⟨t1.trans u1, t2.trans u2, t3.trans u3⟩

/-- What no transaction of an operation reaches (R13), and where the operation then is. -/
theorem Ran.frame {acts : List Act} {s t : State} (h : Ran acts s t) :
    t.params = s.params ∧ t.encs = s.encs ∧ t.stop = s.stop ∧ t.turn = s.turn ∧ Ongoing s t
      ∧ t.host.pos = s.host.pos + acts.length := by
  induction h with
  | nil s => exact ⟨rfl, rfl, rfl, rfl, ⟨rfl, rfl, rfl⟩, rfl⟩
  | cons a as s u t hact hpos _ ih =>
    obtain ⟨hparams, hencs, hstop, hturn, hon, hend⟩ := ih
    obtain ⟨e, hu⟩ := doAct_effect a s u hact
    refine ⟨hparams.trans e.params, hencs.trans hu, hstop.trans e.stop, hturn.trans e.turn,
      ongoing_trans s u t (doAct_ongoing a s u hact) hon, ?_⟩
    rw [hend, hpos, List.length_cons]
    omega

/-- After `mid` the script is at what follows it. -/
theorem Ran.drop {acts mid post : List Act} {s t : State} (h : Ran mid s t)
    (hdrop : acts.drop s.host.pos = mid ++ post) : acts.drop t.host.pos = post := by
  obtain ⟨-, -, -, -, -, hpos⟩ := h.frame
  rw [hpos, ← List.drop_drop, hdrop, List.drop_left]

/-- The operation `i` runs these transactions and then completes, under these parameters. -/
def Scripted (i : Instr) (p : Params) (acts : List Act) (fin : State → Outcome) : Prop :=
  ∀ u : State, u.params = p → exec i u = runScript acts fin u

/-- The transaction that `drop` finds first is the next one. -/
theorem getElem?_of_drop {acts : List Act} {k : Nat} {a : Act} {rest : List Act} (h : acts.drop k = a :: rest) :
    acts[k]? = some a := by
  rw [← List.head?_drop, h, List.head?_cons]

/-- One transaction that the operation gets past: it goes on if there are more. -/
theorem runScript_step (acts : List Act) (fin : State → Outcome) (s u : State) (a : Act) (rest : List Act)
    (hdrop : acts.drop s.host.pos = a :: rest) (hact : doAct a s = .next u) (hpos : u.host.pos = s.host.pos + 1) :
    runScript acts fin s = if rest = [] then fin u else .next u := by
  have ha := getElem?_of_drop hdrop
  have hrest : acts.drop u.host.pos = rest := by rw [hpos, ← List.tail_drop, hdrop, List.tail_cons]
  split
  · next hnil => exact runScript_last acts fin s u a ha hact (List.drop_eq_nil_iff.1 (hrest.trans hnil))
  · next hne =>
    refine runScript_mid acts fin s u a ha hact (Nat.lt_of_not_le fun hle => hne ?_)
    rw [← hrest, List.drop_eq_nil_of_le hle]

/-- A transaction that stops, at its place in the script. -/
theorem exec_faults {i : Instr} {acts post : List Act} {fin : State → Outcome} {a : Act} {s : State} {f : Fault}
    (hs : Scripted i s.params acts fin) (hdrop : acts.drop s.host.pos = a :: post) (hact : doAct a s = .fault f) :
    exec i s = .fault f :=
  (hs s rfl).trans (runScript_fault acts fin s a f (getElem?_of_drop hdrop) hact)

theorem exec_refuses {i : Instr} {acts post : List Act} {fin : State → Outcome} {a : Act} {s : State} {r : Refusal}
    (hs : Scripted i s.params acts fin) (hdrop : acts.drop s.host.pos = a :: post) (hact : doAct a s = .refused r) :
    exec i s = .refused r :=
  (hs s rfl).trans (runScript_refused acts fin s a r (getElem?_of_drop hdrop) hact)

theorem execN_one (i : Instr) (s : State) : execN 1 i s = exec i s := by
  rw [execN_succ]
  cases exec i s <;> rfl

/-- The transactions `mid` of a script, left alone; after the last one of the script it completes in the same step
(R13). -/
theorem execN_of_ran (i : Instr) (acts mid post : List Act) (fin : State → Outcome) (s t : State)
    (hs : Scripted i s.params acts fin) (hran : Ran mid s t) (hdrop : acts.drop s.host.pos = mid ++ post)
    (hne : mid ≠ []) :
    execN mid.length i s = if post = [] then fin t else .next t := by
  induction hran with
  | nil => exact absurd rfl hne
  | cons a as s u t hact hpos hrest ih =>
    have hstep := runScript_step acts fin s u a (as ++ post) hdrop hact hpos
    rw [← hs s rfl] at hstep
    cases as with
    | nil =>
      cases hrest
      exact (execN_one i s).trans hstep
    | cons b bs =>
      obtain ⟨hparams, -⟩ := (Ran.cons a [] s u u hact hpos (.nil u)).frame
      rw [List.length_cons, execN_succ, hstep, if_neg (List.append_ne_nil_of_left_ne_nil (List.cons_ne_nil b bs) post),
        andThen_next]
      refine ih (hparams ▸ hs) ?_ (List.cons_ne_nil _ _)
      rw [hpos, ← List.tail_drop, hdrop, List.cons_append, List.tail_cons]

/-! ### Transactions on the controller -/

theorem onlySpi_trans (s u t : State) (hu : OnlySpi s u) (ht : OnlySpi u t) : OnlySpi s t := by
  obtain ⟨u1, u2, u3, u4, u5⟩ := hu
  obtain ⟨t1, t2, t3, t4, t5⟩ := ht
  exact ⟨t1.trans u1, t2.trans u2, t3.trans u3, t4.trans u4, t5.trans u5⟩

/-- The transactions `acts` took `s` to `t` and left of the block all but the controller, which is then `x`. -/
structure RanSpi (acts : List Act) (s t : State) (x : Spi) : Prop where
  ran : Ran acts s t
  pins : t.pins = s.pins
  spi : t.spi = x

section
variable {as bs : List Act} {s u t : State} {x y : Spi}

theorem RanSpi.append (h : RanSpi as s u x) (h' : RanSpi bs u t y) : RanSpi (as ++ bs) s t y :=
  ⟨h.ran.append h'.ran, h'.pins.trans h.pins, h'.spi⟩

theorem RanSpi.ongoing (h : RanSpi as s t x) : Ongoing s t := by
  obtain ⟨-, -, -, -, hon, -⟩ := h.ran.frame
  exact hon

theorem RanSpi.params (h : RanSpi as s t x) : t.params = s.params := by
  obtain ⟨hparams, -⟩ := h.ran.frame
  exact hparams

theorem RanSpi.pos (h : RanSpi as s t x) : t.host.pos = s.host.pos + as.length := by
  obtain ⟨-, -, -, -, -, hpos⟩ := h.ran.frame
  exact hpos

theorem RanSpi.onlySpi (h : RanSpi as s t x) : OnlySpi s t := by
  obtain ⟨hparams, hencs, hstop, hturn, -⟩ := h.ran.frame
  exact ⟨hparams, h.pins, hencs, hstop, hturn⟩

theorem RanSpi.blockSame (h : RanSpi as s t s.spi) : BlockSame s t := by
  obtain ⟨hparams, hpins, hencs, hstop, hturn⟩ := h.onlySpi
  exact ⟨hparams, hpins, h.spi, hencs, hstop, hturn⟩

/-- After running `as` from its start the operation comes to `rest`. -/
theorem RanSpi.drop {acts rest : List Act} (h : RanSpi as s u x) (hpos : s.host.pos = 0) (hacts : acts = as ++ rest) :
    acts.drop u.host.pos = rest := by
  exact h.ran.drop (by rw [hpos, hacts, List.drop_zero])

/-- The operation has run `as` from its start and runs `bs`, with more to come. -/
theorem RanSpi.goesOn {i : Instr} {acts : List Act} {fin : State → Outcome} (post : List Act)
    (hs : Scripted i s.params acts fin) (hpos : s.host.pos = 0) (h : RanSpi as s u x) (h' : RanSpi bs u t y)
    (hacts : acts = as ++ (bs ++ post)) (hne : bs ≠ []) (hpost : post ≠ []) : execN bs.length i u = .next t := by
  rw [execN_of_ran i acts bs post fin u t (h.params ▸ hs) h'.ran (h.drop hpos hacts) hne, if_neg hpost]

/-- What is left of the operation is `bs`: it runs them and completes. -/
theorem RanSpi.finishes {i : Instr} {acts : List Act} {ret : State → Option Ret}
    (hs : Scripted i u.params acts fun w => .next (w.finish (ret w))) (hdrop : acts.drop u.host.pos = bs)
    (h : RanSpi bs u t y) (hne : bs ≠ []) :
    execN bs.length i u = .next (t.finish (ret t)) ∧ Completed u (t.finish (ret t)) (ret t)
      ∧ OnlySpi u (t.finish (ret t)) ∧ (t.finish (ret t)).spi = y := by
  have hrun := execN_of_ran i acts bs [] _ u t hs h.ran (hdrop.trans (List.append_nil bs).symm) hne
  exact ⟨hrun.trans (if_pos rfl), completed_of_ongoing u t _ _ h.ongoing rfl, h.onlySpi, h.spi⟩

/-- The operation has run `as` from its start, runs `bs`, and completes. -/
theorem RanSpi.completes {i : Instr} {acts : List Act} {ret : State → Option Ret}
    (hs : Scripted i s.params acts fun w => .next (w.finish (ret w))) (hpos : s.host.pos = 0) (h : RanSpi as s u x)
    (h' : RanSpi bs u t y) (hacts : acts = as ++ bs) (hne : bs ≠ []) :
    execN bs.length i u = .next (t.finish (ret t)) ∧ Completed s (t.finish (ret t)) (ret t)
      ∧ OnlySpi s (t.finish (ret t)) ∧ (t.finish (ret t)).spi = y := by
  obtain ⟨hrun, hdone, honly, hspi⟩ := h'.finishes (h.params ▸ hs) (h.drop hpos hacts) hne
  exact ⟨hrun, completed_of_ongoing s u _ _ h.ongoing hdone, onlySpi_trans s u _ h.onlySpi honly, hspi⟩

/-- The operation has run `as` from its start, and its next transaction stops. -/
theorem RanSpi.faults {i : Instr} {acts : List Act} {fin : State → Outcome} {f : Fault} (a : Act) (post : List Act)
    (hs : Scripted i s.params acts fin) (hpos : s.host.pos = 0) (h : RanSpi as s u x) (hact : doAct a u = .fault f)
    (hacts : acts = as ++ a :: post) : exec i u = .fault f :=
  exec_faults (h.params ▸ hs) (h.drop hpos hacts) hact

theorem RanSpi.refuses {i : Instr} {acts : List Act} {fin : State → Outcome} {r : Refusal} (a : Act) (post : List Act)
    (hs : Scripted i s.params acts fin) (hpos : s.host.pos = 0) (h : RanSpi as s u x) (hact : doAct a u = .refused r)
    (hacts : acts = as ++ a :: post) : exec i u = .refused r :=
  exec_refuses (h.params ▸ hs) (h.drop hpos hacts) hact

end

/-- A transaction that the operation gets past and that changes at most the controller. -/
theorem ranSpi_one (a : Act) (s t : State) (hact : doAct a s = .next t) (hpos : t.host.pos = s.host.pos + 1)
    (hpins : t.pins = s.pins) : RanSpi [a] s t t.spi :=
  ⟨.cons a [] s t t hact hpos (.nil t), hpins, rfl⟩

/-- The state after a CS read into the local variable, the operation going on. -/
def readCs (s : State) : State := (s.readInto .cs).advance

theorem ranSpi_readCs (s : State) : RanSpi [.load .cs] s (readCs s) s.spi :=
  ranSpi_one (.load .cs) s (readCs s) rfl rfl rfl

theorem csRead_readCs (s : State) (hp : s.params.wf) :
    CsRead (readCs s).params (readCs s).spi (readCs s).host.locals.v :=
  csRead_readReg s hp

/-- The state after a register write that leaves the controller as `x`, the operation going on. -/
def writeSpi (s : State) (x : Spi) : State := (s.setSpi x).advance

theorem ranSpi_store (s : State) (x : Spi) (r : Dst) (d : Word) (hw : writeReg r d s = .next (s.setSpi x)) :
    RanSpi [.store r d] s (writeSpi s x) x :=
  ranSpi_one (.store r d) s (writeSpi s x) (by rw [doAct, hw]; rfl) rfl rfl

theorem ranSpi_modify (s : State) (x : Spi) (clr set : Word)
    (hw : writeCs (merge s.host.locals.v clr set) s = .next (s.setSpi x)) :
    RanSpi [.modify .cs clr set] s (writeSpi s x) x :=
  ranSpi_one (.modify .cs clr set) s (writeSpi s x) (by rw [doAct, writeReg, hw]; rfl) rfl rfl

section
variable {as : List Act} {s u : State} {x : Spi}

/-- The operation's next transactions are `CS | TA_BIT` (R160). -/
theorem RanSpi.setTa (h : RanSpi as s u x) (hp : s.params.wf) (hcs : x.cs ≠ 3) :
    ∃ t, RanSpi (orCs (taBit s.params.csBits)) u t { x with ta := true } := by
  obtain rfl := h.spi
  rw [← h.params] at hp ⊢
  exact ⟨_, (ranSpi_readCs u).append
    (ranSpi_modify (readCs u) _ _ _ (writeCs_setTa (readCs u) _ hp (csRead_readCs u hp) hcs))⟩

/-- The operation's next transactions are `CS & ~TA_BIT`, while Idle or Done (R169). -/
theorem RanSpi.clearTa (h : RanSpi as s u x) (hp : s.params.wf) (hcs : x.cs ≠ 3)
    (hidle : x.ta = true → x.txq = [] ∧ x.shift = none) :
    ∃ t, RanSpi (andNotCs (taBit s.params.csBits)) u t { x with ta := false }
      ∧ t.host.locals.r = u.host.locals.r := by
  obtain rfl := h.spi
  rw [← h.params] at hp ⊢
  exact ⟨_, (ranSpi_readCs u).append
    (ranSpi_modify (readCs u) _ _ _ (writeCs_clearTa (readCs u) _ hp (csRead_readCs u hp) hcs hidle)), rfl⟩

/-- The operation's next transactions are `CS & ~CS_MASK` (R162). -/
theorem RanSpi.selectZero (h : RanSpi as s u x) (hp : s.params.wf) :
    ∃ t, RanSpi (andNotCs (csMask s.params.csBits)) u t { x with cs := 0 } := by
  obtain rfl := h.spi
  rw [← h.params] at hp ⊢
  have hselect := writeCs_select (readCs u) _ 0 hp (csRead_readCs u hp) (.inl rfl)
  have hzero : csField u.params.csBits 0 = 0 := BitVec.zero_shiftLeft _
  have hcs : (0 : Word).setWidth 2 = 0#2 := by decide
  change writeCs (merge _ _ (csField u.params.csBits 0)) _ = _ at hselect
  rw [hzero, hcs] at hselect
  exact ⟨_, (ranSpi_readCs u).append (ranSpi_modify (readCs u) _ _ _ hselect)⟩

end

/-- `CS | CLEAR_BOTH` after its read, with an empty shifter (R166). -/
theorem ranSpi_clearBoth (s : State) (hp : s.params.wf) (hcs : s.spi.cs ≠ 3) (hshift : s.spi.shift = none) :
    ∃ t, RanSpi [.modify .cs 0 (clearBoth s.params.csBits)] (readCs s) t { s.spi with txq := [], rxq := [] } :=
  ⟨_, ranSpi_modify (readCs s) _ _ _ (writeCs_clearBoth (readCs s) _ hp (csRead_readCs s hp) hcs hshift)⟩

/-- R237: `CS | CLEAR_BOTH` stops with a byte in the shifter. -/
theorem doAct_clearBoth_shifting (s : State) (hp : s.params.wf) (hcs : s.spi.cs ≠ 3) (hshift : s.spi.shift ≠ none) :
    ∃ d, doAct (.modify .cs 0 (clearBoth s.params.csBits)) (readCs s) = .fault (.clearDuringShift d s.spi.shift) := by
  have hstop := writeCs_clearBoth_shifting (readCs s) _ hp (csRead_readCs s hp) hcs hshift
  exact ⟨_, congrArg (fun o => andThen o fun t => .next t.advance) hstop⟩

/-- An operation whose first transaction reads CS: it goes on, and the block is as it was. -/
theorem exec_readCs (i : Instr) (s : State) (rest : List Act) (fin : State → Outcome)
    (hs : Scripted i s.params (.load .cs :: rest) fin) (hpos : s.host.pos = 0) (hrest : rest ≠ []) :
    exec i s = .next (readCs s) ∧ Ongoing s (readCs s) ∧ BlockSame s (readCs s) := by
  have hread := ranSpi_readCs s
  refine ⟨?_, hread.ongoing, hread.blockSame⟩
  rw [← execN_one]
  have hstart : RanSpi [] s s s.spi := ⟨.nil s, rfl, rfl⟩
  exact hstart.goesOn rest hs hpos hread rfl (List.cons_ne_nil _ _) hrest

/-! ### SetChipSelect and BeginTransfer (R165, R166) -/

/-- Settles O44: a read of CS, and the write that `writeCs_select` grants. -/
theorem setChipSelectChangesOnlyTheField : Obligations.SetChipSelectChangesOnlyTheField := by
  unfold Obligations.SetChipSelectChangesOnlyTheField
  refine fun s cs hp => ⟨fun hbig => if_pos hbig, fun hle hpos => ?_⟩
  have hcs : cs = 0 ∨ cs = 1 := by
    rcases Nat.le_one_iff_eq_zero_or_eq_one.1 hle with h | h
    · exact .inl (BitVec.eq_of_toNat_eq h)
    · exact .inr (BitVec.eq_of_toNat_eq h)
  have hs : Scripted (.setChipSelect cs) s.params
      [.load .cs, .modify .cs (csMask s.params.csBits) (csField s.params.csBits cs)] finishPlain := by
    intro u hu
    rw [← hu]
    exact if_neg (Nat.not_lt.2 hle)
  obtain ⟨hu, hon, hsame⟩ := exec_readCs _ s _ _ hs hpos (List.cons_ne_nil _ _)
  obtain ⟨ht, hdone, honly, hspi⟩ := (ranSpi_readCs s).completes (ret := fun _ => none) hs hpos
    (ranSpi_modify (readCs s) _ _ _ (writeCs_select (readCs s) _ cs hp (csRead_readCs s hp) hcs)) rfl
    (List.cons_ne_nil _ _)
  exact ⟨_, _, hu, hon, hsame, (execN_one _ _).symm.trans ht, hdone, honly, hspi⟩

theorem scripted_beginTransfer (p : Params) : Scripted .beginTransfer p (beginActs p) finishPlain := by
  rintro u rfl
  rfl

/-- Settles O45: `CS | CLEAR_BOTH`, granted with an empty shifter and stopped with a byte in it, then `CS | TA_BIT`. -/
theorem beginTransferClearsAndActivates : Obligations.BeginTransferClearsAndActivates := by
  unfold Obligations.BeginTransferClearsAndActivates
  intro s hp hpos hcs
  have hs := scripted_beginTransfer s.params
  have hread := ranSpi_readCs s
  obtain ⟨hu, hon, hsame⟩ := exec_readCs _ s _ _ hs hpos (List.cons_ne_nil _ _)
  refine ⟨_, hu, hon, hsame, fun hshift => ?_, fun hshift => ?_⟩
  · obtain ⟨v, hclear⟩ := ranSpi_clearBoth s hp hcs hshift
    obtain ⟨w, hactive⟩ := (hread.append hclear).setTa hp hcs
    obtain ⟨ht, hdone, honly, hspi⟩ := hread.completes (ret := fun _ => none) hs hpos (hclear.append hactive) rfl
      (List.cons_ne_nil _ _)
    exact ⟨_, ht, hdone, honly, hspi⟩
  · obtain ⟨d, hd⟩ := doAct_clearBoth_shifting s hp hcs hshift
    exact ⟨d, hread.faults _ _ hs hpos hd rfl⟩

/-! ### Waits (R160) -/

theorem txReady_iff (s : State) (hp : s.params.wf) :
    WaitFor.txReady.holds s.params.csBits (s.readBit .cs) = true ↔ s.spi.txq.length < s.params.fifoDepth := by
  rw [WaitFor.holds, readBit_cs_txd s hp, txd_iff]

theorem doneWait_iff (s : State) (hp : s.params.wf) :
    WaitFor.done.holds s.params.csBits (s.readBit .cs) = true
      ↔ s.spi.ta = true ∧ s.spi.txq = [] ∧ s.spi.shift = none := by
  rw [WaitFor.holds, readBit_cs_done s hp, done_iff]

theorem idleOrDone_iff (s : State) (hp : s.params.wf) :
    WaitFor.idleOrDone.holds s.params.csBits (s.readBit .cs) = true
      ↔ (s.spi.ta = true → s.spi.txq = [] ∧ s.spi.shift = none) := by
  rw [WaitFor.holds, readBit_cs_ta s hp, readBit_cs_done s hp, Bool.or_eq_true, done_iff]
  cases s.spi.ta <;> simp

/-- A test that holds is a read of CS that the operation gets past. -/
theorem ranSpi_wait (c : WaitFor) (s : State) (hc : c.holds s.params.csBits (s.readBit .cs) = true) :
    RanSpi [.wait c] s (readCs s) s.spi :=
  ranSpi_one (.wait c) s (readCs s) (if_pos hc) rfl rfl

/-- The operation's next transaction is the wait for room in the TX FIFO, and there is room (R167). -/
theorem RanSpi.txReady {as : List Act} {s u : State} {x : Spi} (h : RanSpi as s u x) (hp : s.params.wf)
    (hroom : x.txq.length < s.params.fifoDepth) : ∃ t, RanSpi [.wait .txReady] u t x := by
  obtain rfl := h.spi
  rw [← h.params] at hp hroom
  exact ⟨_, ranSpi_wait .txReady u ((txReady_iff u hp).2 hroom)⟩

/-- An operation that starts with a wait: the test changes nothing of the block, and the operation gets past it exactly if
the condition holds (R160, R233). -/
theorem exec_wait (i : Instr) (s : State) (c : WaitFor) (rest : List Act) (fin : State → Outcome)
    (hs : Scripted i s.params (.wait c :: rest) fin) (hpos : s.host.pos = 0) (hrest : rest ≠ []) :
    ∃ u, exec i s = .next u ∧ Ongoing s u ∧ BlockSame s u
      ∧ (c.holds s.params.csBits (s.readBit .cs) = false → u.host.pos = 0)
      ∧ (c.holds s.params.csBits (s.readBit .cs) = true → RanSpi [.wait c] s u s.spi) := by
  cases hc : c.holds s.params.csBits (s.readBit .cs) with
  | true =>
    have hwait := ranSpi_wait c s hc
    have hstart : RanSpi [] s s s.spi := ⟨.nil s, rfl, rfl⟩
    have hrun := hstart.goesOn rest hs hpos hwait rfl (List.cons_ne_nil _ _) hrest
    exact ⟨readCs s, (execN_one i s).symm.trans hrun, hwait.ongoing, hwait.blockSame, nofun, fun _ => hwait⟩
  | false =>
    have hact : doAct (.wait c) s = .next (s.readInto .cs) := by simp only [doAct, hc, Bool.false_eq_true, if_false]
    refine ⟨s.readInto .cs, ?_, by simp [Ongoing], by simp [BlockSame], fun _ => by simp [hpos], nofun⟩
    rw [hs s rfl]
    exact runScript_mid _ _ s _ _ (by rw [hpos]; rfl) hact (by simp [hpos])

/-! ### Send, Send16 and EndTransfer (R167 to R169) -/

section
variable {as : List Act} {s u : State} {x : Spi}

/-- A byte's FIFO write as an operation's next transaction (R167). -/
theorem RanSpi.push (h : RanSpi as s u x) (b : Byte) (hta : x.ta = true) (hroom : x.txq.length ≠ s.params.fifoDepth) :
    ∃ t, RanSpi [.store .fifo (fifoData s.params.spi0Layout b)] u t { x with txq := x.txq ++ [b] } := by
  obtain rfl := h.spi
  rw [← h.params] at hroom ⊢
  refine ⟨_, ranSpi_store u _ .fifo _ ?_⟩
  rw [writeReg, writeFifo_push _ u hta hroom, fifoByte_fifoData]

theorem RanSpi.push_idle (h : RanSpi as s u x) (b : Byte) (hta : x.ta = false) :
    doAct (.store .fifo (fifoData s.params.spi0Layout b)) u
      = .refused (.fifoWriteWhileIdle (fifoData s.params.spi0Layout b)) := by
  obtain rfl := h.spi
  rw [doAct, writeReg, writeFifo_idle _ u hta, andThen_refused]

theorem RanSpi.push_full (h : RanSpi as s u x) (b : Byte) (hta : x.ta = true)
    (hfull : x.txq.length = s.params.fifoDepth) :
    doAct (.store .fifo (fifoData s.params.spi0Layout b)) u = .fault (.txOverflow b) := by
  obtain rfl := h.spi
  rw [← h.params] at hfull ⊢
  rw [doAct, writeReg, writeFifo_full _ u hta hfull, fifoByte_fifoData, andThen_fault]

end

theorem scripted_send (p : Params) (byte : Byte) : Scripted (.send byte) p (sendActs p byte) finishPlain := by
  rintro u rfl
  rfl

/-- Settles O46: the wait, then one FIFO write. -/
theorem sendWaitsThenPushes : Obligations.SendWaitsThenPushes := by
  unfold Obligations.SendWaitsThenPushes
  intro s byte hp hpos
  have hs := scripted_send s.params byte
  obtain ⟨u, hu, hon, hsame, hstay, hgo⟩ := exec_wait _ s _ _ _ hs hpos (List.cons_ne_nil _ _)
  rw [txReady_iff s hp] at hgo
  rw [← Bool.not_eq_true, txReady_iff s hp, Nat.not_lt] at hstay
  refine ⟨u, hu, hon, hsame, hstay, fun hroom hta => ?_, fun hroom hta => ?_⟩
  · have hwait := hgo hroom
    obtain ⟨v, hpush⟩ := hwait.push byte hta (Nat.ne_of_lt hroom)
    obtain ⟨ht, hdone, honly, hspi⟩ := hwait.completes (ret := fun _ => none) hs hpos hpush rfl (List.cons_ne_nil _ _)
    exact ⟨_, (execN_one _ _).symm.trans ht, hdone, honly, hspi⟩
  · have hwait := hgo hroom
    exact hwait.refuses _ _ hs hpos (hwait.push_idle byte hta) rfl

theorem scripted_send16 (p : Params) (word : Half) : Scripted (.send16 word) p (send16Acts p word) finishPlain := by
  rintro u rfl
  rfl

/-- Settles O47: one wait, then two FIFO writes, the second of which finds room, or the TX FIFO full. -/
theorem send16PushesHighThenLow : Obligations.Send16PushesHighThenLow := by
  unfold Obligations.Send16PushesHighThenLow
  intro s word hp hpos
  have hs := scripted_send16 s.params word
  obtain ⟨u, hu, hon, hsame, hstay, hgo⟩ := exec_wait _ s _ _ _ hs hpos (List.cons_ne_nil _ _)
  rw [txReady_iff s hp] at hgo
  rw [← Bool.not_eq_true, txReady_iff s hp, Nat.not_lt] at hstay
  have hhigh (hroom : s.spi.txq.length < s.params.fifoDepth) (hta : s.spi.ta = true) :=
    (hgo hroom).push (highByte word) hta (Nat.ne_of_lt hroom)
  have hlength : (s.spi.txq ++ [highByte word]).length = s.spi.txq.length + 1 := List.length_append
  refine ⟨u, hu, hon, hsame, hstay, fun hroom hta => ?_, fun hroom hta => ?_, fun hroom hta => ?_⟩
  · have hwait := hgo (by omega)
    obtain ⟨v, hfirst⟩ := hhigh (by omega) hta
    obtain ⟨w, hlow⟩ := (hwait.append hfirst).push (lowByte word) hta (by rw [hlength]; omega)
    obtain ⟨ht, hdone, honly, hspi⟩ := hwait.completes (ret := fun _ => none) hs hpos (hfirst.append hlow) rfl
      (List.cons_ne_nil _ _)
    refine ⟨_, ht, hdone, honly, hspi.trans ?_⟩
    rw [List.append_assoc]
    rfl
  · have hwait := hgo (by omega)
    obtain ⟨v, hfirst⟩ := hhigh (by omega) hta
    have hsent := hwait.append hfirst
    have hrun := hwait.goesOn _ hs hpos hfirst rfl (List.cons_ne_nil _ _) (List.cons_ne_nil _ _)
    have hlow := hsent.faults _ _ hs hpos (hsent.push_full (lowByte word) hta (by rw [hlength]; omega)) rfl
    rw [execN_add 1 1 _ u _ hrun, execN_one]
    exact hlow
  · have hwait := hgo hroom
    exact hwait.refuses _ _ hs hpos (hwait.push_idle (highByte word) hta) rfl

theorem scripted_endTransfer (p : Params) : Scripted .endTransfer p (endTransferActs p) finishPlain := by
  rintro u rfl
  rfl

/-- Settles O48: the wait, then `CS & ~TA_BIT`, which is granted while Idle or Done. -/
theorem endTransferWaitsThenDeactivates : Obligations.EndTransferWaitsThenDeactivates := by
  unfold Obligations.EndTransferWaitsThenDeactivates
  intro s hp hpos hcs
  have hs := scripted_endTransfer s.params
  obtain ⟨u, hu, hon, hsame, hstay, hgo⟩ := exec_wait _ s _ _ _ hs hpos (List.cons_ne_nil _ _)
  rw [idleOrDone_iff s hp] at hgo
  rw [← Bool.not_eq_true, idleOrDone_iff s hp] at hstay
  refine ⟨u, hu, hon, hsame, fun hta hbusy => hstay fun hidle => ?_, fun hidle => ?_⟩
  · obtain ⟨htxq, hshift⟩ := hidle hta
    exact hbusy.elim (absurd htxq) (absurd hshift)
  · have hwait := hgo hidle
    obtain ⟨v, hclear, -⟩ := hwait.clearTa hp hcs hidle
    obtain ⟨ht, hdone, honly, hspi⟩ := hwait.completes (ret := fun _ => none) hs hpos hclear rfl (List.cons_ne_nil _ _)
    exact ⟨_, ht, hdone, honly, hspi⟩

/-! ### TransferByte (R170) -/

theorem scripted_transferByte (p : Params) (val : Byte) :
    Scripted (.transferByte val) p (transferByteActs p val) finishByte := by
  rintro u rfl
  rfl

/-- The operation's next transaction takes the front of the RX FIFO (R170). -/
theorem RanSpi.take {as : List Act} {s u : State} {x : Spi} (h : RanSpi as s u x) (b : Byte) (q : List Byte)
    (hrxq : x.rxq = b :: q) : ∃ t, RanSpi [.take] u t { x with rxq := q } ∧ t.host.locals.r = b := by
  obtain rfl := h.spi
  obtain rfl : u.spi.rxq.tail = q := by rw [hrxq, List.tail_cons]
  exact ⟨((u.afterRead .fifo).setLocals { u.host.locals with r := u.readByte }).advance,
    ranSpi_one .take u _ rfl rfl rfl, readByte_eq u b _ hrxq⟩

/-- The engine's two turns that exchange the one byte waiting, with the shifter and the RX FIFO empty (R150, R151). -/
theorem engineSpi_exchange (p : Params) (s : Spi) (val other miso : Byte) (hta : s.ta = true) (htxq : s.txq = [val])
    (hrxq : s.rxq = []) (hshift : s.shift = none) (hdepth : 0 < p.fifoDepth) :
    engineSpi p miso (engineSpi p other s)
      = { s with txq := [], rxq := [miso], wire := s.wire ++ [(s.cs, val, miso)] } := by
  have hload : loadEnabled p s := by
    rw [loadEnabled_iff p s hshift (htxq ▸ List.cons_ne_nil _ _), hrxq]
    exact ⟨hta, fun _ => hdepth⟩
  rw [engineSpi_of_load p other s val [] hload htxq, engineSpi_of_shift p miso _ val s.cs rfl, engineComplete, hrxq,
    List.length_nil, if_pos hdepth, ← hshift]
  rfl

/-- TransferByte's transactions 1 to 5, with an empty shifter: the FIFOs hold nothing but its byte, and it is Active. -/
theorem exec_transferByte_sends (s : State) (val : Byte) (hp : s.params.wf) (hpos : s.host.pos = 0) (hcs : s.spi.cs ≠ 3)
    (hshift : s.spi.shift = none) (hdepth : 0 < s.params.fifoDepth) :
    ∃ v, execN 5 (.transferByte val) (readCs s) = .next v
      ∧ RanSpi ((transferByteActs s.params val).take 6) s v { s.spi with ta := true, txq := [val], rxq := [] } := by
  have hread := ranSpi_readCs s
  obtain ⟨a, hclear⟩ := ranSpi_clearBoth s hp hcs hshift
  obtain ⟨b, hactive⟩ := (hread.append hclear).setTa hp hcs
  obtain ⟨c, hready⟩ := (hread.append (hclear.append hactive)).txReady hp hdepth
  obtain ⟨v, hpush⟩ := (hread.append (hclear.append (hactive.append hready))).push val rfl (Nat.ne_of_lt hdepth)
  have hsend := hclear.append (hactive.append (hready.append hpush))
  have hrun := hread.goesOn _ (scripted_transferByte s.params val) hpos hsend rfl (List.cons_ne_nil _ _)
    (List.cons_ne_nil _ _)
  exact ⟨v, hrun, hread.append hsend⟩

/-- TransferByte's transactions 6 to 9, once Done: it returns the one byte received, and is Idle. -/
theorem exec_transferByte_takes (s : State) (val miso : Byte) (hp : s.params.wf) (hpos : s.host.pos = 6)
    (hcs : s.spi.cs ≠ 3) (hta : s.spi.ta = true) (htxq : s.spi.txq = []) (hshift : s.spi.shift = none)
    (hrxq : s.spi.rxq = [miso]) :
    ∃ t, execN 4 (.transferByte val) s = .next t ∧ Completed s t (some (.byte miso)) ∧ OnlySpi s t
      ∧ t.spi = { s.spi with ta := false, rxq := [] } := by
  have hwait := ranSpi_wait .done s ((doneWait_iff s hp).2 ⟨hta, htxq, hshift⟩)
  obtain ⟨u, htake, hbyte⟩ := hwait.take miso [] hrxq
  obtain ⟨v, hclear, hkept⟩ := (hwait.append htake).clearTa hp hcs fun _ => ⟨htxq, hshift⟩
  have hr : v.host.locals.r = miso := hkept.trans hbyte
  obtain ⟨ht, hdone, honly, hspi⟩ := (hwait.append (htake.append hclear)).finishes
    (ret := fun w => some (.byte w.host.locals.r)) (scripted_transferByte s.params val) (by rw [hpos]; rfl)
    (List.cons_ne_nil _ _)
  rw [hr] at ht hdone honly hspi
  exact ⟨_, ht, hdone, honly, hspi⟩

/-- Settles O49: the five transactions up to the FIFO write, the engine's exchange, and the four that take the reply and
clear Transfer Active; the clear of a byte in the shifter stops as BeginTransfer's does. -/
theorem transferByteReturnsTheReply : Obligations.TransferByteReturnsTheReply := by
  unfold Obligations.TransferByteReturnsTheReply
  intro s val other miso hp hpos hcs
  have hs := scripted_transferByte s.params val
  obtain ⟨hu, hon, hsame⟩ := exec_readCs _ s _ _ hs hpos (List.cons_ne_nil _ _)
  refine ⟨_, hu, hon, hsame, fun hshift hdepth => ?_, fun hshift => ?_⟩
  · obtain ⟨v, hv, hsent⟩ := exec_transferByte_sends s val hp hpos hcs hshift hdepth
    have hexchange : (engineStep miso (engineStep other v)).spi
        = { s.spi with ta := true, txq := [], rxq := [miso], wire := s.spi.wire ++ [(s.spi.cs, val, miso)] } := by
      change engineSpi v.params miso (engineSpi v.params other v.spi) = _
      rw [hsent.spi, hsent.params]
      exact engineSpi_exchange s.params _ val other miso rfl rfl rfl hshift hdepth
    have hparams : (engineStep miso (engineStep other v)).params = s.params := hsent.params
    have hvpos : (engineStep miso (engineStep other v)).host.pos = 6 := hsent.pos.trans (by rw [hpos]; rfl)
    obtain ⟨t, ht, hdone, honly, hspi⟩ := exec_transferByte_takes (engineStep miso (engineStep other v)) val miso
      (hparams ▸ hp) hvpos (by rw [hexchange]; exact hcs) (by rw [hexchange]) (by rw [hexchange])
      (by rw [hexchange]; exact hshift) (by rw [hexchange])
    refine ⟨v, t, hv, hsent.ongoing, hsent.onlySpi, hsent.spi, ht, completed_of_ongoing s _ t _ hsent.ongoing hdone,
      onlySpi_trans s _ t hsent.onlySpi honly, hspi.trans ?_⟩
    rw [hexchange]
  · obtain ⟨d, hd⟩ := doAct_clearBoth_shifting s hp hcs hshift
    exact ⟨d, (ranSpi_readCs s).faults _ _ hs hpos hd rfl⟩

end Sys2Proof.Proofs
end

section
/-! Proofs of the statements on SPI0 (spec/41_spi0.md), Start and End: claiming and releasing the pins, and zeroing CS. -/

namespace Sys2Proof.Proofs

open Sys2Proof.Machine Sys2Proof.Laws

/-! ### SetPinMode in a script (R127, R161) -/

/-- The pin after its mode was set, with edge detection (R115, R127). -/
def setMode (mode : Word) (pin : Pin) : Pin := Pin.detect pin.lev { pin with fsel := mode.setWidth 3 }

/-- A mode set twice is set once: there is no second edge. -/
theorem setMode_setMode (mode : Word) (pin : Pin) : setMode mode (setMode mode pin) = setMode mode pin :=
  detect_lev_self (setMode mode pin)

/-- What a read of a pin's mode register and the write of the merged word leave at each pin (R127). -/
theorem pinAt_setPinMode (s : State) (pin mode : Word) (hpin : validPin pin) (hmode : mode.toNat ≤ 7) (p : Nat)
    (hp : p < 54) :
    pinAt (writeGpfsel (fselReg pin)
        (merge (s.readReg (.gpfsel (fselReg pin))) (modeClear pin) (modeSet pin mode)) s.pins) p
      = if p = pin.toNat then setMode mode (s.pin p) else s.pin p := by
  rw [pinAt_writeGpfsel _ _ _ p hp, fselReg_val pin hpin, merge_mode_field _ pin mode _ hmode (Nat.mod_lt _ (by decide))]
  by_cases hown : p = pin.toNat
  · rw [if_pos hown, if_pos (hown ▸ rfl), if_pos (hown ▸ rfl)]
    rfl
  · rw [if_neg hown]
    refine ite_eq_right_iff.2 fun hreg => ?_
    rw [if_neg (by omega), readReg_gpfsel_field s (fselReg pin) p hp (by rw [hreg, fselReg_val pin hpin])]
    exact detect_lev_self (s.pin p)

/-- SetPinMode's two transactions in the middle of an operation. -/
theorem ran_setPinMode (s : State) (pin mode : Word) (hpin : validPin pin) (hmode : mode.toNat ≤ 7) :
    ∃ t, Ran (setPinModeActs pin mode) s t ∧ t.spi = s.spi
      ∧ ∀ p, p < 54 → t.pin p = if p = pin.toNat then setMode mode (s.pin p) else s.pin p := by
  have hload := loaded_readInto_advance (.gpfsel (fselReg pin)) nofun s
  rw [setPinModeActs_of_valid pin mode hpin hmode]
  exact ⟨_, .cons _ _ s _ _ rfl hload.pos (.cons _ _ _ _ _ rfl rfl (.nil _)), rfl, pinAt_setPinMode s pin mode hpin hmode⟩

/-- The pins of a list, one after the other (R162, R163). -/
theorem ran_setPinModes (mode : Word) (hmode : mode.toNat ≤ 7) (pins : List Word) (hpins : ∀ pin ∈ pins, validPin pin)
    (s : State) :
    ∃ t, Ran (pins.flatMap fun pin => setPinModeActs pin mode) s t ∧ t.spi = s.spi
      ∧ ∀ p, p < 54 → t.pin p = if p ∈ pins.map BitVec.toNat then setMode mode (s.pin p) else s.pin p := by
  induction pins generalizing s with
  | nil => exact ⟨s, .nil s, rfl, fun p _ => (if_neg List.not_mem_nil).symm⟩
  | cons pin pins ih =>
    obtain ⟨hpin, hrest⟩ := List.forall_mem_cons.1 hpins
    obtain ⟨u, hu, huspi, hup⟩ := ran_setPinMode s pin mode hpin hmode
    obtain ⟨t, ht, htspi, htp⟩ := ih hrest u
    refine ⟨t, hu.append ht, htspi.trans huspi, fun p hp => ?_⟩
    rw [htp p hp, hup p hp, List.map_cons]
    by_cases hown : p = pin.toNat
    · rw [if_pos hown, if_pos (List.mem_cons.2 (.inl hown)), setMode_setMode, ite_self]
    · simp only [List.mem_cons, hown, false_or, if_false]

/-! ### The pins of SPI0 (R161) -/

/-- The ten transactions that give the default pins this mode (R162, R163). -/
def spiPinActs (mode : Word) : List Act := [7, 8, 9, 10, 11].flatMap fun pin => setPinModeActs pin mode

theorem spiPinActs_eq (mode : Word) (hmode : mode.toNat ≤ 7) :
    ∃ rest, spiPinActs mode = .load (.gpfsel (fselReg 7)) :: rest ∧ rest.length = 9 := by
  simp only [spiPinActs, List.flatMap_cons, List.flatMap_nil, setPinModeActs_of_valid 7 mode (by decide) hmode,
    setPinModeActs_of_valid 8 mode (by decide) hmode, setPinModeActs_of_valid 9 mode (by decide) hmode,
    setPinModeActs_of_valid 10 mode (by decide) hmode, setPinModeActs_of_valid 11 mode (by decide) hmode]
  exact ⟨_, rfl, rfl⟩

/-- An operation that starts with the ten transactions: the first reads, and after the tenth pins 7 to 11 have the mode;
the operation goes on, or completes if that was all of it. -/
theorem exec_spiPins (i : Instr) (mode : Word) (hmode : mode.toNat ≤ 7) (post : List Act) (fin : State → Outcome)
    (s : State) (hs : Scripted i s.params (spiPinActs mode ++ post) fin) (hpos : s.host.pos = 0) :
    ∃ u v, exec i s = .next u ∧ Ongoing s u ∧ BlockSame s u ∧ execN 9 i u = (if post = [] then fin v else .next v)
      ∧ Ongoing s v ∧ OnlyPins s v ∧ (spiPinActs mode ++ post).drop v.host.pos = post
      ∧ ∀ p, p < 54 → v.pin p = if 7 ≤ p ∧ p ≤ 11 then setMode mode (s.pin p) else s.pin p := by
  obtain ⟨v, hran, hspi, hpin⟩ := ran_setPinModes mode hmode [7, 8, 9, 10, 11] (by simp) s
  obtain ⟨hparams, hencs, hstop, hturn, hon, hend⟩ := hran.frame
  change Ran (spiPinActs mode) s v at hran
  change v.host.pos = s.host.pos + (spiPinActs mode).length at hend
  obtain ⟨rest, hacts, hlength⟩ := spiPinActs_eq mode hmode
  rw [hacts] at hran hs hend ⊢
  cases hran with
  | cons _ _ _ u _ hact hupos hrest =>
    have hload : Loaded (.gpfsel (fselReg 7)) s u := by
      cases hact
      exact loaded_readInto_advance (.gpfsel (fselReg 7)) nofun s
    have hne : rest ≠ [] := by
      rintro rfl
      cases hlength
    have hfirst := execN_of_ran i _ [.load (.gpfsel (fselReg 7))] (rest ++ post) fin s u hs
      (.cons _ _ s u u hact hupos (.nil u)) (by rw [hpos]; rfl) (List.cons_ne_nil _ _)
    have hlast := execN_of_ran i _ rest post fin u v (hload.params ▸ hs) hrest (by rw [hupos, hpos]; rfl) hne
    rw [hlength] at hlast
    refine ⟨u, v, (execN_one i s).symm.trans (hfirst.trans (if_neg (List.append_ne_nil_of_left_ne_nil hne post))),
      hload.ongoing, hload.same, hlast, hon, ⟨hparams, hspi, hencs, hstop, hturn⟩, ?_, fun p hp => ?_⟩
    · rw [hend, hpos, Nat.zero_add, List.drop_left]
    · have hmem : p ∈ [7, 8, 9, 10, 11].map (BitVec.toNat (w := 32)) ↔ 7 ≤ p ∧ p ≤ 11 := by
        change p ∈ [7, 8, 9, 10, 11] ↔ _
        simp only [List.mem_cons, List.not_mem_nil, or_false]
        omega
      rw [hpin p hp]
      simp only [hmem]

theorem scripted_spiEnd (p : Params) (hpins : p.spi0Pins = [7, 8, 9, 10, 11]) :
    Scripted .spiEnd p (spiPinActs modeInput ++ []) finishPlain := by
  rintro u rfl
  rw [List.append_nil, spiPinActs, ← hpins]
  rfl

/-- Settles O43: `exec_spiPins`, with nothing to follow. -/
theorem endReleasesPins : Obligations.EndReleasesPins := by
  unfold Obligations.EndReleasesPins
  intro s hpins hpos
  obtain ⟨u, v, hu, huon, hsame, hv, hvon, honly, -, hpin⟩ :=
    exec_spiPins .spiEnd modeInput (by decide) [] finishPlain s (scripted_spiEnd s.params hpins) hpos
  refine ⟨u, v.finish none, hu, huon, hsame, hv, completed_of_ongoing s v _ none hvon rfl, honly, fun p hp => ?_⟩
  change (_ → (v.pin p).fsel = 0 ∧ (v.pin p).latch = _ ∧ PadAndEnablesSame _ (v.pin p) ∧ EventRule _ (v.pin p))
    ∧ (_ → v.pin p = _)
  refine ⟨fun hown => ?_, fun hother => ?_⟩
  · rw [hpin p hp, if_pos hown]
    have hinput : modeInput.setWidth 3 = 0 := by decide
    exact ⟨hinput, rfl, ⟨rfl, rfl, rfl⟩, rfl⟩
  · rw [hpin p hp, if_neg hother]

/-! ### Start's writes of CS (R162) -/

/-- The stored fields of CS all zero (R162). -/
def zeroCs (x : Spi) : Spi :=
  { x with
    cs := 0, cpha := false, cpol := false, cspol := false, ta := false, renb := false, cspol0 := false, cspol1 := false,
    cspol2 := false }

theorem csRequest_zero (c : CsPositions) (x : Spi) : CsRequest c 0 (zeroCs x) false false where
  stored := by
    have hcs : (0 : Word).extractLsb' c.cs 2 = 0 := by simp
    have hbit (i : Nat) : (0 : Word).getLsbD i = false := BitVec.getLsbD_zero
    simp only [storeCs, hcs, hbit, zeroCs]
  refused := (refusedBits_any_eq_false c 0).2 fun _ _ => BitVec.getLsbD_zero
  clearTx := BitVec.getLsbD_zero
  clearRx := BitVec.getLsbD_zero

/-- Start's zeroing write, unless a byte waits or shifts while Active (R142, R162). -/
theorem writeCs_zero (s : State) (hidle : s.spi.ta = true → s.spi.txq = [] ∧ s.spi.shift = none) :
    writeCs 0 s = .next (s.setSpi (zeroCs s.spi)) :=
  writeCs_of_request 0 s (zeroCs s.spi) false false (csRequest_zero _ _) rfl nofun nofun
    fun hta _ => (hidle hta).imp_left .inr

/-- Start's zeroing write while Active, with a byte that waits or shifts (R142). -/
theorem doAct_zero_busy (s : State) (hta : s.spi.ta = true) (hbusy : s.spi.txq ≠ [] ∨ s.spi.shift ≠ none) :
    doAct (.store .cs 0) s = .fault (.taClearedMidTransfer 0 s.spi.txq.length s.spi.shift) := by
  have hreq := csRequest_zero s.params.csBits s.spi
  rw [doAct, writeReg, writeCs_taCleared 0 s (hreq.not_refused nofun) hreq.clearTx (.inl hreq.clearRx) hta hreq.ta hbusy,
    andThen_fault]

theorem scripted_spiStart (p : Params) (hpins : p.spi0Pins = [7, 8, 9, 10, 11]) (hmode : p.spi0PinMode = 4) :
    Scripted .spiStart p
      (spiPinActs 4 ++ .store .cs 0 :: (orCs (clearBoth p.csBits) ++ andNotCs (csMask p.csBits))) finishPlain := by
  rintro u rfl
  rw [spiPinActs, ← hpins, ← hmode]
  rfl

/-- Start's last five transactions, with nothing busy: CS zeroed, both FIFOs emptied, chip 0 selected (R162). -/
theorem ranSpi_start (s : State) (hp : s.params.wf) (hidle : NotBusy s.spi) :
    ∃ t, RanSpi (.store .cs 0 :: (orCs (clearBoth s.params.csBits) ++ andNotCs (csMask s.params.csBits))) s t
      { zeroCs s.spi with txq := [], rxq := [] } := by
  obtain ⟨hshift, htxq⟩ := hidle
  have hzero := ranSpi_store s _ .cs 0 (writeCs_zero s fun hta => ⟨htxq hta, hshift⟩)
  have hread := ranSpi_readCs (writeSpi s (zeroCs s.spi))
  obtain ⟨u, hclear⟩ := ranSpi_clearBoth (writeSpi s (zeroCs s.spi)) hp nofun hshift
  have hcleared := hzero.append (hread.append hclear)
  obtain ⟨t, hselect⟩ := hcleared.selectZero hp
  exact ⟨t, hcleared.append hselect⟩

/-- Settles O42: the pins by `exec_spiPins`, the controller by `ranSpi_start`; a byte that is pending stops the zeroing
write while Active, and the clear that follows it while Idle. -/
theorem startClaimsPinsAndResetsControl : Obligations.StartClaimsPinsAndResetsControl := by
  unfold Obligations.StartClaimsPinsAndResetsControl
  intro s hp hpins hmode hpos
  have hs := scripted_spiStart s.params hpins hmode
  obtain ⟨u, v, hu, huon, hsame, hv, hvon, honly, hdrop, hpin⟩ :=
    exec_spiPins .spiStart 4 (by decide) _ finishPlain s hs hpos
  have ⟨hparams, hspi, _⟩ := honly
  have hsv := scripted_spiStart v.params (hparams ▸ hpins) (hparams ▸ hmode)
  rw [← hparams] at hdrop
  rw [← hspi]
  refine ⟨u, v, hu, huon, hsame, hv.trans (if_neg (List.cons_ne_nil _ _)), hvon, honly, fun p hlt => ⟨fun hown => ?_,
    fun hother => ?_⟩, fun hidle => ?_, fun hta hbusy => ?_, fun hta hshift => ?_⟩
  · rw [hpin p hlt, if_pos hown]
    have halt : (4 : Word).setWidth 3 = 4 := by decide
    exact ⟨halt, rfl, ⟨rfl, rfl, rfl⟩, rfl⟩
  · rw [hpin p hlt, if_neg hother]
  · obtain ⟨t, hrest⟩ := ranSpi_start v (hparams ▸ hp) hidle
    obtain ⟨ht, hdone, htonly, htspi⟩ := hrest.finishes (ret := fun _ => none) hsv hdrop (List.cons_ne_nil _ _)
    have ⟨_, htpins, _⟩ := htonly
    exact ⟨_, ht, completed_of_ongoing s v _ none hvon hdone, htpins, htonly, htspi⟩
  · exact exec_faults hsv hdrop (doAct_zero_busy v hta hbusy)
  · have hzero := ranSpi_store v _ .cs 0 (writeCs_zero v fun hactive => absurd hactive (by rw [hta]; nofun))
    have hread := hzero.append (ranSpi_readCs (writeSpi v (zeroCs v.spi)))
    have hrun := execN_of_ran .spiStart _ _ _ finishPlain v _ hsv hread.ran hdrop (List.cons_ne_nil _ _)
    obtain ⟨d, hd⟩ := doAct_clearBoth_shifting (writeSpi v (zeroCs v.spi)) (hparams ▸ hp) nofun hshift
    exact ⟨_, d, hrun.trans (if_neg (List.cons_ne_nil _ _)), exec_faults (hread.params ▸ hsv) (hread.ran.drop hdrop) hd⟩

end Sys2Proof.Proofs
end

section
/-! Proofs of the statements on SPI0 (spec/41_spi0.md), BufferTransfer: its transactions one by one, and what its loop
keeps under every schedule. -/

namespace Sys2Proof.Proofs

open Sys2Proof.Machine Sys2Proof.Laws

/-! ### Which transaction runs (R171) -/

section
variable {txBuf : List Byte} {n : Word} {s : State}

theorem exec_bufferTransfer_readCs (hlen : txBuf.length = n.toNat) (hpos : s.host.pos = 0 ∨ s.host.pos = 7) :
    exec (.bufferTransfer txBuf n) s = .next (readCs s) := by
  rcases hpos with hpos | hpos <;> simp only [exec, execBufferTransfer, hlen, ne_eq, not_true, if_false, hpos] <;> rfl

theorem exec_bufferTransfer_begin (hlen : txBuf.length = n.toNat) (hpos : s.host.pos = 1) :
    exec (.bufferTransfer txBuf n) s = bufferBegin n s := by
  simp only [exec, execBufferTransfer, hlen, ne_eq, not_true, if_false, hpos]

theorem exec_bufferTransfer_txTest (hlen : txBuf.length = n.toNat) (hpos : s.host.pos = 2) :
    exec (.bufferTransfer txBuf n) s = bufferTxTest n s := by
  simp only [exec, execBufferTransfer, hlen, ne_eq, not_true, if_false, hpos]

theorem exec_bufferTransfer_txWrite (hlen : txBuf.length = n.toNat) (hpos : s.host.pos = 3) :
    exec (.bufferTransfer txBuf n) s = bufferTxWrite txBuf n s := by
  simp only [exec, execBufferTransfer, hlen, ne_eq, not_true, if_false, hpos]

theorem exec_bufferTransfer_rxTest (hlen : txBuf.length = n.toNat) (hpos : s.host.pos = 4) :
    exec (.bufferTransfer txBuf n) s = bufferRxTest n s := by
  simp only [exec, execBufferTransfer, hlen, ne_eq, not_true, if_false, hpos]

theorem exec_bufferTransfer_rxTake (hlen : txBuf.length = n.toNat) (hpos : s.host.pos = 5) :
    exec (.bufferTransfer txBuf n) s = bufferRxTake n s := by
  simp only [exec, execBufferTransfer, hlen, ne_eq, not_true, if_false, hpos]

theorem exec_bufferTransfer_wait (hlen : txBuf.length = n.toNat) (hpos : s.host.pos = 6) :
    exec (.bufferTransfer txBuf n) s = doAct (.wait .done) s := by
  simp only [exec, execBufferTransfer, hlen, ne_eq, not_true, if_false, hpos]

theorem exec_bufferTransfer_end (hlen : txBuf.length = n.toNat) (hpos : s.host.pos = 8) :
    exec (.bufferTransfer txBuf n) s = bufferEnd s := by
  simp only [exec, execBufferTransfer, hlen, ne_eq, not_true, if_false, hpos]

/-! ### What it does (R171) -/

/-- Transactions 0 and 1 assert Transfer Active and set both counters to 0. -/
theorem exec_bufferTransfer_begins (hlen : txBuf.length = n.toNat) (hp : s.params.wf) (hpos : s.host.pos = 0)
    (hcs : s.spi.cs ≠ 3) :
    ∃ t, exec (.bufferTransfer txBuf n) (readCs s) = .next t ∧ Ongoing s t ∧ OnlySpi s t
      ∧ t.spi = { s.spi with ta := true } ∧ t.host.pos = atTxTest n.toNat 0 0 ∧ t.host.locals.t = 0
      ∧ t.host.locals.rxBuf = [] := by
  have hset := writeCs_setTa (readCs s) _ hp (csRead_readCs s hp) hcs
  have hbegin : exec (.bufferTransfer txBuf n) (readCs s) = bufferBegin n (readCs s) :=
    exec_bufferTransfer_begin hlen (congrArg (· + 1) hpos)
  rw [hbegin, bufferBegin, writeReg, hset, andThen_next]
  exact ⟨_, rfl, ⟨rfl, rfl, rfl⟩, ⟨rfl, rfl, rfl, rfl, rfl⟩, rfl, rfl, rfl, rfl⟩

/-- Transactions 7 and 8 clear Transfer Active and return rxBuf. -/
theorem exec_bufferTransfer_returns (hlen : txBuf.length = n.toNat) (hp : s.params.wf) (hpos : s.host.pos = 7)
    (hcs : s.spi.cs ≠ 3) (hidle : s.spi.ta = true → s.spi.txq = [] ∧ s.spi.shift = none) :
    ∃ t, exec (.bufferTransfer txBuf n) (readCs s) = .next t ∧ Completed s t (some (.bytes s.host.locals.rxBuf))
      ∧ OnlySpi s t ∧ t.spi = { s.spi with ta := false } := by
  have hclear := writeCs_clearTa (readCs s) _ hp (csRead_readCs s hp) hcs hidle
  have hend : exec (.bufferTransfer txBuf n) (readCs s) = bufferEnd (readCs s) :=
    exec_bufferTransfer_end hlen (congrArg (· + 1) hpos)
  rw [hend, bufferEnd, writeReg, hclear, andThen_next]
  exact ⟨_, rfl, rfl, ⟨rfl, rfl, rfl, rfl, rfl⟩, rfl⟩

/-- Transaction 3 sends the next byte of txBuf. -/
theorem exec_bufferTransfer_sends (hlen : txBuf.length = n.toNat) (hpos : s.host.pos = 3) (b : Byte)
    (hb : txBuf[s.host.locals.t]? = some b) (hta : s.spi.ta = true) (hroom : s.spi.txq.length < s.params.fifoDepth) :
    ∃ t, exec (.bufferTransfer txBuf n) s = .next t ∧ Ongoing s t ∧ OnlySpi s t
      ∧ t.spi = { s.spi with txq := s.spi.txq ++ [b] } ∧ t.host.locals.t = s.host.locals.t + 1
      ∧ t.host.locals.rxBuf = s.host.locals.rxBuf
      ∧ t.host.pos = atTxTest n.toNat t.host.locals.t t.host.locals.rxBuf.length := by
  rw [exec_bufferTransfer_txWrite hlen hpos]
  simp only [bufferTxWrite, hb, writeReg, writeFifo_push _ s hta (Nat.ne_of_lt hroom), fifoByte_fifoData, andThen_next]
  exact ⟨_, rfl, ⟨rfl, rfl, rfl⟩, ⟨rfl, rfl, rfl, rfl, rfl⟩, rfl, rfl, rfl, rfl⟩

/-- Transaction 5 receives the next byte into rxBuf. -/
theorem exec_bufferTransfer_receives (hlen : txBuf.length = n.toNat) (hpos : s.host.pos = 5) (b : Byte) (q : List Byte)
    (hrxq : s.spi.rxq = b :: q) :
    ∃ t, exec (.bufferTransfer txBuf n) s = .next t ∧ Ongoing s t ∧ OnlySpi s t ∧ t.spi = { s.spi with rxq := q }
      ∧ t.host.locals.t = s.host.locals.t ∧ t.host.locals.rxBuf = s.host.locals.rxBuf ++ [b]
      ∧ t.host.pos = atRxTest n.toNat t.host.locals.t t.host.locals.rxBuf.length := by
  obtain rfl : s.spi.rxq.tail = q := by rw [hrxq, List.tail_cons]
  rw [exec_bufferTransfer_rxTake hlen hpos, bufferRxTake, readByte_eq s b _ hrxq]
  exact ⟨_, rfl, ⟨rfl, rfl, rfl⟩, ⟨rfl, rfl, rfl, rfl, rfl⟩, rfl, rfl, rfl, rfl⟩

end

/-- Settles O54: the DONE wait's read of CS, and the write that clears Transfer Active. -/
theorem bufferTransferReturnsRxBuf : Obligations.BufferTransferReturnsRxBuf := by
  unfold Obligations.BufferTransferReturnsRxBuf
  intro s txBuf n hp hlen hpos hcs hidle
  have hread := ranSpi_readCs s
  obtain ⟨t, ht, hdone, honly, hspi⟩ := exec_bufferTransfer_returns hlen hp hpos hcs hidle
  exact ⟨readCs s, t, exec_bufferTransfer_readCs hlen (.inr hpos), hread.ongoing, hread.blockSame, ht, hdone, honly, hspi⟩

/-- Settles O51: `exec_bufferTransfer_sends` and `exec_bufferTransfer_receives`. -/
theorem bufferTransferMovesOneByte : Obligations.BufferTransferMovesOneByte := by
  unfold Obligations.BufferTransferMovesOneByte
  refine fun s txBuf n hlen => ⟨fun b hpos hb hta hroom => ?_, fun b q hpos hrxq => ?_⟩
  · obtain ⟨t, ht, hon, honly, hspi, hsent, hkept, -⟩ := exec_bufferTransfer_sends hlen hpos b hb hta hroom
    exact ⟨t, ht, hon, honly, hspi, hsent, hkept⟩
  · obtain ⟨t, ht, hon, honly, hspi, hkept, hreceived, -⟩ := exec_bufferTransfer_receives hlen hpos b q hrxq
    exact ⟨t, ht, hon, honly, hspi, hkept, hreceived⟩

/-- Settles O50: with nothing to move, the operation comes from its second transaction to the DONE wait, whose test holds
with nothing waiting or shifting. -/
theorem bufferTransferMismatchAndEmpty : Obligations.BufferTransferMismatchAndEmpty := by
  unfold Obligations.BufferTransferMismatchAndEmpty
  refine fun s txBuf n => ⟨fun hlen => if_pos hlen, fun hp hpos hcs hshift htxq => ?_⟩
  have hlen : ([] : List Byte).length = (0 : Word).toNat := rfl
  have hread := ranSpi_readCs s
  obtain ⟨a, ha, haon, haonly, haspi, hapos, -, harx⟩ := exec_bufferTransfer_begins hlen hp hpos hcs
  have ⟨haparams, _⟩ := haonly
  obtain ⟨hata, hempty⟩ : a.spi.ta = true ∧ a.spi.txq = [] ∧ a.spi.shift = none := by
    rw [haspi]
    exact ⟨rfl, htxq, hshift⟩
  have htest := (doneWait_iff a (haparams ▸ hp)).2 ⟨hata, hempty⟩
  have hwait := ranSpi_wait .done a htest
  have hb : exec (.bufferTransfer [] 0) a = .next (readCs a) := (exec_bufferTransfer_wait hlen hapos).trans (if_pos htest)
  have hbpos : (readCs a).host.pos = 7 := congrArg (· + 1) hapos
  have hc : exec (.bufferTransfer [] 0) (readCs a) = .next (readCs (readCs a)) :=
    exec_bufferTransfer_readCs hlen (.inr hbpos)
  obtain ⟨t, ht, hdone, honly, hspi⟩ := exec_bufferTransfer_returns (s := readCs a) hlen (haparams ▸ hp) hbpos
    (by rw [hwait.spi, haspi]; exact hcs) (fun _ => hwait.spi ▸ hempty)
  refine ⟨readCs s, t, exec_bufferTransfer_readCs hlen (.inl hpos), hread.ongoing, hread.blockSame,
    by simp only [execN_succ, execN_zero, ha, hb, hc, ht, andThen_next], ?_, ?_, ?_⟩
  · have hrx : (readCs a).host.locals.rxBuf = [] := harx
    rw [hrx] at hdone
    exact completed_of_ongoing s a t _ haon (completed_of_ongoing a (readCs a) t _ hwait.ongoing hdone)
  · exact onlySpi_trans s a t haonly (onlySpi_trans a (readCs a) t hwait.onlySpi honly)
  · rw [hspi, hwait.spi, haspi]

/-! ### The loop's invariant -/

/-- The item at `H.ip` is a matter of the program and of `H.ip` (R21). -/
theorem fetch_of_ongoing (s t : State) (hon : Ongoing s t) (hparams : t.params = s.params) : t.fetch = s.fetch := by
  obtain ⟨hip, hprog, -⟩ := hon
  rw [State.fetch, State.fetch, hip, hprog, hparams]

/-- What each transaction's place in the loop presumes: `BufferLoop.place`, under the parameters `p`. -/
def LoopPlace (p : Params) (n : Word) (s : State) : Prop :=
  (s.host.pos = 2 ∧ s.host.locals.t < n.toNat)
    ∨ (s.host.pos = 3 ∧ s.host.locals.t < n.toNat ∧ s.spi.txq.length < p.fifoDepth)
    ∨ (s.host.pos = 4 ∧ s.host.locals.rxBuf.length < n.toNat)
    ∨ (s.host.pos = 5 ∧ s.host.locals.rxBuf.length < n.toNat ∧ s.spi.rxq ≠ [])
    ∨ (s.host.pos = 6 ∧ s.host.locals.rxBuf.length = n.toNat)

/-- After a loop test or a transfer the operation is at a CS read of a loop test, or at the DONE wait with all received
(R171). -/
theorem loopPlace_of_test (p : Params) (n : Word) (s : State)
    (hpos : s.host.pos = atTxTest n.toNat s.host.locals.t s.host.locals.rxBuf.length
      ∨ s.host.pos = atRxTest n.toNat s.host.locals.t s.host.locals.rxBuf.length)
    (hreceived : s.host.locals.rxBuf.length ≤ n.toNat) : LoopPlace p n s := by
  simp only [atTxTest, atRxTest] at hpos
  unfold LoopPlace
  split_ifs at hpos <;> omega

section
variable {txBuf : List Byte} {n : Word} {s t : State}

/-- No more is received than was sent. -/
theorem received_le_sent (hbytes : s.host.locals.rxBuf ++ s.spi.inFlight = txBuf.take s.host.locals.t) :
    s.host.locals.rxBuf.length ≤ s.host.locals.t := by
  have hlength := congrArg List.length hbytes
  rw [List.length_append, List.length_take] at hlength
  omega

/-- The loop goes on: what a step of it has to keep. -/
theorem bufferLoop_goesOn (h : BufferLoop txBuf n s) (hon : Ongoing s t) (honly : OnlySpi s t)
    (hspi : SpiInv s.params t.spi) (hta : t.spi.ta = true)
    (hbytes : t.host.locals.rxBuf ++ t.spi.inFlight = txBuf.take t.host.locals.t) (hsent : t.host.locals.t ≤ n.toNat)
    (hplace : LoopPlace s.params n t) : BufferLoop txBuf n t := by
  obtain ⟨hparams, -, -, hstop, -⟩ := honly
  have hitem := (fetch_of_ongoing s t hon hparams).trans h.item
  rw [← hparams] at hspi hplace
  exact ⟨hparams ▸ h.tables, hstop.trans h.stop, hitem, h.length, hparams ▸ h.stall, hspi, hta, hbytes, hsent, hplace⟩

/-- A transaction that moves one byte, or a test that fails, goes on at a loop test. -/
theorem bufferLoop_moved (h : BufferLoop txBuf n s) (hon : Ongoing s t) (honly : OnlySpi s t)
    (hspi : SpiInv s.params t.spi) (hta : t.spi.ta = true)
    (hbytes : t.host.locals.rxBuf ++ t.spi.inFlight = txBuf.take t.host.locals.t) (hsent : t.host.locals.t ≤ n.toNat)
    (hpos : t.host.pos = atTxTest n.toNat t.host.locals.t t.host.locals.rxBuf.length
      ∨ t.host.pos = atRxTest n.toNat t.host.locals.t t.host.locals.rxBuf.length) : BufferLoop txBuf n t :=
  bufferLoop_goesOn h hon honly hspi hta hbytes hsent
    (loopPlace_of_test s.params n t hpos ((received_le_sent hbytes).trans hsent))

end

/-- Settles O52: nothing is in flight and nothing was sent, so the loop is entered at its first test, or at the DONE wait
if there is nothing to move. -/
theorem bufferTransferEntersItsLoop : Obligations.BufferTransferEntersItsLoop := by
  unfold Obligations.BufferTransferEntersItsLoop
  intro s txBuf n hp hstop hitem hlen hstall hinv hpos hempty
  obtain ⟨t, ht, hon, ⟨hparams, -, -, htstop, -⟩, hspi, htpos, hsent, hreceived⟩ :=
    exec_bufferTransfer_begins hlen hp hpos hinv.csLegal
  have hplace := loopPlace_of_test t.params n t (.inl (by rw [htpos, hsent, hreceived]; rfl))
    (by rw [hreceived]; exact Nat.zero_le _)
  refine ⟨readCs s, t, exec_bufferTransfer_readCs hlen (.inl hpos), ht, hparams ▸ hp, htstop.trans hstop,
    (fetch_of_ongoing s t hon hparams).trans hitem, hlen, hparams ▸ hstall, ?_, by rw [hspi], ?_, ?_, hplace⟩
  · rw [hparams, hspi]
    exact ⟨hinv.txRoom, hinv.rxRoom, hinv.refusedZero, hinv.csLegal, hinv.shiftLegal, hinv.shiftRoom, hinv.wireLegal⟩
  · rw [hreceived, hsent, List.take_zero, List.nil_append, hspi]
    exact hempty
  · rw [hsent]
    exact Nat.zero_le _

/-! ### The engine's turn in the loop (R150 to R153) -/

/-- Under `stall`, with a loopback slave, the engine's turn keeps the bytes in flight and their order: a loaded byte goes
from the TX FIFO to the shifter, a completed one, whose reply has room, from the shifter to the RX FIFO (R153). -/
theorem engineSpi_inFlight (p : Params) (miso : Byte) (s : Spi) (hinv : SpiInv p s) (hstall : p.rxFullPolicy = .stall)
    (hback : ∀ b c, s.shift = some (b, c) → miso = b) : (engineSpi p miso s).inFlight = s.inFlight := by
  rcases engineSpi_cases p miso s with ⟨b, c, hshift, heq⟩ | ⟨b, q, hshift, htxq, -, heq⟩ | ⟨-, -, heq⟩ <;> rw [heq]
  · have hroom := hinv.shiftRoom hstall (hshift ▸ nofun)
    simp only [Spi.inFlight, engineComplete, if_pos hroom, hshift, hback b c hshift, Option.map_none, Option.map_some,
      Option.toList_none, Option.toList_some, List.append_nil]
  · simp only [Spi.inFlight, hshift, htxq, Option.map_none, Option.map_some, Option.toList_none, Option.toList_some,
      List.append_nil, List.append_assoc, List.singleton_append]

/-- The engine takes from the TX FIFO and adds to the RX FIFO. -/
theorem engineSpi_queues (p : Params) (miso : Byte) (s : Spi) :
    (engineSpi p miso s).txq.length ≤ s.txq.length ∧ (s.rxq ≠ [] → (engineSpi p miso s).rxq ≠ []) := by
  rcases engineSpi_cases p miso s with ⟨b, c, -, heq⟩ | ⟨b, q, -, htxq, -, heq⟩ | ⟨-, -, heq⟩ <;> rw [heq]
  · refine ⟨le_rfl, fun hne => ?_⟩
    simp only [engineComplete]
    split
    · exact List.append_ne_nil_of_left_ne_nil hne _
    · exact hne
  · exact ⟨by rw [htxq, List.length_cons]; exact Nat.le_succ _, id⟩
  · exact ⟨le_rfl, id⟩

/-- The engine's turn keeps the loop. -/
theorem bufferLoop_engineStep (txBuf : List Byte) (n : Word) (s : State) (miso : Byte) (h : BufferLoop txBuf n s)
    (hback : ∀ b c, s.spi.shift = some (b, c) → miso = b) : BufferLoop txBuf n (engineStep miso s) := by
  obtain ⟨htxq, hrxq⟩ := engineSpi_queues s.params miso s.spi
  refine bufferLoop_goesOn h ⟨rfl, rfl, rfl⟩ ⟨rfl, rfl, rfl, rfl, rfl⟩ (spiInv_engineSpi _ _ _ h.spi)
    ((engineSpi_ta _ _ _).trans h.active) ?_ h.sent ?_
  · exact (congrArg (s.host.locals.rxBuf ++ ·) (engineSpi_inFlight _ _ _ h.spi h.stall hback)).trans h.bytes
  · rcases h.place with hplace | ⟨hpos, hleft, hroom⟩ | hplace | ⟨hpos, hleft, hne⟩ | hplace
    · exact .inl hplace
    · exact .inr (.inl ⟨hpos, hleft, lt_of_le_of_lt htxq hroom⟩)
    · exact .inr (.inr (.inl hplace))
    · exact .inr (.inr (.inr (.inl ⟨hpos, hleft, hrxq hne⟩)))
    · exact .inr (.inr (.inr (.inr hplace)))

/-! ### The host's turn in the loop (R171) -/

/-- BufferTransfer is past its DONE wait with every byte returned (R173). -/
def BufferDone (txBuf : List Byte) (s : State) : Prop :=
  s.host.pos = 7 ∧ s.host.locals.rxBuf = txBuf ∧ s.spi.ta = true ∧ s.spi.inFlight = []

section
variable {txBuf : List Byte} {n : Word} {s : State}

/-- The TX loop's test: it finds room for the byte it then writes, or goes on to the RX loop. -/
theorem bufferLoop_txTest (h : BufferLoop txBuf n s) (hpos : s.host.pos = 2) (hleft : s.host.locals.t < n.toNat) :
    ∃ t, exec (.bufferTransfer txBuf n) s = .next t ∧ BufferLoop txBuf n t := by
  rw [exec_bufferTransfer_txTest h.length hpos, bufferTxTest, readBit_cs_txd s h.tables]
  split
  · next htxd =>
    exact ⟨_, rfl, bufferLoop_goesOn h ⟨rfl, rfl, rfl⟩ ⟨rfl, rfl, rfl, rfl, rfl⟩ h.spi h.active h.bytes h.sent
      (.inr (.inl ⟨rfl, hleft, (txd_iff _ _).1 htxd⟩))⟩
  · exact ⟨_, rfl, bufferLoop_moved h ⟨rfl, rfl, rfl⟩ ⟨rfl, rfl, rfl, rfl, rfl⟩ h.spi h.active h.bytes h.sent (.inr rfl)⟩

/-- The RX loop's test: it finds the byte it then reads, or goes on to the TX loop. -/
theorem bufferLoop_rxTest (h : BufferLoop txBuf n s) (hpos : s.host.pos = 4)
    (hleft : s.host.locals.rxBuf.length < n.toNat) :
    ∃ t, exec (.bufferTransfer txBuf n) s = .next t ∧ BufferLoop txBuf n t := by
  rw [exec_bufferTransfer_rxTest h.length hpos, bufferRxTest, readBit_cs_rxd s h.tables]
  split
  · next hrxd =>
    exact ⟨_, rfl, bufferLoop_goesOn h ⟨rfl, rfl, rfl⟩ ⟨rfl, rfl, rfl, rfl, rfl⟩ h.spi h.active h.bytes h.sent
      (.inr (.inr (.inr (.inl ⟨rfl, hleft, (rxd_iff _).1 hrxd⟩))))⟩
  · exact ⟨_, rfl, bufferLoop_moved h ⟨rfl, rfl, rfl⟩ ⟨rfl, rfl, rfl, rfl, rfl⟩ h.spi h.active h.bytes h.sent (.inl rfl)⟩

/-- The FIFO write: the byte sent is the next one in flight. -/
theorem bufferLoop_txWrite (h : BufferLoop txBuf n s) (hpos : s.host.pos = 3) (hleft : s.host.locals.t < n.toNat)
    (hroom : s.spi.txq.length < s.params.fifoDepth) :
    ∃ t, exec (.bufferTransfer txBuf n) s = .next t ∧ BufferLoop txBuf n t := by
  have hb : txBuf[s.host.locals.t]? = some (txBuf[s.host.locals.t]'(h.length ▸ hleft)) := List.getElem?_eq_getElem _
  obtain ⟨t, ht, hon, honly, hspi, hsent, hreceived, htpos⟩ :=
    exec_bufferTransfer_sends h.length hpos _ hb h.active hroom
  refine ⟨t, ht, bufferLoop_moved h hon honly ?_ ?_ ?_ (by rw [hsent]; exact hleft) (.inl htpos)⟩
  · rw [hspi]
    exact spiInv_pushTx _ _ _ h.spi (Nat.ne_of_lt hroom)
  · rw [hspi]
    exact h.active
  · have hflight : t.spi.inFlight = s.spi.inFlight ++ [txBuf[s.host.locals.t]'(h.length ▸ hleft)] := by
      rw [hspi]
      simp only [Spi.inFlight, List.append_assoc]
    rw [hreceived, hsent, hflight, ← List.append_assoc, h.bytes, List.take_append_getElem]

/-- The FIFO read: the byte returned is the oldest in flight. -/
theorem bufferLoop_rxTake (h : BufferLoop txBuf n s) (hpos : s.host.pos = 5) (hne : s.spi.rxq ≠ []) :
    ∃ t, exec (.bufferTransfer txBuf n) s = .next t ∧ BufferLoop txBuf n t := by
  obtain ⟨b, q, hrxq⟩ := List.exists_cons_of_ne_nil hne
  obtain ⟨t, ht, hon, honly, hspi, hsent, hreceived, htpos⟩ := exec_bufferTransfer_receives h.length hpos b q hrxq
  have hpop : t.spi = popRx s.spi := by rw [hspi, popRx, hrxq, List.tail_cons]
  refine ⟨t, ht, bufferLoop_moved h hon honly ?_ ?_ ?_ (by rw [hsent]; exact h.sent) (.inr htpos)⟩
  · rw [hpop]
    exact spiInv_popRx _ _ h.spi
  · rw [hspi]
    exact h.active
  · have hflight : s.spi.inFlight = b :: t.spi.inFlight := by
      rw [hspi]
      simp only [Spi.inFlight, hrxq, List.cons_append]
    rw [hreceived, hsent, List.append_assoc, List.singleton_append, ← hflight]
    exact h.bytes

/-- The DONE wait: when it ends every byte is back, since as many were received as there are. -/
theorem bufferLoop_doneWait (h : BufferLoop txBuf n s) (hpos : s.host.pos = 6)
    (hall : s.host.locals.rxBuf.length = n.toNat) :
    ∃ t, exec (.bufferTransfer txBuf n) s = .next t ∧ (BufferLoop txBuf n t ∨ BufferDone txBuf t) := by
  rw [exec_bufferTransfer_wait h.length hpos, doAct]
  split
  · refine ⟨_, rfl, .inr ⟨congrArg (· + 1) hpos, ?_⟩⟩
    have hbytes := h.bytes
    have hsent : s.host.locals.t = txBuf.length := by
      have hle := received_le_sent h.bytes
      have hge := h.sent
      have hlen := h.length
      omega
    rw [hsent, List.take_length] at hbytes
    have hflight : s.spi.inFlight = [] := by
      have hlength := congrArg List.length hbytes
      rw [List.length_append, hall, h.length] at hlength
      exact List.length_eq_zero_iff.1 (by omega)
    rw [hflight, List.append_nil] at hbytes
    exact ⟨hbytes, h.active, hflight⟩
  · exact ⟨_, rfl, .inl (bufferLoop_goesOn h ⟨rfl, rfl, rfl⟩ ⟨rfl, rfl, rfl, rfl, rfl⟩ h.spi h.active h.bytes h.sent
      (.inr (.inr (.inr (.inr ⟨hpos, hall⟩)))))⟩

/-- Every transaction of the loop answers a next state, and keeps the loop or ends it (R173). -/
theorem bufferLoop_exec (h : BufferLoop txBuf n s) :
    ∃ t, exec (.bufferTransfer txBuf n) s = .next t ∧ (BufferLoop txBuf n t ∨ BufferDone txBuf t) := by
  have hgo : (∃ t, exec (.bufferTransfer txBuf n) s = .next t ∧ BufferLoop txBuf n t) →
      ∃ t, exec (.bufferTransfer txBuf n) s = .next t ∧ (BufferLoop txBuf n t ∨ BufferDone txBuf t) :=
    fun ⟨t, ht, hloop⟩ => ⟨t, ht, .inl hloop⟩
  rcases h.place with ⟨hpos, hleft⟩ | ⟨hpos, hleft, hroom⟩ | ⟨hpos, hleft⟩ | ⟨hpos, -, hne⟩ | ⟨hpos, hall⟩
  · exact hgo (bufferLoop_txTest h hpos hleft)
  · exact hgo (bufferLoop_txWrite h hpos hleft hroom)
  · exact hgo (bufferLoop_rxTest h hpos hleft)
  · exact hgo (bufferLoop_rxTake h hpos hne)
  · exact bufferLoop_doneWait h hpos hall

/-- A pad change reaches nothing that the loop is about (R113). -/
theorem bufferLoop_padStep (h : BufferLoop txBuf n s) (p : Fin 54) (level : Bool) :
    BufferLoop txBuf n (padStep p level s) :=
  ⟨h.tables, h.stop, h.item, h.length, h.stall, h.spi, h.active, h.bytes, h.sent, h.place⟩

/-- Nor does the draw of the next turn (R17). -/
theorem bufferLoop_redraw (h : BufferLoop txBuf n s) : BufferLoop txBuf n s.redraw :=
  ⟨h.tables, h.stop, h.item, h.length, h.stall, h.spi, h.active, h.bytes, h.sent, h.place⟩

end

/-- Settles O53: each agent's move keeps the loop: the host's by `bufferLoop_exec`, the engine's by
`bufferLoop_engineStep`, the environment's by `bufferLoop_padStep`. -/
theorem bufferTransferKeepsEveryByte : Obligations.BufferTransferKeepsEveryByte := by
  unfold Obligations.BufferTransferKeepsEveryByte
  intro s txBuf n h hback
  suffices hmove : ∃ t, moveStep s = .next t ∧ (BufferLoop txBuf n t ∨ BufferDone txBuf t) by
    obtain ⟨t, ht, hkept⟩ := hmove
    exact ⟨t.redraw, (step_eq_next s _).2 ⟨h.stop, t, ht, rfl⟩, hkept.imp_left bufferLoop_redraw⟩
  cases hturn : s.turn with
  | host =>
    rw [moveStep_of_item s _ hturn h.item]
    exact bufferLoop_exec h
  | engine miso =>
    have hmove : moveStep s = .next (engineStep miso s) := by simp only [moveStep, hturn]
    exact ⟨_, hmove, .inl (bufferLoop_engineStep txBuf n s miso h fun b c => hback miso b c hturn)⟩
  | pad p level =>
    have hmove : moveStep s = .next (padStep p level s) := by simp only [moveStep, hturn]
    exact ⟨_, hmove, .inl (bufferLoop_padStep h p level)⟩

end Sys2Proof.Proofs
end

section
/-! Proofs of the statements on the quadrature decoder (spec/42_quadrature.md): the transition table, Poll, Initialize, and
what any step does to a count. -/

namespace Sys2Proof.Proofs

open Sys2Proof.Machine Sys2Proof.Laws

/-! ### The transition table (R191, R192) -/

/-- R192, entry by entry. -/
theorem transition_eq_table (raw : BitVec 4) :
    [(0 : Int), 1, -1, 0, -1, 0, 0, 1, 1, 0, 0, -1, 0, -1, 1, 0][raw.toNat]? = some (transition raw) := by
  revert raw; decide

/-- The table counts exactly where one of A and B changed (R193). -/
theorem transition_ne_zero_iff (raw : BitVec 4) :
    transition raw ≠ 0 ↔ (raw.getLsbD 3 ≠ raw.getLsbD 1) ≠ (raw.getLsbD 2 ≠ raw.getLsbD 0) := by
  revert raw; decide

theorem transition_cases (raw : BitVec 4) : transition raw = 0 ∨ transition raw = 1 ∨ transition raw = -1 := by
  revert raw; decide

/-- The samples become current and the old current bits previous (R195). -/
theorem nextRaw_bits (raw : BitVec 4) (a b : Bool) :
    (nextRaw raw a b).getLsbD 3 = raw.getLsbD 1 ∧ (nextRaw raw a b).getLsbD 2 = raw.getLsbD 0
      ∧ (nextRaw raw a b).getLsbD 1 = a ∧ (nextRaw raw a b).getLsbD 0 = b := by
  revert raw a b; decide

/-- From a current sample 00 the previous bits no longer matter. -/
theorem nextRaw_of_current_zero (raw : BitVec 4) (hA : raw.getLsbD 1 = false) (hB : raw.getLsbD 0 = false) (a b : Bool) :
    nextRaw raw a b = nextRaw 0 a b := by
  have hcurrent : raw.extractLsb' 0 2 = 0 := by revert raw; decide
  simp only [nextRaw, hcurrent]
  rfl

/-- Settles O55: the table and its nonzero entries by `transition_eq_table` and `transition_ne_zero_iff`; the cycle, its
reverse and the skip start from raw 0 without loss (`nextRaw_of_current_zero`). -/
theorem transitionTableIsTheSpecs : Obligations.TransitionTableIsTheSpecs := by
  unfold Obligations.TransitionTableIsTheSpecs
  refine ⟨fun raw => ⟨transition_eq_table raw, transition_ne_zero_iff raw⟩, fun raw hA hB => ?_⟩
  simp only [nextRaw_of_current_zero raw hA hB]
  decide

/-! ### The encoder table -/

/-- A state's encoders are those of its table. -/
theorem enc_of_encs_eq {s t : State} (h : t.encs = s.encs) (e : Word) : t.enc e = s.enc e :=
  congrArg (encLookup e.toNat) h

/-! ### Poll (R195) -/

/-- ReadPin's sample is the pin's level, and 0 for an invalid pin (R111, R129). -/
theorem sample_eq (s : State) (pin : Word) : s.sample pin = (decide (pin.toNat < 54) && (s.pin pin.toNat).lev) := by
  by_cases hpin : validPin pin
  · have hlevel : s.readPinLevel pin = (s.pin pin.toNat).lev :=
      bankReadBit_pin Pin.lev (bankOf pin) s.pins s.drawn pin.toNat hpin (bankOf_val pin hpin).symm
    rw [State.sample, hlevel]
  · rw [State.sample, decide_eq_false hpin, Bool.false_and, Bool.false_and]

theorem sample_of_valid (s : State) (pin : Word) (hpin : pin.toNat < 54) : s.sample pin = (s.pin pin.toNat).lev := by
  rw [sample_eq, decide_eq_true hpin, Bool.true_and]

/-- Only the free-value counter may differ. -/
def SameButDraws (s u : State) : Prop := BlockSame s u ∧ u.host = s.host

theorem sameButDraws_self (s : State) : SameButDraws s s := ⟨⟨rfl, rfl, rfl, rfl, rfl, rfl⟩, rfl⟩

/-- A ReadPin in Poll changes nothing (R68, R129). -/
theorem sameButDraws_afterSample (s u : State) (pin : Word) (h : SameButDraws s u) : SameButDraws s (u.afterSample pin) := by
  simp only [State.afterSample]
  split <;> exact h

/-- R195's answer to a Poll whose new raw value is `raw'`: the count takes the table's entry and nothing but the encoder
changes, or FT4. -/
def PollAnswer (s : State) (e : Word) (raw' : BitVec 4) (count : BitVec 32) (o : Outcome) : Prop :=
  (-2 ^ 31 ≤ count.toInt + transition raw' ∧ count.toInt + transition raw' ≤ 2 ^ 31 - 1 →
      ∃ (t : State) (count' : BitVec 32), o = .next t ∧ Completed s t none
        ∧ t.params = s.params ∧ t.pins = s.pins ∧ t.spi = s.spi ∧ t.stop = s.stop ∧ t.turn = s.turn
        ∧ t.enc e = { s.enc e with raw := some raw', count := some count' }
        ∧ count'.toInt = count.toInt + transition raw' ∧ ∀ e', e' ≠ e → t.enc e' = s.enc e')
    ∧ (¬ (-2 ^ 31 ≤ count.toInt + transition raw' ∧ count.toInt + transition raw' ≤ 2 ^ 31 - 1) →
        o = .fault (.countOverflow e raw' count (transition raw')))

/-- The end of a Poll, after reads that changed nothing. -/
theorem pollAnswer_finishPoll (s u : State) (e : Word) (raw : BitVec 4) (count : BitVec 32) (a b : Bool)
    (hwf : encsWf 0 s.encs = true) (h : SameButDraws s u) :
    PollAnswer s e (nextRaw raw a b) count (finishPoll e raw count a b u) := by
  obtain ⟨⟨hparams, hpins, hspi, hencs, hstop, hturn⟩, hhost⟩ := h
  refine ⟨fun hrange => ?_, fun hrange => if_pos (by omega)⟩
  have hexact : (BitVec.ofInt 32 (count.toInt + transition (nextRaw raw a b))).toInt
      = count.toInt + transition (nextRaw raw a b) := by
    rw [BitVec.toInt_ofInt]
    exact Int.bmod_eq_of_le (by omega) (by omega)
  refine ⟨_, _, if_neg (by omega), ?_, hparams, hpins, hspi, hstop, hturn, ?_, hexact, fun e' hne => ?_⟩
  · simp only [Completed, State.finish, setHost_host, setEnc_host, hhost]
  · rw [← enc_of_encs_eq hencs e]
    exact enc_setEnc_same u e _ (hencs ▸ hwf)
  · exact (enc_setEnc_other u e e' _ hne).trans (enc_of_encs_eq hencs e')

section
variable {s : State} {e : Word} {raw : BitVec 4} {count : BitVec 32} (hraw : (s.enc e).raw = some raw)
  (hcount : (s.enc e).count = some count)
include hraw hcount

/-- Transaction 0 with two valid pins samples A. -/
theorem exec_qdecPoll_first (hA : validPin (s.enc e).pinA) (hB : validPin (s.enc e).pinB) (hpos : s.host.pos = 0) :
    exec (.qdecPoll e) s = .next
      ((s.afterSample (s.enc e).pinA).setLocals { s.host.locals with a := s.sample (s.enc e).pinA }).advance := by
  simp only [exec, execQdecPoll, hraw, hcount, hpos, if_true, if_pos (And.intro hA hB)]

/-- Transaction 0 with an invalid pin is the whole of Poll. -/
theorem exec_qdecPoll_only (h : ¬ (validPin (s.enc e).pinA ∧ validPin (s.enc e).pinB)) (hpos : s.host.pos = 0) :
    exec (.qdecPoll e) s = finishPoll e raw count (s.sample (s.enc e).pinA) (s.sample (s.enc e).pinB)
      ((s.afterSample (s.enc e).pinA).afterSample (s.enc e).pinB) := by
  simp only [exec, execQdecPoll, hraw, hcount, hpos, if_true, if_neg h]

/-- Transaction 1 samples B and ends Poll. -/
theorem exec_qdecPoll_second (hpos : s.host.pos ≠ 0) :
    exec (.qdecPoll e) s = finishPoll e raw count s.host.locals.a (s.sample (s.enc e).pinB)
      (s.afterSample (s.enc e).pinB) := by
  simp only [exec, execQdecPoll, hraw, hcount, if_neg hpos]

end

/-- R195: Poll of an encoder that was not initialised. -/
theorem exec_qdecPoll_uninitialised (s : State) (e : Word) (hraw : (s.enc e).raw = none) :
    exec (.qdecPoll e) s = .refused (.qdecUninitialised e) := by
  simp only [exec, execQdecPoll, hraw]

/-- Settles O57: `exec_qdecPoll_first`, and `pollAnswer_finishPoll` at the end of the second transaction. -/
theorem pollSamplesShiftsAndCounts : Obligations.PollSamplesShiftsAndCounts := by
  unfold Obligations.PollSamplesShiftsAndCounts
  intro s e raw count hwf hraw hcount hA hB
  refine ⟨fun hpos => ?_, fun hpos => ?_⟩
  · obtain ⟨hblock, hhost⟩ := sameButDraws_afterSample s s (s.enc e).pinA (sameButDraws_self s)
    refine ⟨_, exec_qdecPoll_first hraw hcount hA hB hpos, ?_, hblock, ?_, sample_of_valid s _ hA⟩
    · simp [Ongoing, hhost]
    · simp [hhost, hpos]
  · rw [exec_qdecPoll_second hraw hcount (by omega), ← sample_of_valid s _ hB]
    obtain ⟨hprevA, hprevB, hcurA, hcurB⟩ := nextRaw_bits raw s.host.locals.a (s.sample (s.enc e).pinB)
    exact ⟨_, hprevA, hprevB, hcurA, hcurB,
      pollAnswer_finishPoll s _ e raw count _ _ hwf (sameButDraws_afterSample s s _ (sameButDraws_self s))⟩

/-- Settles O58: RF5 by `exec_qdecPoll_uninitialised`; with an invalid pin the one transaction ends Poll
(`pollAnswer_finishPoll`). -/
theorem pollWithInvalidPinOrUninitialised : Obligations.PollWithInvalidPinOrUninitialised := by
  unfold Obligations.PollWithInvalidPinOrUninitialised
  intro s e
  refine ⟨exec_qdecPoll_uninitialised s e, fun raw count hwf hpos hraw hcount hinvalid => ?_⟩
  rw [exec_qdecPoll_only hraw hcount (by unfold validPin; omega) hpos, ← sample_eq, ← sample_eq]
  obtain ⟨hprevA, hprevB, hcurA, hcurB⟩ := nextRaw_bits raw (s.sample (s.enc e).pinA) (s.sample (s.enc e).pinB)
  exact ⟨_, hprevA, hprevB, hcurA, hcurB, pollAnswer_finishPoll s _ e raw count _ _ hwf
    (sameButDraws_afterSample s _ _ (sameButDraws_afterSample s s _ (sameButDraws_self s)))⟩

/-! ### Initialize (R194) -/

/-- SetPinMode in an operation, for any pin: an invalid one has no transaction and is none of the 54 (R111). -/
theorem ran_setPinMode_or_invalid (s : State) (pin mode : Word) (hmode : mode.toNat ≤ 7) :
    ∃ t, Ran (setPinModeActs pin mode) s t ∧ t.spi = s.spi
      ∧ ∀ p, p < 54 → t.pin p = if p = pin.toNat then setMode mode (s.pin p) else s.pin p := by
  by_cases hpin : validPin pin
  · exact ran_setPinMode s pin mode hpin hmode
  · have hnone : setPinModeActs pin mode = [] := if_neg fun ⟨hvalid, _⟩ => hpin hvalid
    rw [hnone]
    exact ⟨s, .nil s, rfl, fun p hp => (if_neg fun hown : p = pin.toNat => hpin (lt_of_eq_of_lt hown.symm hp)).symm⟩

theorem length_setPinModeActs (pin mode : Word) (hmode : mode.toNat ≤ 7) :
    (setPinModeActs pin mode).length = if pin.toNat < 54 then 2 else 0 := by
  simp only [setPinModeActs, validPin, hmode, and_true]
  split <;> rfl

/-- A script run to its end, when the operation is that script from transaction 1 on; an empty rest takes one step, like
a rest of one transaction (R13). -/
theorem runScript_to_end (i : Instr) (acts mid : List Act) (fin : State → Outcome) (s v t : State)
    (hi : ∀ u : State, u.host.pos ≠ 0 → exec i u = runScript acts fin u) (hran : Ran mid s v)
    (hdrop : acts.drop s.host.pos = mid) (hfin : fin v = .next t) :
    ∃ u, runScript acts fin s = .next u ∧ execN (mid.length - 1) i u = .next t := by
  induction hran with
  | nil s => exact ⟨t, (runScript_done acts fin s (List.drop_eq_nil_iff.1 hdrop)).trans hfin, rfl⟩
  | cons a as s u v hact hpos hrest ih =>
    have hstep := runScript_step acts fin s u a as hdrop hact hpos
    cases as with
    | nil =>
      cases hrest
      exact ⟨t, hstep.trans hfin, rfl⟩
    | cons b bs =>
      obtain ⟨x, hx, hxt⟩ := ih (by rw [hpos, ← List.tail_drop, hdrop, List.tail_cons]) hfin
      refine ⟨u, hstep, ?_⟩
      change execN (bs.length + 1) i u = .next t
      rw [execN_succ, hi u (by omega), hx, andThen_next]
      exact hxt

/-- Initialize's two SetPinModes: a pin named twice is set once. -/
theorem ran_setPinMode_pair (s : State) (pinA pinB mode : Word) (hmode : mode.toNat ≤ 7) :
    ∃ t, Ran (setPinModeActs pinA mode ++ setPinModeActs pinB mode) s t ∧ t.spi = s.spi
      ∧ ∀ p, p < 54 → t.pin p = if p = pinA.toNat ∨ p = pinB.toNat then setMode mode (s.pin p) else s.pin p := by
  obtain ⟨u, hranA, hspiA, hpinA⟩ := ran_setPinMode_or_invalid s pinA mode hmode
  obtain ⟨t, hranB, hspiB, hpinB⟩ := ran_setPinMode_or_invalid u pinB mode hmode
  refine ⟨t, hranA.append hranB, hspiB.trans hspiA, fun p hp => ?_⟩
  rw [hpinB p hp, hpinA p hp]
  by_cases hA : p = pinA.toNat
  · rw [if_pos hA, setMode_setMode, ite_self, if_pos (Or.inl hA)]
  · simp only [hA, false_or, if_false]

/-- A pin put in Input mode, as R115 and R119 say. -/
theorem setMode_input (pin : Pin) :
    (setMode modeInput pin).fsel = 0 ∧ (setMode modeInput pin).latch = pin.latch
      ∧ PadAndEnablesSame pin (setMode modeInput pin) ∧ EventRule pin (setMode modeInput pin) := by
  have hinput : modeInput.setWidth 3 = 0 := by decide
  exact ⟨hinput, rfl, ⟨rfl, rfl, rfl⟩, rfl⟩

section
variable (s : State) (e pinA pinB : Word)

/-- Before its first transaction Initialize fixes the pins (R194). -/
theorem exec_qdecInitialize_first (hpos : s.host.pos = 0) :
    exec (.qdecInitialize e pinA pinB) s
      = runScript (setPinModeActs pinA modeInput ++ setPinModeActs pinB modeInput) (finishInit e pinA pinB)
          (s.setEncPins e pinA pinB) := by
  simp only [exec, execQdecInitialize, if_pos hpos]

/-- From transaction 1 on it is the two SetPinModes alone. -/
theorem exec_qdecInitialize_later (hpos : s.host.pos ≠ 0) :
    exec (.qdecInitialize e pinA pinB) s
      = runScript (setPinModeActs pinA modeInput ++ setPinModeActs pinB modeInput) (finishInit e pinA pinB) s := by
  simp only [exec, execQdecInitialize, if_neg hpos]

end

/-- Settles O56: the pins are fixed, both SetPinModes run (`ran_setPinMode_pair`, `runScript_to_end`), and the end zeroes
the encoder. -/
theorem initializeZeroesTheEncoder : Obligations.InitializeZeroesTheEncoder := by
  unfold Obligations.InitializeZeroesTheEncoder
  intro s e pinA pinB hpos hwf
  have hmode : modeInput.toNat ≤ 7 := by decide
  obtain ⟨v, hran, hspi, hpin⟩ := ran_setPinMode_pair (s.setEncPins e pinA pinB) pinA pinB modeInput hmode
  obtain ⟨hparams, hencs, hstop, hturn, hon, -⟩ := hran.frame
  have hvwf : encsWf 0 v.encs = true := hencs ▸ encsWf_insert _ 0 _ s.encs hwf (Nat.zero_le _)
  obtain ⟨u, hu, hut⟩ := runScript_to_end (.qdecInitialize e pinA pinB) _ _ (finishInit e pinA pinB) _ v _
    (fun x hx => exec_qdecInitialize_later x e pinA pinB hx) hran (by rw [setEncPins_host, hpos, List.drop_zero]) rfl
  rw [List.length_append, length_setPinModeActs pinA _ hmode, length_setPinModeActs pinB _ hmode] at hut
  refine ⟨u, _, (exec_qdecInitialize_first s e pinA pinB hpos).trans hu, hut, completed_of_ongoing s v _ none hon rfl,
    hparams, hspi, hstop, hturn, enc_setEnc_same v e _ hvwf, fun e' hne => ?_, fun p hp => ?_⟩
  · calc (v.setEnc e _).enc e' = v.enc e' := enc_setEnc_other v e e' _ hne
      _ = (s.setEncPins e pinA pinB).enc e' := enc_of_encs_eq hencs e'
      _ = s.enc e' := enc_setEnc_other s e e' _ hne
  · change (_ → (v.pin p).fsel = 0 ∧ (v.pin p).latch = _ ∧ PadAndEnablesSame _ (v.pin p) ∧ EventRule _ (v.pin p))
      ∧ (_ → v.pin p = _)
    rw [hpin p hp]
    refine ⟨fun hown => ?_, fun hother => if_neg hother⟩
    rw [if_pos hown]
    exact setMode_input (s.pin p)

/-! ### What a step does to a count (R196) -/

/-- A Poll that completes moved its own encoder's count by the table's entry, and no other. -/
theorem PollAnswer.enc_of_next {s t : State} {e : Word} {raw' : BitVec 4} {count : BitVec 32}
    (h : PollAnswer s e raw' count (.next t)) :
    (∃ count' : BitVec 32, (t.enc e).count = some count' ∧ count'.toInt = count.toInt + transition raw')
      ∧ ∀ e', e' ≠ e → t.enc e' = s.enc e' := by
  obtain ⟨hin, hout⟩ := h
  by_cases hrange : -2 ^ 31 ≤ count.toInt + transition raw' ∧ count.toInt + transition raw' ≤ 2 ^ 31 - 1
  · obtain ⟨t', count', ht, -, -, -, -, -, -, henc, hsum, hother⟩ := hin hrange
    cases ht
    exact ⟨⟨count', by rw [henc], hsum⟩, hother⟩
  · cases hout hrange

/-- Poll leaves the encoders alone, or answers as R195 says. -/
theorem exec_qdecPoll_cases (e : Word) (s t : State) (hwf : encsWf 0 s.encs = true)
    (h : exec (.qdecPoll e) s = .next t) :
    t.encs = s.encs
      ∨ ∃ raw' count, (s.enc e).count = some count ∧ PollAnswer s e raw' count (.next t) := by
  have hsample (pin : Word) := sameButDraws_afterSample s s pin (sameButDraws_self s)
  simp only [exec, execQdecPoll] at h
  split at h
  · next raw count _ hcount =>
    split_ifs at h with hpos hvalid
    · cases h
      obtain ⟨⟨-, -, -, hencs, -⟩, -⟩ := hsample (s.enc e).pinA
      exact .inl hencs
    · refine .inr ⟨_, count, hcount, h ▸ pollAnswer_finishPoll s _ e raw count _ _ hwf ?_⟩
      exact sameButDraws_afterSample s _ _ (hsample _)
    · exact .inr ⟨_, count, hcount, h ▸ pollAnswer_finishPoll s _ e raw count _ _ hwf (hsample _)⟩
  · cases h

theorem setEncPins_count (s : State) (e pinA pinB e' : Word) (hwf : encsWf 0 s.encs = true) :
    ((s.setEncPins e pinA pinB).enc e').count = (s.enc e').count := by
  by_cases he : e' = e
  · subst he
    rw [State.setEncPins, enc_setEnc_same s e' _ hwf]
  · rw [State.setEncPins, enc_setEnc_other s e e' _ he]

/-- Initialize's last step zeroes its own count. -/
theorem finishInit_count (e pinA pinB e' : Word) (u t : State) (hwf : encsWf 0 u.encs = true)
    (h : finishInit e pinA pinB u = .next t) :
    (t.enc e').count = (u.enc e').count ∨ (e' = e ∧ (t.enc e').count = some 0) := by
  cases h
  by_cases he : e' = e
  · subst he
    exact .inr ⟨rfl, congrArg Encoder.count (enc_setEnc_same u e' _ hwf)⟩
  · exact .inl (congrArg Encoder.count (enc_setEnc_other u e e' _ he))

/-- A step of Initialize leaves a count alone, or zeroes its own. -/
theorem exec_qdecInitialize_count (e pinA pinB e' : Word) (s t : State) (hwf : encsWf 0 s.encs = true)
    (h : exec (.qdecInitialize e pinA pinB) s = .next t) :
    (t.enc e').count = (s.enc e').count ∨ (e' = e ∧ (t.enc e').count = some 0) := by
  have hrun (w : State) (hw : encsWf 0 w.encs = true)
      (h : runScript (setPinModeActs pinA modeInput ++ setPinModeActs pinB modeInput) (finishInit e pinA pinB) w = .next t) :
      (t.enc e').count = (w.enc e').count ∨ (e' = e ∧ (t.enc e').count = some 0) := by
    rcases runScript_cases _ _ w t h with hend | ⟨a, u, hact, hend⟩
    · exact finishInit_count e pinA pinB e' w t hw hend
    · obtain ⟨-, hencs⟩ := doAct_effect a w u hact
      rw [← enc_of_encs_eq hencs e']
      rcases hend with rfl | hend
      · exact .inl rfl
      · exact finishInit_count e pinA pinB e' u t (hencs ▸ hw) hend
  by_cases hpos : s.host.pos = 0
  · rw [exec_qdecInitialize_first s e pinA pinB hpos] at h
    rw [← setEncPins_count s e pinA pinB e' hwf]
    exact hrun _ (encsWf_insert _ 0 _ s.encs hwf (Nat.zero_le _)) h
  · rw [exec_qdecInitialize_later s e pinA pinB hpos] at h
    exact hrun s hwf h

/-- Settles O59: a move that writes the encoders is one of the two operations (`moveStep_encs`): Initialize keeps or
zeroes a count, and Poll adds an entry of the table, which is -1, 0 or +1. -/
theorem countMovesByAtMostOne : Obligations.CountMovesByAtMostOne := by
  unfold Obligations.CountMovesByAtMostOne
  intro s t e c c' hwf hstep hc hc'
  obtain ⟨-, u, hmove, rfl⟩ := (step_eq_next s t).1 hstep
  change (u.enc e).count = some c' at hc'
  have hkept (h : (u.enc e).count = (s.enc e).count) : c'.toInt = c.toInt := by
    rw [hc', hc, Option.some_inj] at h
    rw [h]
  by_cases hencs : u.encs = s.encs
  · exact .inl (hkept (congrArg Encoder.count (enc_of_encs_eq hencs e)))
  obtain ⟨hturn, ⟨e', a, b, hfetch⟩ | ⟨e', hfetch⟩⟩ := moveStep_encs s u hmove hencs
  · rw [moveStep_of_item s _ hturn hfetch] at hmove
    rcases exec_qdecInitialize_count e' a b e s u hwf hmove with hsame | ⟨rfl, hzero⟩
    · exact .inl (hkept hsame)
    · rw [hc', Option.some_inj] at hzero
      exact .inr (.inr (.inr ⟨hzero, a, b, hfetch⟩))
  · rw [moveStep_of_item s _ hturn hfetch] at hmove
    rcases exec_qdecPoll_cases e' s u hwf hmove with hsame | ⟨raw', count, hcount, hanswer⟩
    · exact absurd hsame hencs
    obtain ⟨⟨count', hcount', hsum⟩, hother⟩ := hanswer.enc_of_next
    by_cases he : e = e'
    · subst he
      rw [hc, Option.some_inj] at hcount
      rw [hc', Option.some_inj] at hcount'
      subst hcount hcount'
      have hentry := transition_cases raw'
      omega
    · exact .inl (hkept (congrArg Encoder.count (hother e he)))

end Sys2Proof.Proofs
end

section
/-! Proofs of the statement on exceptions (spec/60_exceptions.md): a stop is recorded where it is raised, and ends the run. -/

namespace Sys2Proof.Proofs

open Sys2Proof.Machine Sys2Proof.Laws

/-! ### Stepping with a stop recorded (R208) -/

/-- No agent moves: the step answers the stop again. -/
theorem step_of_stopped (s : State) (r : Stop) (h : s.stop = some r) : step s = r.outcome := by
  simp only [step, stepOf, h]

theorem settle_of_stopped (s : State) (r : Stop) (h : s.stop = some r) : settle s = s := by
  have hrunning : s.stop ≠ none := by simp [h]
  simp only [settle, step_of_stopped s r h]
  cases r <;> exact if_neg hrunning

/-! ### Recording the stop a step raises (R40, R208) -/

/-- Whatever is raised is what `H.stop` holds, also where the raising rule had an effect before (log 9). -/
theorem recordStop_stop (s : State) (r : Stop) : (s.recordStop r).stop = some r := by
  unfold State.recordStop
  split <;> rfl

/-- A stop raised with none recorded is recorded, and raised again by the next step. -/
theorem settle_of_raised (s : State) (r : Stop) (hrun : s.stop = none) (h : step s = r.outcome) :
    settle s = s.recordStop r ∧ step (settle s) = r.outcome := by
  have hsettle : settle s = s.recordStop r := by
    unfold settle
    rw [h]
    cases r <;> exact if_pos hrun
  exact ⟨hsettle, hsettle ▸ step_of_stopped _ r (recordStop_stop s r)⟩

/-- FT4 leaves the raw value Poll wrote before it tested the sum, in that encoder alone (R195; log 9). -/
theorem enc_recordStop_countOverflow (s : State) (e : Word) (raw : BitVec 4) (count : BitVec 32) (entry : Int)
    (hwf : encsWf 0 s.encs = true) :
    (s.recordStop (.fault (.countOverflow e raw count entry))).enc e = { s.enc e with raw := some raw }
      ∧ ∀ e', e' ≠ e → (s.recordStop (.fault (.countOverflow e raw count entry))).enc e' = s.enc e' :=
  ⟨enc_setEnc_same s e _ hwf, fun e' hne => enc_setEnc_other s e e' _ hne⟩

/-- Settles O9: `step_of_stopped` and `settle_of_stopped` once a stop is recorded, `settle_of_raised` where it is raised;
of the faults, FT2 and FT4 alone leave an effect. -/
theorem stopIsTerminal : Obligations.StopIsTerminal := by
  unfold Obligations.StopIsTerminal
  refine ⟨fun s r h => ⟨step_of_stopped s r h, settle_of_stopped s r h⟩,
    fun s r hrun h => settle_of_raised s (.refusal r) hrun h, fun s f hrun h => ?_⟩
  obtain ⟨hsettle, hstep⟩ := settle_of_raised s (.fault f) hrun h
  refine ⟨hstep, ?_⟩
  rw [hsettle]
  cases f with
  | txOverflow data => rfl
  | taClearedMidTransfer data txLength shift => rfl
  | clearDuringShift data shift => rfl
  | countOverflow e raw count entry => exact ⟨rfl, enc_recordStop_countOverflow s e raw count entry⟩

end Sys2Proof.Proofs
end

section
/-! Proofs of the statements on reset and launch (spec/70_reset_and_hazards.md): what the registers read after reset, and the
invariant where a program may start. -/

namespace Sys2Proof.Proofs

open Sys2Proof.Machine Sys2Proof.Laws

/-! ### The registers after reset (R225) -/

/-- R22 to R28: of a pin's state, reset leaves open the latch and the pad level alone (log 6). -/
theorem pin_reset (p : Nat) (hp : p < 54) :
    State.reset.pin p = { latch := Config.resetLatch p, ext := Config.resetExt p } := by
  simp [State.pin, pinAt, State.reset, hp]

/-- Every mode is Input, code 0 (R22). -/
theorem fsel_pin_reset (p : Nat) (hp : p < 54) : (State.reset.pin p).fsel = 0#3 :=
  congrArg Pin.fsel (pin_reset p hp)

/-- No pin is an output, so its level is its pad's (R26). -/
theorem lev_pin_reset (p : Nat) (hp : p < 54) : (State.reset.pin p).lev = (State.reset.pin p).ext := by
  have hinput : 0#3 ≠ modeOutput := by decide
  rw [Pin.lev, fsel_pin_reset p hp, if_neg hinput]

/-- Every bit of a mode field is 0 (R114). -/
theorem readBit_gpfsel_reset (n : Fin 6) (i : Nat) (hi : i < 30) (hpin : 10 * n.val + i / 3 ≤ 53) :
    State.reset.readBit (.gpfsel n) i = false := by
  have hbit : (10 * n.val + i / 3) % 10 * 3 + i % 3 = i := by omega
  have hread := gpfselBit_pin n State.reset.pins State.reset.drawn (10 * n.val + i / 3) (i % 3) (by omega) (by omega)
    (Nat.mod_lt _ (by decide))
  rw [hbit] at hread
  calc State.reset.readBit (.gpfsel n) i
      = (State.reset.pin (10 * n.val + i / 3)).fsel.getLsbD (i % 3) := hread
    _ = false := by rw [fsel_pin_reset _ (by omega), BitVec.getLsbD_zero]

/-- The levels are the pads', and there is no event and no edge enable (R26 to R28). -/
theorem readBit_bank_reset (n : Fin 2) (b : Nat) (hpin : 32 * n.val + b ≤ 53) :
    State.reset.readBit (.gplev n) b = (State.reset.pin (32 * n.val + b)).ext
      ∧ State.reset.readBit (.gpeds n) b = false ∧ State.reset.readBit (.gpren n) b = false
      ∧ State.reset.readBit (.gpfen n) b = false := by
  have hp : 32 * n.val + b < 54 := by omega
  have hread (f : Pin → Bool) :
      bankReadBit f n State.reset.pins State.reset.drawn b = f (State.reset.pin (32 * n.val + b)) := if_pos hpin
  exact ⟨(hread Pin.lev).trans (lev_pin_reset _ hp), (hread Pin.eds).trans (congrArg Pin.eds (pin_reset _ hp)),
    (hread Pin.ren).trans (congrArg Pin.ren (pin_reset _ hp)), (hread Pin.fen).trans (congrArg Pin.fen (pin_reset _ hp))⟩

/-- At the default layout the fields take up bits 25:0; of those after reset, TXD and REN alone are 1 (R31, R35, R90). -/
theorem csFields_lookup_reset :
    ∀ i, i < 26 → (csFields .defaults {}).lookup i = some ((0x00041000#32).getLsbD i) := by
  decide

theorem readBit_cs_reset (i : Nat) (hi : i < 26) : State.reset.readBit .cs i = (0x00041000#32).getLsbD i := by
  change csBit .defaults {} _ i = _
  rw [csBit, csFields_lookup_reset i hi, Option.getD_some]

/-- The divider is 0, and the default layout has it in bits 15:0 (R36, R94). -/
theorem readBit_clk_reset (i : Nat) (hi : i < 16) : State.reset.readBit .clk i = false := by
  have hread := clkBit_cdiv State.reset.params.spi0Layout State.reset.spi State.reset.drawn i hi
  have hplace : State.reset.params.spi0Layout.cdiv + i = i := Nat.zero_add i
  rw [hplace] at hread
  exact hread.trans BitVec.getLsbD_zero

/-- Settles O1: register by register; the queues, the shifter and the encoder table are empty in `State.reset` itself. -/
theorem resetReadsAsTheTableSays : Obligations.ResetReadsAsTheTableSays := by
  unfold Obligations.ResetReadsAsTheTableSays
  exact ⟨readBit_gpfsel_reset, readBit_bank_reset, readBit_cs_reset, readBit_clk_reset, rfl, rfl, rfl,
    fun _ => ⟨rfl, rfl⟩⟩

/-! ### Launch states (R226) -/

theorem launch_reset : Launch State.reset where
  txRoom := Nat.zero_le _
  rxRoom := Nat.zero_le _
  shiftIdle := rfl
  refusedZero := ⟨rfl, rfl, rfl, rfl, rfl, rfl, rfl, rfl, rfl⟩
  csLegal := by decide
  ip := rfl
  pos := rfl
  stop := rfl
  wire := rfl
  encs := rfl

/-- With no byte in the shifter and no exchange on the wire, nothing is asked of either. -/
theorem spiInv_of_launch (s : State) (h : Launch s) : SpiInv s.params s.spi where
  txRoom := h.txRoom
  rxRoom := h.rxRoom
  refusedZero := h.refusedZero
  csLegal := h.csLegal
  shiftLegal b c hshift := by
    rw [h.shiftIdle] at hshift
    cases hshift
  shiftRoom _ hshift := absurd h.shiftIdle hshift
  wireLegal := by
    rw [h.wire]
    exact List.forall_mem_nil _

/-- No encoder is in the table, so it is canonical and whole. -/
theorem machineInv_of_launch (s : State) (h : Launch s) : MachineInv s where
  spi := spiInv_of_launch s h
  encs := by rw [h.encs, encsWf]
  encsWhole := by
    rw [h.encs]
    exact List.forall_mem_nil _

/-- Settles O2: `launch_reset` and `machineInv_of_launch`. -/
theorem launchStatesMeetInvariant : Obligations.LaunchStatesMeetInvariant := by
  unfold Obligations.LaunchStatesMeetInvariant
  exact ⟨launch_reset, machineInv_of_launch⟩

end Sys2Proof.Proofs
end
